-- ==== Sys2Proof/Word.lean ====
section
/-! DEFINITION. The word of the NoizGen NCO core: 32 bits, bit 0 least significant (spec/00_scope.md R7). -/

namespace Sys2Proof

/-- A word is 32 bits (R7); every location of the core is one word (spec/20_memory.md R42). -/
abbrev Word := BitVec 32

/-- A byte lane of a word, used only to lay a command word out in bytes (spec/20_memory.md R45). -/
abbrev Byte := BitVec 8

/-- `zext_32` of an unsigned integer that fits a word (R7). -/
abbrev Word.ofNat (k : Nat) : Word := BitVec.ofNat 32 k

end Sys2Proof
end

