-- ==== Sys2Proof/Machine/Float.lean ====
section
/-! DEFINITION. IEEE 754 binary32 arithmetic, exactly (spec/40_numerics.md R80 to R90). Every finite binary32 value, and
every sum of two, is an integer multiple of 2^-149, so a value is held as the number of those units it has; the operands
are combined exactly and the exact result is rounded once, to nearest, ties to even. No primitive reads or writes state. -/

namespace Sys2Proof.Machine

/-- How many units of 2^-149 make 1.0. -/
def unitOne : Nat := 2 ^ 149

/-- The canonical NaN (R90). -/
def qNaN : Word := 0x7FC00000

/-- The sign, w[31] (R80). -/
def signBit (w : Word) : Bool := w.getLsbD 31

/-- The biased exponent, w[30:23] (R80). -/
def expField (w : Word) : Nat := (w.extractLsb' 23 8).toNat

/-- The trailing significand, w[22:0] (R80). -/
def sigField (w : Word) : Nat := (w.extractLsb' 0 23).toNat

/-- `is_finite` (R87). -/
def isFinite (w : Word) : Bool := expField w != 255

/-- `is_nan` (R87). -/
def isNaN (w : Word) : Bool := expField w == 255 && sigField w != 0

/-- The pattern is an infinity (R80). -/
def isInf (w : Word) : Bool := expField w == 255 && sigField w == 0

/-- The magnitude of a finite value in units of 2^-149: t for e = 0, (2^23 + t) × 2^(e−1) for e from 1 to 254 (R80). On an
infinity the same formula gives a number above that of every finite value, which is how R86 orders it. -/
def magnitude (w : Word) : Nat :=
  if expField w = 0 then sigField w else (2 ^ 23 + sigField w) * 2 ^ (expField w - 1)

/-- The value of a finite pattern in units of 2^-149, with its sign. -/
def scaled (w : Word) : Int := if signBit w then -(magnitude w : Int) else (magnitude w : Int)

/-- The value is a zero of either sign. -/
def isZero (w : Word) : Bool := magnitude w == 0

/-- The pattern of magnitude bits `m` under a sign. -/
def withSign (neg : Bool) (m : Nat) : Word := Word.ofNat ((if neg then 2 ^ 31 else 0) + m)

/-- The infinity of a sign (R80). -/
def infinity (neg : Bool) : Word := withSign neg 0x7F800000

/-- The zero of a sign (R80). -/
def zero (neg : Bool) : Word := withSign neg 0

/-- The integer nearest to `num / den`; of two equally near, the even one. -/
def roundHalfEven (num den : Nat) : Nat :=
  let q := num / den
  let r := num % den
  if 2 * r < den then q else if den < 2 * r then q + 1 else q + q % 2

/-- By how many powers of two a result of `num / den` units is spaced: 0 below 2^24 units (subnormals and the lowest
normal binade), then one more for each doubling. -/
def spacingLog (num den : Nat) : Nat := Nat.log2 (num / den) - 23

/-- The magnitude bits of `RN32` of `num / den` units (R81): the significand is rounded to an integer number of spacings,
and a significand that rounds up to 2^24 carries into the exponent. From 2^128 − 2^103 on it is the infinity. -/
def roundMagBits (num den : Nat) : Nat :=
  let k := spacingLog num den
  min (k * 2 ^ 23 + roundHalfEven num (den * 2 ^ k)) 0x7F800000

/-- `RN32` of the real number of magnitude `num / den` units of 2^-149 and the given sign, which a result of zero keeps
(R81, R82, R84, R85). -/
def roundMag (neg : Bool) (num den : Nat) : Word := withSign neg (roundMagBits num den)

/-- `RN32` of an integer number of units, +0 for zero (R81). -/
def roundInt (x : Int) : Word := roundMag (decide (x < 0)) x.natAbs 1

/-- `fadd` (R82). -/
def fadd (a b : Word) : Word :=
  if isNaN a || isNaN b then qNaN
  else if isInf a then (if isInf b && signBit a != signBit b then qNaN else a)
  else if isInf b then b
  else if scaled a + scaled b = 0 then zero (signBit a && signBit b)
  else roundInt (scaled a + scaled b)

/-- `fsub` (R83): the sign bit of a subtrahend that is no NaN is flipped. -/
def fsub (a b : Word) : Word :=
  if isNaN b then qNaN else fadd a (b ^^^ 0x80000000)

/-- `fmul` (R84). The product of two magnitudes counts units of 2^-298. -/
def fmul (a b : Word) : Word :=
  if isNaN a || isNaN b || (isZero a && isInf b) || (isInf a && isZero b) then qNaN
  else if isInf a || isInf b then infinity (signBit a != signBit b)
  else roundMag (signBit a != signBit b) (magnitude a * magnitude b) unitOne

/-- `fdiv` (R85). -/
def fdiv (a b : Word) : Word :=
  if isNaN a || isNaN b || (isZero a && isZero b) || (isInf a && isInf b) then qNaN
  else if isInf a || isZero b then infinity (signBit a != signBit b)
  else if isInf b then zero (signBit a != signBit b)
  else roundMag (signBit a != signBit b) (magnitude a * unitOne) (magnitude b)

/-- `fgt` (R86). -/
def fgt (a b : Word) : Bool := !isNaN a && !isNaN b && decide (scaled b < scaled a)

/-- `flt` (R86). -/
def flt (a b : Word) : Bool := fgt b a

/-- `fge` (R86). -/
def fge (a b : Word) : Bool := !isNaN a && !isNaN b && decide (scaled b ≤ scaled a)

/-- `i2f` (R88), exact up to 2^24. -/
def i2f (k : Nat) : Word := roundMag false (k * unitOne) 1

/-- `ffloor_u` (R89), of a finite value that is at least +0. -/
def ffloorU (a : Word) : Nat := magnitude a / unitOne

end Sys2Proof.Machine
end

