-- ==== Sys2Proof/Config.lean ====
section
/-! DEFINITION. What an implementation of the core fixes, and the values the spec leaves open: the three capacity
parameters (spec/00_scope.md R5), the unspecified contents of the memories after reset (spec/10_state.md R27,
spec/93_implementation_defined.md U3, U5, U20), and the draws of the note generator (spec/43_mixer.md R131, U4). -/

namespace Sys2Proof

/-- The three implementation parameters of R5. -/
structure Caps where
  /-- `MAXN`: the largest table size, in samples. -/
  maxN : Nat
  /-- `MAXV`: the largest voice count. -/
  maxV : Nat
  /-- `MAXF`: the frames per channel the output buffer holds. -/
  maxF : Nat
  deriving DecidableEq, Repr

/-- The constraints R5 puts on the parameters. -/
def Caps.legal (c : Caps) : Bool :=
  (128 ≤ c.maxN && c.maxN ≤ 16384) && (200 ≤ c.maxV && c.maxV ≤ 8192) && (1 ≤ c.maxF && c.maxF ≤ 16384)

/-- The reference values of R5. -/
def Caps.reference : Caps := { maxN := 4096, maxV := 1024, maxF := 4096 }

/-- The word memories inside the core (spec/20_memory.md R42): the table memory (R13), the two registers of the voice
file (R10), and the two channels of the output buffer (R16). -/
inductive Space where
  /-- `TABLE[i]`. -/
  | table
  /-- `PHASE[v]`. -/
  | phase
  /-- `PINC[v]`. -/
  | pinc
  /-- `OUT[0][f]`, the left channel. -/
  | outL
  /-- `OUT[1][f]`, the right channel. -/
  | outR
  deriving DecidableEq, Repr

/-- A FREE VALUE: the word a location of a memory holds after reset, before anything has written it. The spec calls it
"unspecified" (R27) and treats it as `any value` (U3, U5, U20). Log entry 4. -/
opaque Config.memAtReset : Space → Nat → Word

/-- A FREE VALUE: the k-th draw of NOTEGEN (R131, U4), before it is brought into the set NOTES. Log entry 5. -/
opaque Config.noteDraw : Nat → Nat

end Sys2Proof
end

