-- ==== Sys2Proof/Syntax.lean ====
section
/-! DEFINITION. The instructions of the core: the five command words of spec/30_encoding.md R63, one constructor for each
row of spec/opcode_table.json. -/

namespace Sys2Proof

/-- A command (R63). The operand of a format I command is its 16-bit unsigned immediate (R61), held as the number it is:
a voice index or a frame count. All other operands come from the operand registers (spec/10_state.md R17). -/
inductive Instr where
  /-- `INIT`, opcode 0x01, format Z: build the table and the voice set (spec/43_mixer.md R140). -/
  | init
  /-- `PREPARE`, opcode 0x02, format Z: rebuild the voice set (spec/43_mixer.md R141). -/
  | prepare
  /-- `SETFREQ v`, opcode 0x03, format I: set the phase increment of voice `v` (spec/42_oscillator.md R118). -/
  | setfreq (v : Nat)
  /-- `NEXT v`, opcode 0x04, format I: one sample of voice `v` (spec/42_oscillator.md R119). -/
  | next (v : Nat)
  /-- `RENDER k`, opcode 0x05, format I: mix a block of `k` frames (spec/43_mixer.md R142). -/
  | render (k : Nat)
  deriving DecidableEq, Repr

end Sys2Proof
end

