-- ==== Sys2Proof/WellFormed.lean ====
section
/-! DEFINITION. Which instructions have an encoding: the immediate of format I is an unsigned integer 0 to 65535
(spec/30_encoding.md R61). Nothing else of a command is restricted by its encoding: a voice index or a frame count that
is out of range for the state is an operand fault, not an illegal encoding (R64). -/

namespace Sys2Proof

/-- An immediate of format I fits its 16 bits (R60, R61). -/
def immOk (imm : Nat) : Bool := imm < 65536

/-- The instruction has an encoding. -/
def Instr.wellFormed : Instr → Bool
  | .init => true
  | .prepare => true
  | .setfreq v => immOk v
  | .next v => immOk v
  | .render k => immOk k

end Sys2Proof
end

