-- ==== Sys2Proof/Decode.lean ====
section
/-! DEFINITION. The decoder of command words (spec/30_encoding.md R60 to R65), total on every word and on any bytes, and
the encoder, written from the same two formats. -/

namespace Sys2Proof

/-- Why a word is `Illegal` (R64), by name; or why bytes hold no command word. -/
inductive Illegal where
  /-- Opcode 0x00, or 0x06 to 0xFF. -/
  | reservedOpcode
  /-- A format Z word with any of bits 31:8 set. -/
  | formatZBitsSet
  /-- A format I word with any of bits 31:24 set. -/
  | formatIBitsSet
  /-- Fewer than the four bytes of a command word: no transaction delivers this (R60), only a list of bytes can. -/
  | truncated
  deriving DecidableEq, Repr

/-- Bits 7:0, in both formats (R60). -/
def fieldOpcode (w : Word) : BitVec 8 := w.extractLsb' 0 8

/-- Bits 31:8, the must-be-zero field of format Z (R60). -/
def fieldZeroZ (w : Word) : BitVec 24 := w.extractLsb' 8 24

/-- Bits 31:24, the must-be-zero field of format I (R60). -/
def fieldZeroI (w : Word) : BitVec 8 := w.extractLsb' 24 8

/-- Bits 23:8, the immediate of format I, unsigned (R60, R61). -/
def fieldImm (w : Word) : Nat := (w.extractLsb' 8 16).toNat

/-- A format Z command, if its must-be-zero bits are zero. -/
def decodeZ (i : Instr) (w : Word) : Except Illegal Instr :=
  if fieldZeroZ w = 0 then .ok i else .error .formatZBitsSet

/-- A format I command, if its must-be-zero bits are zero. -/
def decodeI (i : Nat → Instr) (w : Word) : Except Illegal Instr :=
  if fieldZeroI w = 0 then .ok (i (fieldImm w)) else .error .formatIBitsSet

/-- R62, the whole decoder in every state of the core (R65). -/
def decode (w : Word) : Except Illegal Instr :=
  if fieldOpcode w = 0x01 then decodeZ .init w
  else if fieldOpcode w = 0x02 then decodeZ .prepare w
  else if fieldOpcode w = 0x03 then decodeI .setfreq w
  else if fieldOpcode w = 0x04 then decodeI .next w
  else if fieldOpcode w = 0x05 then decodeI .render w
  else .error .reservedOpcode

/-- A word of format Z: the opcode below 24 zero bits (R60). -/
def encodeZ (opcode : BitVec 8) : Word := (0 : BitVec 24) ++ opcode

/-- A word of format I: 8 zero bits, the immediate, the opcode (R60). -/
def encodeI (opcode : BitVec 8) (imm : Nat) : Word := (0 : BitVec 8) ++ BitVec.ofNat 16 imm ++ opcode

/-- The command word of a well-formed instruction (R63). -/
def encode : Instr → Word
  | .init => encodeZ 0x01
  | .prepare => encodeZ 0x02
  | .setfreq v => encodeI 0x03 v
  | .next v => encodeI 0x04 v
  | .render k => encodeI 0x05 k

/-- A word from its four bytes, the byte at the lowest address in bits 7:0 (spec/20_memory.md R45). -/
def wordOfBytes (b0 b1 b2 b3 : Byte) : Word := b3 ++ b2 ++ b1 ++ b0

/-- The decoder on bytes: one command word is four bytes, little-endian (R45, R60); the rest of the list is returned. -/
def decodeBytes : List Byte → Except Illegal (Instr × List Byte)
  | b0 :: b1 :: b2 :: b3 :: rest =>
    match decode (wordOfBytes b0 b1 b2 b3) with
    | .ok i => .ok (i, rest)
    | .error e => .error e
  | _ => .error .truncated

/-- The four bytes of a word as byte lanes carry it, lowest address first (R45). -/
def bytesOfWord (w : Word) : List Byte :=
  [w.extractLsb' 0 8, w.extractLsb' 8 8, w.extractLsb' 16 8, w.extractLsb' 24 8]

/-- The instruction the decoder reads from a row's word, whose bits spec/opcode_table.json numbers from the least
significant one: the bits at and above `nbits` are 0, and every command word is one 32-bit word (R60). -/
def decodeTableWord (nbits w : Nat) : Option Instr :=
  match decodeBytes (bytesOfWord (Word.ofNat (w % 2 ^ nbits))) with
  | .ok (i, _) => some i
  | .error _ => none

end Sys2Proof
end

