-- ==== Sys2Proof/Machine/State.lean ====
section
/-! DEFINITION. The state of the core (spec/10_state.md), of the one bus master that drives it (spec/20_memory.md R40), the
reasons a step can stop (there are none but an instruction not modelled), and the state after reset (R27). -/

namespace Sys2Proof.Machine

/-- One word memory: (index, word) pairs, indices strictly rising. An index that is not listed has not been written since
reset, so an entry is never equal to what an unlisted index holds. The smallest thing the spec addresses is a word
(spec/20_memory.md R42, R45), so the cells are words. Log entry 3. -/
abbrev Mem := List (Nat × Word)

/-- The four operand registers (R17). The engine holds a copy of them while a command runs (R24, spec/44_bus_access.md
R152). -/
structure Operands where
  /-- SAMPLE_RATE, binary32. -/
  sampleRate : Word
  /-- VOICE_COUNT, unsigned. -/
  voiceCount : Word
  /-- TABLE_SIZE, unsigned. -/
  tableSize : Word
  /-- FREQ, binary32. -/
  freq : Word
  deriving DecidableEq, Repr

/-- The engine state ENG (R24). -/
inductive Engine where
  /-- No command in progress. -/
  | idle
  /-- The command word has been accepted, with the operand values captured then, and has not completed. -/
  | run (cmd : Word) (captured : Operands)
  deriving DecidableEq, Repr

/-- A bus transaction (spec/20_memory.md R40). `bits` is its width: anything but 32 is refused (R43). -/
inductive Txn where
  /-- `BusRead(addr)`. -/
  | read (bits addr : Nat)
  /-- `BusWrite(addr, w)`. -/
  | write (bits addr : Nat) (w : Word)
  deriving DecidableEq, Repr

/-- The answer to a bus transaction (R40). -/
inductive Answer where
  /-- `OK`, to a write. -/
  | ok
  /-- `(OK, w)`, to a read. -/
  | okWord (w : Word)
  /-- `ERR`: refused (spec/60_exceptions.md R190). -/
  | err
  deriving DecidableEq, Repr

/-- What may happen next at the core (spec/60_exceptions.md R196): a bus transaction, or the engine's turn to step. -/
inductive Event where
  /-- The host's next transaction. -/
  | bus (t : Txn)
  /-- The engine takes its step before the host's next transaction. -/
  | engine
  deriving DecidableEq, Repr

/-- The state of the core, of the bus master, and the implementation's parameters. -/
structure State where
  /-- ENG (R24). STATUS.BUSY is 1 exactly when it is not idle (R24). Log entry 6. -/
  eng : Engine
  /-- STATUS.READY, bit 1 (R20). -/
  ready : Bool
  /-- STATUS.FAULT, bit 2 (R20). -/
  fault : Bool
  /-- STATUS.CODE, bits 15:8 (R20). -/
  code : BitVec 8
  /-- FAULTINFO (R21). -/
  faultInfo : Word
  /-- SAMPLE_RATE, VOICE_COUNT, TABLE_SIZE, FREQ (R17). -/
  regs : Operands
  /-- SAMPLE (R18). -/
  sample : Word
  /-- `n`, the table size in force (R14). -/
  n : Nat
  /-- `vc`, the voice count in force (R14). -/
  vc : Nat
  /-- LEVEL (R15). -/
  level : Word
  /-- TABLE (R13). -/
  table : Mem
  /-- PHASE (R10). -/
  phase : Mem
  /-- PINC (R10). -/
  pinc : Mem
  /-- OUT[0] (R16). -/
  outL : Mem
  /-- OUT[1] (R16). -/
  outR : Mem
  /-- The model's own: how many notes NOTEGEN has delivered, the argument of the next free draw. Log entry 5. -/
  draws : Nat
  /-- The implementation's parameters (spec/00_scope.md R5): no step changes them. Log entry 2. -/
  caps : Caps
  /-- The bus master's: what happens next, in order (spec/20_memory.md R41). Log entry 7. -/
  pending : List Event
  /-- The bus master's: the answers it has had, the latest first. Log entry 7. -/
  answers : List Answer
  deriving DecidableEq, Repr

/-- Why a step stops the MODEL. Nothing does: the spec answers every transaction and every command terminates
(spec/93_implementation_defined.md part 1: "No behaviour of this core is treated as `stuck`"), and a fault of the spec is
a next state in which STATUS.FAULT is 1 (spec/60_exceptions.md R186, R187). Closed, with no constructor; log entry 9. -/
inductive Fault where
  deriving DecidableEq, Repr

/-- Why a step is refused. -/
inductive Refusal where
  /-- The instruction has no meaning yet: raised by an arm of exec only, and no arm is left that raises it. Safe: the model
  stops where the hardware goes on. -/
  | notModelled (mnemonic : String)
  deriving DecidableEq, Repr

/-- The state after reset (R27, spec/70_reset_and_hazards.md R210), on an implementation with the reference parameters.
The memories list nothing: their contents are unspecified (log entry 4). No transaction waits (R211). -/
def State.reset : State where
  eng := .idle
  ready := false
  fault := false
  code := 0
  faultInfo := 0
  regs := { sampleRate := 0x00000000, voiceCount := 0x000000C8, tableSize := 0x00000080, freq := 0x00000000 }
  sample := 0
  n := 0
  vc := 0
  level := 0
  table := []
  phase := []
  pinc := []
  outL := []
  outR := []
  draws := 0
  caps := Caps.reference
  pending := []
  answers := []

end Sys2Proof.Machine
end

