-- ==== Sys2Proof/Machine/Flags.lean ====
section
/-! DEFINITION. The flags of the core: the STATUS word (spec/10_state.md R20) and the two level outputs that mirror it
(spec/60_exceptions.md R195). No arithmetic operation computes a flag (spec/40_numerics.md R91). -/

namespace Sys2Proof.Machine

/-- A command is in progress (R24). -/
def Engine.running : Engine → Bool
  | .idle => false
  | .run _ _ => true

/-- STATUS.BUSY, bit 0 (R20, R24). -/
def State.busy (s : State) : Bool := s.eng.running

/-- The STATUS word (R20): CODE in 15:8, FAULT, READY and BUSY in 2, 1 and 0; every other bit reads 0. -/
def State.status (s : State) : Word :=
  (0 : BitVec 16) ++ s.code ++ (0 : BitVec 5) ++ BitVec.ofBool s.fault ++ BitVec.ofBool s.ready ++ BitVec.ofBool s.busy

/-- The level output `busy` (R195). -/
def State.busyOutput (s : State) : Bool := s.status.getLsbD 0

/-- The level output `fault` (R195). -/
def State.faultOutput (s : State) : Bool := s.status.getLsbD 2

end Sys2Proof.Machine
end

