-- ==== Sys2Proof/Machine/Operands.lean ====
section
/-! DEFINITION. The operands of commands: the operand registers as captured at acceptance (spec/44_bus_access.md R152), and
the words that fault entry records about them (spec/60_exceptions.md R180). The immediate of a command is in the
instruction (spec/30_encoding.md R61). -/

namespace Sys2Proof.Machine

/-- The operand values a command reads: the copy taken when it was accepted (R152). An idle engine holds no copy, and the
registers themselves stand for it, which R152 says cannot be told apart. -/
def State.operands (s : State) : Operands :=
  match s.eng with
  | .run _ captured => captured
  | .idle => s.regs

/-- INFO of a fault about a command word: the word itself (R180, E_OPCODE and E_NOTREADY). -/
def infoCommand (i : Instr) : Word := encode i

/-- INFO of a fault about an immediate: `zext_32` of it (R180, E_VOICESEL and E_FRAMES). -/
def infoImm (imm : Nat) : Word := Word.ofNat imm

/-- INFO of E_PHASE: bits 31:16 the frame index f, bits 15:0 the voice index v (R180). -/
def infoPhase (f v : Nat) : Word := BitVec.ofNat 16 f ++ BitVec.ofNat 16 v

end Sys2Proof.Machine
end

