-- ==== Sys2Proof/Machine/Ops.lean ====
section
/-! DEFINITION. The named operations over the memories and registers, the acceptance and completion of a command
(spec/44_bus_access.md R151), and fault entry (spec/60_exceptions.md R180, R186). There is no return from a fault (R187). -/

namespace Sys2Proof.Machine

/-- The word written at an index since reset, if any. -/
def Mem.get : Mem → Nat → Option Word
  | [], _ => none
  | (k, w) :: rest, i => if k = i then some w else if i < k then none else Mem.get rest i

/-- A memory with one word written; the indices stay strictly rising. -/
def Mem.set : Mem → Nat → Word → Mem
  | [], i, w => [(i, w)]
  | (k, x) :: rest, i, w =>
    if k = i then (i, w) :: rest
    else if i < k then (i, w) :: (k, x) :: rest
    else (k, x) :: Mem.set rest i w

/-- The pairs of a run of words, from an index on. -/
def Mem.numbered : Nat → List Word → Mem
  | _, [] => []
  | i, w :: ws => (i, w) :: Mem.numbered (i + 1) ws

/-- A memory with its first words written, from index 0 on, one word each; the words above stay as they were. -/
def Mem.fill (ws : List Word) (m : Mem) : Mem := Mem.numbered 0 ws ++ m.filter (fun c => decide (ws.length ≤ c.1))

/-- The canonical form: the indices rise strictly, all are at least `low` and below `bound`. -/
def Mem.wfFrom (bound : Nat) : Nat → Mem → Bool
  | _, [] => true
  | low, (k, _) :: rest => low ≤ k && k < bound && Mem.wfFrom bound (k + 1) rest

/-- The canonical form of a memory that has `bound` locations. -/
def Mem.wf (bound : Nat) (m : Mem) : Bool := Mem.wfFrom bound 0 m

/-- The memory of a space. -/
def State.mem (s : State) : Space → Mem
  | .table => s.table
  | .phase => s.phase
  | .pinc => s.pinc
  | .outL => s.outL
  | .outR => s.outR

/-- The state with the memory of a space replaced. -/
def State.setMem (s : State) (sp : Space) (m : Mem) : State :=
  match sp with
  | .table => { s with table := m }
  | .phase => { s with phase := m }
  | .pinc => { s with pinc := m }
  | .outL => { s with outL := m }
  | .outR => { s with outR := m }

/-- The word at a location: what was written last, or the unspecified word it holds after reset (spec/10_state.md R27). -/
def State.read (s : State) (sp : Space) (i : Nat) : Word := ((s.mem sp).get i).getD (Config.memAtReset sp i)

/-- A word written to a location. -/
def State.write (s : State) (sp : Space) (i : Nat) (w : Word) : State := s.setMem sp ((s.mem sp).set i w)

/-- How many locations a space has (spec/00_scope.md R5, spec/10_state.md R10, R13, R16). -/
def spaceSize (c : Caps) : Space → Nat
  | .table => c.maxN
  | .phase => c.maxV
  | .pinc => c.maxV
  | .outL => c.maxF
  | .outR => c.maxF

/-- The causes of a fault (R180). -/
inductive Cause where
  /-- 0x01, an illegal command word. -/
  | opcode
  /-- 0x02, a command that needs the table or the voice set before a successful INIT. -/
  | notReady
  /-- 0x03, TABLE_SIZE out of range. -/
  | tableSize
  /-- 0x04, VOICE_COUNT out of range. -/
  | voiceCount
  /-- 0x05, an immediate voice index that is not of the voice set. -/
  | voiceSel
  /-- 0x06, a frame count above MAXF. -/
  | frames
  /-- 0x07, a phase outside the lookup domain. -/
  | phase
  deriving DecidableEq, Repr

/-- CODE of a cause (R180). -/
def Cause.code : Cause → BitVec 8
  | .opcode => 0x01
  | .notReady => 0x02
  | .tableSize => 0x03
  | .voiceCount => 0x04
  | .voiceSel => 0x05
  | .frames => 0x06
  | .phase => 0x07

/-- Fault entry, `raise Fault(code, info)` (R186): CODE, FAULTINFO and FAULT are written and the engine is idle again, so
that BUSY is 0. Nothing else changes, READY included. -/
def State.raise (s : State) (c : Cause) (info : Word) : State :=
  { s with code := c.code, faultInfo := info, fault := true, eng := .idle }

/-- Completion of a command without fault (R151). -/
def State.complete (s : State) : State := { s with eng := .idle }

/-- Acceptance of a command word (R151): the operands are captured, the engine runs it, BUSY is 1. The write stores nothing
in CMD. -/
def State.accept (s : State) (w : Word) : State := { s with eng := .run w s.regs }

end Sys2Proof.Machine
end

