-- ==== Sys2Proof/Machine/Bus.lean ====
section
/-! DEFINITION. The two bus transactions (spec/44_bus_access.md R150 to R165): the loads and stores of the core, and the
acceptance of command words. Both are total functions of address, data and state. -/

namespace Sys2Proof.Machine

/-- What stands at an address (spec/10_state.md R23, spec/20_memory.md R44). -/
inductive Place where
  /-- CMD, write-only. -/
  | cmd
  /-- A read-only register. -/
  | status
  /-- FAULTINFO, read-only. -/
  | faultInfo
  /-- SAMPLE_RATE. -/
  | sampleRate
  /-- VOICE_COUNT. -/
  | voiceCount
  /-- TABLE_SIZE. -/
  | tableSize
  /-- FREQ. -/
  | freq
  /-- SAMPLE, read-only. -/
  | sample
  /-- LEVEL, read-only. -/
  | level
  /-- CFG_N, read-only. -/
  | cfgN
  /-- CFG_VC, read-only. -/
  | cfgVc
  /-- An element of a window. -/
  | window (sp : Space) (i : Nat)
  /-- Reserved: nothing. -/
  | reserved
  deriving DecidableEq, Repr

/-- The place of an aligned address of the address space (R160 lines 3 to 17, R161 to R163). -/
def place (addr : Nat) : Place :=
  if addr = 0x00000 then .cmd
  else if addr = 0x00004 then .status
  else if addr = 0x00008 then .faultInfo
  else if addr = 0x0000C then .sampleRate
  else if addr = 0x00010 then .voiceCount
  else if addr = 0x00014 then .tableSize
  else if addr = 0x00018 then .freq
  else if addr = 0x0001C then .sample
  else if addr = 0x00020 then .level
  else if addr = 0x00024 then .cfgN
  else if addr = 0x00028 then .cfgVc
  else if addr < 0x10000 then .reserved
  else if addr < 0x20000 then .window .table ((addr - 0x10000) / 4)
  else if addr < 0x30000 then
    .window (if (addr - 0x20000) % 8 = 0 then .phase else .pinc) ((addr - 0x20000) / 8)
  else if addr < 0x40000 then .reserved
  else if addr < 0x50000 then .window .outL ((addr - 0x40000) / 4)
  else if addr < 0x60000 then .window .outR ((addr - 0x50000) / 4)
  else .reserved

/-- Line 1 of R160 and R164: the address is a multiple of 4 and inside the address space. -/
def addrOk (addr : Nat) : Bool := addr % 4 = 0 && addr ≤ 0x7FFFF

/-- Whether an element of a window is there for the host (R161, R162, R163): the table and the voice set once READY is 1 and
below the current bound, the output buffer always and below MAXF. -/
def State.visible (s : State) (sp : Space) (i : Nat) : Bool :=
  match sp with
  | .table => s.ready && decide (i < s.n)
  | .phase => s.ready && decide (i < s.vc)
  | .pinc => s.ready && decide (i < s.vc)
  | .outL => decide (i < s.caps.maxF)
  | .outR => decide (i < s.caps.maxF)

/-- `BusRead(addr)` (R160). -/
def busRead (s : State) (addr : Nat) : Answer :=
  if !addrOk addr then .err
  else if s.busy && addr != 0x00004 then .err
  else
    match place addr with
    | .cmd => .err
    | .status => .okWord s.status
    | .faultInfo => .okWord s.faultInfo
    | .sampleRate => .okWord s.regs.sampleRate
    | .voiceCount => .okWord s.regs.voiceCount
    | .tableSize => .okWord s.regs.tableSize
    | .freq => .okWord s.regs.freq
    | .sample => .okWord s.sample
    | .level => .okWord s.level
    | .cfgN => .okWord (Word.ofNat s.n)
    | .cfgVc => .okWord (Word.ofNat s.vc)
    | .window sp i => if s.visible sp i then .okWord (s.read sp i) else .err
    | .reserved => .err

/-- A window the host may write (R161, R162, R163): every one but the table's. -/
def hostWrites : Space → Bool
  | .table => false
  | .phase => true
  | .pinc => true
  | .outL => true
  | .outR => true

/-- `BusWrite(addr, w)` (R164): the state after it and the answer. A refused write leaves the state as it is. -/
def busWrite (s : State) (addr : Nat) (w : Word) : State × Answer :=
  if !addrOk addr then (s, .err)
  else if s.busy then (s, .err)
  else if s.fault then (s, .err)
  else
    match place addr with
    | .cmd => (s.accept w, .ok)
    | .sampleRate => ({ s with regs := { s.regs with sampleRate := w } }, .ok)
    | .voiceCount => ({ s with regs := { s.regs with voiceCount := w } }, .ok)
    | .tableSize => ({ s with regs := { s.regs with tableSize := w } }, .ok)
    | .freq => ({ s with regs := { s.regs with freq := w } }, .ok)
    | .status => (s, .err)
    | .faultInfo => (s, .err)
    | .sample => (s, .err)
    | .level => (s, .err)
    | .cfgN => (s, .err)
    | .cfgVc => (s, .err)
    | .window sp i => if hostWrites sp && s.visible sp i then (s.write sp i w, .ok) else (s, .err)
    | .reserved => (s, .err)

/-- One transaction: anything but 32 bits wide is refused (spec/20_memory.md R43). -/
def transact (s : State) : Txn → State × Answer
  | .read bits addr => if bits = 32 then (s, busRead s addr) else (s, .err)
  | .write bits addr w => if bits = 32 then busWrite s addr w else (s, .err)

end Sys2Proof.Machine
end

