-- ==== Sys2Proof/Machine/Elementary.lean ====
section
/-! DEFINITION. The two real functions of the spec, evaluated and rounded once: the sine of a table entry
(spec/41_wavetable.md R100, R101) and the tuning formula (spec/43_mixer.md R132). Each is a Taylor polynomial over exact
rationals, at an argument made with 128 binary places of π or of ln 2; what is left out is far smaller than the distance
of any result from a rounding boundary. Log entries 10 and 11. -/

namespace Sys2Proof.Machine

/-- π in units of 2^-128, rounded down. -/
def piNum : Nat := 0x3243F6A8885A308D313198A2E03707344

/-- ln 2 in units of 2^-128, rounded down. -/
def ln2Num : Nat := 0xB17217F7D1CF79ABC9E3B39803F2F6AF

/-- The unit of `piNum` and `ln2Num`. -/
def constUnit : Nat := 2 ^ 128

/-- A tail of the sine's Taylor series, from the inside out, as a numerator and a denominator: with x = a / b, the j-th
factor put around the innermost 1 is 1 − x² / (2i(2i + 1)) × (what is inside), where i counts down from `last`. -/
def sineTail (a b last : Nat) : Nat → Nat × Nat
  | 0 => (1, 1)
  | j + 1 =>
    let t := sineTail a b last j
    let c := (2 * (last - j)) * (2 * (last - j) + 1)
    (c * b ^ 2 * t.2 - a ^ 2 * t.1, c * b ^ 2 * t.2)

/-- How many factors `sineTail` has: the polynomial ends at x^33 / 33!. -/
def sineSteps : Nat := 16

/-- sin(π × p / m), for 2p ≤ m, rounded to binary32 under a sign. -/
def sineWord (neg : Bool) (p m : Nat) : Word :=
  let a := piNum * p
  let b := constUnit * m
  let t := sineTail a b sineSteps sineSteps
  roundMag neg (a * t.1 * unitOne) (b * t.2)

/-- Entry i of a table of N samples: `RN32(sin(2 × π × i / (N − 1)))` (R100), with the three exact zeros (R101). The
argument is brought into the first quarter of the cycle exactly, by sin(π − x) = sin x and sin(2π − x) = −sin x. -/
def tableEntry (N i : Nat) : Word :=
  let m := N - 1
  let quarter := fun (neg : Bool) (i : Nat) => if 4 * i ≤ m then sineWord neg (2 * i) m else sineWord neg (m - 2 * i) m
  if i = 0 || i = m || 2 * i = m then 0
  else if 2 * i < m then quarter false i
  else quarter true (m - i)

/-- The exponential's Taylor series, from the inside out, as a numerator and a denominator: with x = a / b, the j-th factor
put around the innermost 1 is 1 + x / i × (what is inside), where i counts down from `last`. -/
def expTail (a b last : Nat) : Nat → Nat × Nat
  | 0 => (1, 1)
  | j + 1 =>
    let t := expTail a b last j
    ((last - j) * b * t.2 + a * t.1, (last - j) * b * t.2)

/-- How many factors `expTail` has: the polynomial ends at x^28 / 28!. -/
def expSteps : Nat := 28

/-- The note of a binary32 pattern in units of 2^-18, exact for every note of NOTES (R131), which are multiples of it. -/
def noteUnits (note : Word) : Nat := magnitude note / 2 ^ 131

/-- `Tune(note)` (R132), for a note of at least 45: 440 × 2^((note − 69)/12) is 110 × 2^j × 2^(r / (12 × 2^18)), where
(note − 45) × 2^18 = j × 12 × 2^18 + r. -/
def tune (note : Word) : Word :=
  let octave := 12 * 2 ^ 18
  let y := noteUnits note - 45 * 2 ^ 18
  let t := expTail (ln2Num * (y % octave)) (constUnit * octave) expSteps expSteps
  roundMag false (110 * 2 ^ (y / octave) * t.1 * unitOne) t.2

end Sys2Proof.Machine
end

