-- ==== Sys2Proof/Machine/WaveTable.lean ====
section
/-! DEFINITION. The wave table: its construction and the lookup of two samples (spec/41_wavetable.md). -/

namespace Sys2Proof.Machine

/-- The words `TableBuild(N)` writes (R100). -/
def tableWords (N : Nat) : List Word := (List.range N).map (tableEntry N)

/-- `TableBuild(N)` (R100): TABLE[0..N−1] are written, the entries above stay as they were. -/
def tableBuild (s : State) (N : Nat) : State := s.setMem .table (Mem.fill (tableWords N) s.table)

/-- `Lookup(i0)` (R103), for i0 at most n. -/
def lookup (s : State) (i0 : Nat) : Word × Word :=
  if i0 + 2 ≤ s.n then (s.read .table i0, s.read .table (i0 + 1))
  else if i0 + 1 = s.n then (s.read .table (s.n - 1), s.read .table 0)
  else (s.read .table 0, s.read .table 1)

end Sys2Proof.Machine
end

