-- ==== Sys2Proof/Machine/Oscillator.lean ====
section
/-! DEFINITION. One voice: sample production and frequency setting, and the commands SETFREQ and NEXT
(spec/42_oscillator.md). -/

namespace Sys2Proof.Machine

/-- `InDomain(p)` for a table of n samples (R111). -/
def inDomain (n : Nat) (p : Word) : Bool := isFinite p && fge p 0 && flt p (i2f (n + 1))

/-- Steps 3 and 4 of a sample (R112): three roundings after the exact subtraction that forms frac. -/
def interpolate (p : Word) (i0 : Nat) (a0 a1 : Word) : Word :=
  let frac := fsub p (i2f i0)
  let d := fsub a1 a0
  let m := fmul frac d
  fadd a0 m

/-- Steps 5 and 6 of a sample (R113): one addition, and one subtraction of n when the sum is above n. -/
def advance (n : Nat) (p pinc : Word) : Word :=
  let q := fadd p pinc
  if fgt q (i2f n) then fsub q (i2f n) else q

/-- `NextSample(v)` (R110): the sample, and the state with PHASE[v] advanced; nothing where E_PHASE is raised, which is
before any write. -/
def nextSample (s : State) (v : Nat) : Option (Word × State) :=
  let p := s.read .phase v
  if inDomain s.n p then
    let i0 := ffloorU p
    let a := lookup s i0
    some (interpolate p i0 a.1 a.2, s.write .phase v (advance s.n p (s.read .pinc v)))
  else none

/-- The phase increment of a frequency (R116), multiplied first and then divided (spec/40_numerics.md R92). -/
def increment (n : Nat) (frequency sampleRate : Word) : Word := fdiv (fmul frequency (i2f n)) sampleRate

/-- `SetFrequency(v, frequency, sampleRate)` (R116): PINC[v] is written, PHASE[v] is not touched. -/
def setFrequency (s : State) (v : Nat) (frequency sampleRate : Word) : State :=
  s.write .pinc v (increment s.n frequency sampleRate)

/-- SETFREQ v (R118), with the priority of spec/60_exceptions.md R182. -/
def execSetfreq (v : Nat) (s : State) : Host.Outcome State Fault Refusal :=
  if !s.ready then .next (s.raise .notReady (infoCommand (.setfreq v)))
  else if s.vc ≤ v then .next (s.raise .voiceSel (infoImm v))
  else .next (setFrequency s v s.operands.freq s.operands.sampleRate).complete

/-- NEXT v (R119), with the priority of spec/60_exceptions.md R182. -/
def execNext (v : Nat) (s : State) : Host.Outcome State Fault Refusal :=
  if !s.ready then .next (s.raise .notReady (infoCommand (.next v)))
  else if s.vc ≤ v then .next (s.raise .voiceSel (infoImm v))
  else
    match nextSample s v with
    | none => .next (s.raise .phase (infoPhase 0 v))
    | some (w, t) => .next { t with sample := w }.complete

end Sys2Proof.Machine
end

