-- ==== Sys2Proof/Machine/Mixer.lean ====
section
/-! DEFINITION. The voice mixer: preparation of the voice set and rendering of a block, and the commands INIT, PREPARE and
RENDER (spec/43_mixer.md). -/

namespace Sys2Proof.Machine

/-- The k-th note NOTEGEN delivers, a free draw from NOTES (R131): the binary32 patterns from 48.0 up to, and without,
84.0, which are consecutive. Every member of NOTES is the note of some draw. Log entry 5. -/
def note (k : Nat) : Word := Word.ofNat (0x42400000 + Config.noteDraw k % 0x680000)

/-- The headroom constant 0.25 (spec/00_scope.md R6). -/
def headroom : Word := 0x3E800000

/-- The mix level of a voice count (R134). -/
def mixLevel (count : Nat) : Word := fdiv headroom (i2f count)

/-- The increments of a new voice set: for each voice a note of its own, tuned, at the sample rate (R130, R116). -/
def freshIncrements (n draws : Nat) (sampleRate : Word) (count : Nat) : List Word :=
  (List.range count).map (fun v => increment n (tune (note (draws + v))) sampleRate)

/-- `Prepare(sampleRate, count)` (R130): the voice set is replaced, all phases +0, and the mix level set. The registers of
voices at and above `count` stay as they were (R12). -/
def prepare (s : State) (sampleRate : Word) (count : Nat) : State :=
  { s with
    vc := count
    phase := Mem.fill (List.replicate count 0) s.phase
    pinc := Mem.fill (freshIncrements s.n s.draws sampleRate count) s.pinc
    level := mixLevel count
    draws := s.draws + count }

/-- VOICE_COUNT is out of range (R140, R141, R143): zero, or above MAXV. -/
def badVoiceCount (s : State) (count : Nat) : Bool := count = 0 || s.caps.maxV < count

/-- TABLE_SIZE is out of range (R140): below 2, or above MAXN. -/
def badTableSize (s : State) (size : Nat) : Bool := size < 2 || s.caps.maxN < size

/-- INIT (R140), with the priority of spec/60_exceptions.md R182. -/
def execInit (s : State) : Host.Outcome State Fault Refusal :=
  if badTableSize s s.operands.tableSize.toNat then .next (s.raise .tableSize s.operands.tableSize)
  else if badVoiceCount s s.operands.voiceCount.toNat then .next (s.raise .voiceCount s.operands.voiceCount)
  else
    let N := s.operands.tableSize.toNat
    let built := tableBuild { s with n := N } N
    .next { prepare built s.operands.sampleRate s.operands.voiceCount.toNat with ready := true }.complete

/-- PREPARE (R141), with the priority of spec/60_exceptions.md R182. -/
def execPrepare (s : State) : Host.Outcome State Fault Refusal :=
  if !s.ready then .next (s.raise .notReady (infoCommand .prepare))
  else if badVoiceCount s s.operands.voiceCount.toNat then .next (s.raise .voiceCount s.operands.voiceCount)
  else .next (prepare s s.operands.sampleRate s.operands.voiceCount.toNat).complete

/-- One contribution `m` to frame `f`, added into channel 0 and then channel 1 (R135, R136). -/
def mixInto (s : State) (f : Nat) (m : Word) : State :=
  let s0 := s.write .outL f (fadd (s.read .outL f) m)
  s0.write .outR f (fadd (s0.read .outR f) m)

/-- What became of a block, or of a part of it: all done, or stopped by E_PHASE at frame `f` and voice `v`, with all that
was done before (R139). -/
inductive Block where
  /-- Every sample of it was mixed. -/
  | done (s : State)
  /-- The phase of voice `v` was outside the lookup domain at frame `f`. -/
  | stopped (s : State) (f v : Nat)
  deriving DecidableEq, Repr

/-- The inner loop of `RenderBlock` (R135): so many voices of frame `f`, from voice `v` on. -/
def renderVoices (f : Nat) : Nat → Nat → State → Block
  | 0, _, s => .done s
  | count + 1, v, s =>
    match nextSample s v with
    | none => .stopped s f v
    | some (w, t) => renderVoices f count (v + 1) (mixInto t f (fmul w t.level))

/-- The outer loop of `RenderBlock` (R135): so many frames, from frame `f` on. -/
def renderFrames : Nat → Nat → State → Block
  | 0, _, s => .done s
  | count + 1, f, s =>
    match renderVoices f s.vc 0 s with
    | .done t => renderFrames count (f + 1) t
    | .stopped t g v => .stopped t g v

/-- `RenderBlock(k)` (R135). -/
def renderBlock (s : State) (k : Nat) : Block := renderFrames k 0 s

/-- RENDER k (R142), with the priority of spec/60_exceptions.md R182. -/
def execRender (k : Nat) (s : State) : Host.Outcome State Fault Refusal :=
  if !s.ready then .next (s.raise .notReady (infoCommand (.render k)))
  else if s.caps.maxF < k then .next (s.raise .frames (infoImm k))
  else
    match renderBlock s k with
    | .done t => .next t.complete
    | .stopped t f v => .next (t.raise .phase (infoPhase f v))

end Sys2Proof.Machine
end

