-- ==== Sys2Proof/Machine/Dispatch.lean ====
section
/-! DEFINITION. The meaning of each command, one arm for each constructor of Instr. -/

namespace Sys2Proof.Machine

/-- What the engine does with a command it runs. -/
def exec (i : Instr) (s : State) : Host.Outcome State Fault Refusal :=
  match i with
  | .init => Sys2Proof.Machine.execInit s
  | .prepare => Sys2Proof.Machine.execPrepare s
  | .setfreq v => Sys2Proof.Machine.execSetfreq v s
  | .next v => Sys2Proof.Machine.execNext v s
  | .render k => Sys2Proof.Machine.execRender k s

end Sys2Proof.Machine
end

