-- ==== Sys2Proof/Machine/Engine.lean ====
section
/-! DEFINITION. The two agents' turns: the engine's (spec/10_state.md R24, spec/44_bus_access.md R151) and the host's
(spec/20_memory.md R40, R41). -/

namespace Sys2Proof.Machine

/-- The engine's turn: an idle engine waits (spec/60_exceptions.md R205); a command word it has accepted is decoded and
run, an illegal one raises E_OPCODE (R151, spec/30_encoding.md R64). -/
def engineTurn (s : State) : Host.Outcome State Fault Refusal :=
  match s.eng with
  | .idle => .next s
  | .run cmd _ =>
    match decode cmd with
    | .ok i => exec i s
    | .error _ => .next (s.raise .opcode cmd)

/-- The host's turn: one transaction is answered. The host has its answer, and waits with `rest`. -/
def hostTurn (s : State) (t : Txn) (rest : List Event) : State :=
  let r := transact s t
  { r.1 with pending := rest, answers := r.2 :: s.answers }

/-- One step, of whichever agent is next; when nothing is pending the engine is. -/
def turn (s : State) : Host.Outcome State Fault Refusal :=
  match s.pending with
  | [] => engineTurn s
  | .engine :: rest => engineTurn { s with pending := rest }
  | .bus t :: rest => .next (hostTurn s t rest)

end Sys2Proof.Machine
end

