-- ==== Sys2Proof/Machine/Step.lean ====
section
/-! DEFINITION. The step of the machine, and the placing of a command word where the next step runs it. -/

namespace Sys2Proof.Machine

/-- One step: a bus transaction or an engine step (spec/60_exceptions.md R196). -/
def step (s : State) : Host.Outcome State Fault Refusal := turn s

/-- The state in which the command word has just been accepted (spec/44_bus_access.md R151) and the engine's turn is next,
so that the very next step runs it. The bits at and above `nbits` are 0. Log entry 8. -/
def State.withFetchWord (s : State) (nbits w : Nat) : State :=
  { s.accept (Word.ofNat (w % 2 ^ nbits)) with pending := .engine :: s.pending }

end Sys2Proof.Machine
end

