-- ==== Sys2Proof/Safety.lean ====
section
/-! DEFINITION. What a safe run of the core is, the invariant of the machine, and the words the statements are written in:
values of binary32 patterns, the notes, and what a voice and a frame hold as formulas over the state, without any loop. -/

namespace Sys2Proof.Machine

/-- No fault has been entered (spec/60_exceptions.md R187: a state with FAULT = 1 refutes any claim that a program ran
correctly). -/
def State.safe (s : State) : Bool := !s.fault

/-- A run of up to `k` steps from `s` reaches no faulted state. -/
def SafeRun (k : Nat) (s : State) : Prop := ∀ j ≤ k, ∀ t, core.run j s = .next t → t.safe = true

/-- The two states differ at most in what the bus master holds: its pending events and its answers. -/
def SameCore (s t : State) : Prop := t = { s with pending := t.pending, answers := t.answers }

/-- The engine has the next turn, and `rest` is what the host has pending after it. -/
def EngineNext (s : State) (rest : List Event) : Prop := (s.pending = [] ∧ rest = []) ∨ s.pending = .engine :: rest

/-- The engine has the next turn and runs this accepted command in it. -/
def EngineRuns (s : State) (i : Instr) : Prop := (∃ rest, EngineNext s rest) ∧ ∃ ops, s.eng = .run (encode i) ops

/-- The host's next transaction is a write to this address, in a core that is neither busy nor faulted. -/
def HostWrites (s : State) (addr : Nat) (w : Word) : Prop :=
  (∃ rest, s.pending = .bus (.write 32 addr w) :: rest) ∧ s.busy = false ∧ s.fault = false

/-- The state after fault entry with this code and information (spec/60_exceptions.md R186). -/
def Faulted (s : State) (code : BitVec 8) (info : Word) : State :=
  { s with code := code, faultInfo := info, fault := true, eng := .idle }

/-- The registers that a command leaves alone unless its rule says otherwise: STATUS but for BUSY, FAULTINFO, the operand
registers, and what is no part of the core. -/
def SameStatusAndHost (s t : State) : Prop :=
  t.fault = s.fault ∧ t.code = s.code ∧ t.faultInfo = s.faultInfo ∧ t.regs = s.regs ∧ t.caps = s.caps ∧
  t.pending = s.pending ∧ t.answers = s.answers

/-- The parameters meet the constraints of spec/00_scope.md R5. -/
def CapsLegal (s : State) : Prop := s.caps.legal = true

/-- Every memory is in canonical form and inside its capacity. -/
def MemoriesCanonical (s : State) : Prop := ∀ sp : Space, Mem.wf (spaceSize s.caps sp) (s.mem sp) = true

/-- CODE and FAULTINFO are 0 while FAULT is 0 (spec/10_state.md R20, R21), and a faulted core is idle with a code of
spec/60_exceptions.md R180. -/
def FaultRecordConsistent (s : State) : Prop :=
  (s.fault = false → s.code = 0 ∧ s.faultInfo = 0) ∧
  (s.fault = true → s.eng = .idle ∧ 1 ≤ s.code.toNat ∧ s.code.toNat ≤ 7)

/-- The operands captured by a running command are what the operand registers hold (spec/44_bus_access.md R152). -/
def CaptureCurrent (s : State) : Prop := ∀ cmd captured, s.eng = .run cmd captured → captured = s.regs

/-- The configuration in force: nothing before the first INIT (spec/10_state.md R14, R27), and spec/10_state.md R28 once
READY is 1. -/
def ConfigInForce (s : State) : Prop :=
  (s.ready = false → s.n = 0 ∧ s.vc = 0 ∧ s.level = 0 ∧ s.sample = 0) ∧
  (s.ready = true →
    2 ≤ s.n ∧ s.n ≤ s.caps.maxN ∧ 1 ≤ s.vc ∧ s.vc ≤ s.caps.maxV ∧
    (∀ i, i < s.n → s.read .table i = tableEntry s.n i) ∧ s.level = fdiv 0x3E800000 (i2f s.vc))

/-- The invariant of the machine. -/
def Inv (s : State) : Prop :=
  CapsLegal s ∧ MemoriesCanonical s ∧ FaultRecordConsistent s ∧ CaptureCurrent s ∧ ConfigInForce s

/-- The word is `RN32` of the real number `num / den`, in units of 2^-149 (spec/40_numerics.md R81): the infinity of its sign
from 2^128 − 2^103 on, and below that a finite value nearer than which there is none, with an even trailing significand
where another is as near. -/
def IsRounded (num : Int) (den : Nat) (w : Word) : Prop :=
  if (2 ^ 277 - 2 ^ 252) * den ≤ num.natAbs then w = infinity (decide (num < 0))
  else
    isFinite w = true ∧
    ∀ u : Word, isFinite u = true →
      (num - scaled w * den).natAbs ≤ (num - scaled u * den).natAbs ∧
      ((num - scaled w * den).natAbs = (num - scaled u * den).natAbs → scaled u ≠ scaled w → sigField w % 2 = 0)

/-- How far apart the binary32 values of a finite word's exponent are, in units of 2^-149 (spec/40_numerics.md R80). -/
def spacing (w : Word) : Nat := 2 ^ (expField w - 1)

/-- A word of NOTES (spec/43_mixer.md R131). -/
def IsNote (x : Word) : Prop := fge x 0x42400000 = true ∧ flt x 0x42A80000 = true

/-- A finite word whose value is at least 0 and at most `n`. -/
def InRange (n : Nat) (x : Word) : Prop := isFinite x = true ∧ fge x 0 = true ∧ fge (i2f n) x = true

/-- The phase of voice `v` after `f` samples, as a formula over the state before them (spec/42_oscillator.md R113). -/
def phaseAt (s : State) (v : Nat) : Nat → Word
  | 0 => s.read .phase v
  | f + 1 => advance s.n (phaseAt s v f) (s.read .pinc v)

/-- The sample a voice makes at a phase, from the table of the state (spec/42_oscillator.md R110, R112;
spec/41_wavetable.md R103). -/
def sampleAt (s : State) (p : Word) : Word :=
  interpolate p (ffloorU p) (lookup s (ffloorU p)).1 (lookup s (ffloorU p)).2

/-- A word of the output buffer after the contributions of the voices below `count` to frame `f`, in voice order, each
scaled and then added, each addition rounded (spec/43_mixer.md R136). -/
def mixedWord (s : State) (f : Nat) (before : Word) : Nat → Word
  | 0 => before
  | count + 1 => fadd (mixedWord s f before count) (fmul (sampleAt s (phaseAt s count f)) s.level)

/-- Every phase of the voice set stays inside the lookup domain for the first `k` frames. -/
def BlockInDomain (s : State) (k : Nat) : Prop :=
  ∀ f, f < k → ∀ v, v < s.vc → inDomain s.n (phaseAt s v f) = true

end Sys2Proof.Machine
end

