-- ==== Sys2Proof/Certificates/Slice0/Obligations.lean ====
section
/-! DEFINITION. The statements about the model. Each says in its docstring which rule of the spec it is about. -/

open Sys2Proof Sys2Proof.Machine

/-! ### Encoding (spec/30_encoding.md) -/

/-- R60 to R63: no bit of an encoding is dropped. Every command, with every operand its encoding admits, is read back. -/
def Obligations.DecodeInvertsEncode : Prop :=
  ∀ i : Instr, i.wellFormed = true → decode (encode i) = .ok i

/-- R62, R64: a legal word has one meaning, and no word but a command's own decodes to it. -/
def Obligations.LegalWordsAreEncodings : Prop :=
  ∀ (w : Word) (i : Instr), decode w = .ok i → i.wellFormed = true ∧ encode i = w

/-- R62: the decoder is total and follows the opcode map, read here by the masks of R63 (bits 23:8 of a number are its
quotient by 256, modulo 65536); every other word is Illegal. -/
def Obligations.DecoderFollowsOpcodeMap : Prop :=
  ∀ w : Word,
    (decode w = .ok .init ↔ w &&& 0xFFFFFFFF = 0x00000001) ∧
    (decode w = .ok .prepare ↔ w &&& 0xFFFFFFFF = 0x00000002) ∧
    (∀ v, decode w = .ok (.setfreq v) ↔ w &&& 0xFF0000FF = 0x00000003 ∧ v = w.toNat / 256 % 65536) ∧
    (∀ v, decode w = .ok (.next v) ↔ w &&& 0xFF0000FF = 0x00000004 ∧ v = w.toNat / 256 % 65536) ∧
    (∀ k, decode w = .ok (.render k) ↔ w &&& 0xFF0000FF = 0x00000005 ∧ k = w.toNat / 256 % 65536) ∧
    ((∃ e, decode w = .error e) ↔
      w &&& 0xFFFFFFFF ≠ 0x00000001 ∧ w &&& 0xFFFFFFFF ≠ 0x00000002 ∧ w &&& 0xFF0000FF ≠ 0x00000003 ∧
      w &&& 0xFF0000FF ≠ 0x00000004 ∧ w &&& 0xFF0000FF ≠ 0x00000005)

/-- Words of the spec's own tables (spec/95_test_vectors.md V15) decode to the commands they stand for; the names of the
three kinds of illegal word are the model's (log entry 16). -/
def Obligations.KnownWordsDecode : Prop :=
  decode 0x00000001 = .ok .init ∧ decode 0x00000002 = .ok .prepare ∧ decode 0x0000C703 = .ok (.setfreq 199) ∧
  decode 0x00FFFF03 = .ok (.setfreq 65535) ∧ decode 0x0000C804 = .ok (.next 200) ∧
  decode 0x00100105 = .ok (.render 4097) ∧ decode 0x00000000 = .error .reservedOpcode ∧
  decode 0x00010001 = .error .formatZBitsSet ∧ decode 0x80000004 = .error .formatIBitsSet

/-- R64: an illegal word that was accepted raises E_OPCODE with the word in FAULTINFO and does nothing else. -/
def Obligations.IllegalWordsFault : Prop :=
  ∀ (s : State) (rest : List Event) (w : Word) (ops : Operands) (e : Illegal),
    EngineNext s rest → s.eng = .run w ops → decode w = .error e →
    step s = .next (Faulted { s with pending := rest } 0x01 w)

/-! ### The step (spec/10_state.md R24, spec/44_bus_access.md R151) -/

/-- A step runs the decoded instruction: when the engine's turn is next and the word it has accepted decodes to i, the step
is exec of i, the engine's turn being used up. A command is one step: log entry 1. The engine's turn is an event of the
model's schedule, or what is next when nothing is pending: log entry 7. -/
def Obligations.StepRunsTheDecodedCommand : Prop :=
  ∀ (s : State) (rest : List Event) (w : Word) (ops : Operands) (i : Instr),
    EngineNext s rest → s.eng = .run w ops → decode w = .ok i → step s = exec i { s with pending := rest }

/-- R41, R205: a pending transaction is answered in one step, and an idle engine's turn changes nothing. The spec leaves
nothing stuck (spec/93_implementation_defined.md part 1): every state has a next one. -/
def Obligations.StepsAnswerOneTransactionAndNeverStop : Prop :=
  (∀ (s : State) (x : Txn) (rest : List Event), s.pending = .bus x :: rest →
    step s = .next { (transact s x).1 with pending := rest, answers := (transact s x).2 :: s.answers }) ∧
  (∀ (s : State) (rest : List Event), EngineNext s rest → s.eng = .idle → step s = .next { s with pending := rest }) ∧
  (∀ s : State, ∃ t, step s = .next t)

/-- R153: a command that was accepted completes or faults after finitely many steps, however many transactions the host
makes first. The bound is the model's: a command is one step (log entry 1), and the engine's turn comes at the latest when
the host's schedule is exhausted (log entry 7). -/
def Obligations.AcceptedCommandsTerminate : Prop :=
  ∀ (s : State) (w : Word) (ops : Operands), s.eng = .run w ops →
    ∃ k, k ≤ s.pending.length + 1 ∧ ∃ t, core.run k s = .next t ∧ t.eng = .idle

/-- R24, R48: a running command is observably atomic. Any transactions made while it runs leave the outcome as it would have
been without them. -/
def Obligations.TransactionsWhileBusyDoNotMatter : Prop :=
  ∀ (s t : State) (w : Word) (ops : Operands) (txs : List Txn) (rest : List Event), s.eng = .run w ops →
    step { s with pending := .engine :: rest } = .next t →
    ∃ u, core.run (txs.length + 1) { s with pending := txs.map .bus ++ .engine :: rest } = .next u ∧
      SameCore t u ∧ u.pending = rest

/-! ### Bus access (spec/44_bus_access.md, spec/20_memory.md) -/

/-- R150: while a command is in progress every transaction is refused but the read of STATUS, which shows BUSY. -/
def Obligations.BusyRefusesAllButStatusReads : Prop :=
  ∀ s : State, s.busy = true →
    (∀ bits addr w, transact s (.write bits addr w) = (s, .err)) ∧
    (∀ bits addr, addr ≠ 0x00004 → transact s (.read bits addr) = (s, .err)) ∧
    transact s (.read 32 0x00004) = (s, .okWord s.status) ∧ s.status.getLsbD 0 = true

/-- R165: a faulted core refuses every write, answers every read as it would without the fault (STATUS as it is, in which
FAULT and CODE stand), and no step changes it. -/
def Obligations.FaultedCoreRefusesWrites : Prop :=
  ∀ s : State, s.fault = true →
    (∀ bits addr w, transact s (.write bits addr w) = (s, .err)) ∧
    (∀ addr, addr ≠ 0x00004 → busRead s addr = busRead { s with fault := false } addr) ∧
    busRead s 0x00004 = .okWord s.status ∧ s.status.getLsbD 2 = true ∧
    (s.eng = .idle → ∀ t, step s = .next t → SameCore s t)

/-- R187, R188: nothing the host or the engine does leaves a faulted state or changes its record. -/
def Obligations.FaultIsNeverLeft : Prop :=
  ∀ (k : Nat) (s t : State), s.fault = true → s.eng = .idle → core.run k s = .next t →
    t.fault = true ∧ t.code = s.code ∧ t.faultInfo = s.faultInfo ∧ SameCore s t

/-- R188: the state at the end of a run tells whether a fault was entered anywhere in it. -/
def Obligations.FinalStateTellsWhetherARunFaulted : Prop :=
  ∀ (k : Nat) (s t : State), Inv s → core.run k s = .next t → t.safe = true → SafeRun k s

/-- R190: a transaction that answers ERR has no effect on the core. -/
def Obligations.RefusedTransactionsChangeNothing : Prop :=
  (∀ (s : State) (x : Txn), (transact s x).2 = .err → (transact s x).1 = s) ∧
  (∀ (s t : State) (x : Txn) (rest : List Event), s.pending = .bus x :: rest → (transact s x).2 = .err →
    step s = .next t → SameCore s t)

/-- R46: no read has a side effect; an accepted write other than a command stores exactly its word in exactly its
location, so that this location reads as the word and every other address reads as before; an accepted write to CMD
stores nothing and starts the command. -/
def Obligations.AcceptedWritesStoreExactlyTheirWord : Prop :=
  (∀ (s : State) (bits addr : Nat), (transact s (.read bits addr)).1 = s) ∧
  (∀ (s t : State) (bits addr : Nat) (w : Word), transact s (.write bits addr w) = (t, .ok) → addr ≠ 0x00000 →
    busRead t addr = .okWord w ∧ (∀ a, a ≠ addr → busRead t a = busRead s a) ∧ t.eng = s.eng ∧
    (∀ sp i, t.read sp i ≠ s.read sp i → place addr = .window sp i)) ∧
  (∀ (s t : State) (bits : Nat) (w : Word), transact s (.write bits 0x00000 w) = (t, .ok) →
    t = { s with eng := .run w s.regs })

/-- R43: a transaction that is not 32 bits wide, or whose address is no multiple of 4, is refused. -/
def Obligations.OnlyAlignedWordTransactions : Prop :=
  ∀ (s : State) (bits addr : Nat) (w : Word), bits ≠ 32 ∨ addr % 4 ≠ 0 →
    transact s (.read bits addr) = (s, .err) ∧ transact s (.write bits addr w) = (s, .err)

/-- R44, R160, R164: reserved addresses, addresses beyond the address space, reads of CMD and writes of read-only registers
are refused in every state. -/
def Obligations.ReservedAndWrongWayAccessesRefused : Prop :=
  ∀ (s : State) (addr : Nat) (w : Word),
    ((0x0002C ≤ addr ∧ addr ≤ 0x0FFFF ∨ 0x30000 ≤ addr ∧ addr ≤ 0x3FFFF ∨ 0x60000 ≤ addr) →
      transact s (.read 32 addr) = (s, .err) ∧ transact s (.write 32 addr w) = (s, .err)) ∧
    transact s (.read 32 0x00000) = (s, .err) ∧
    (addr = 0x00004 ∨ addr = 0x00008 ∨ 0x0001C ≤ addr ∧ addr ≤ 0x00028 → transact s (.write 32 addr w) = (s, .err))

/-- R161: the TABLE window is readable below n once READY is 1, and never writable. -/
def Obligations.TableWindowReadsTheTable : Prop :=
  ∀ (s : State) (i : Nat) (w : Word), i ≤ 16383 →
    (s.busy = false →
      busRead s (0x10000 + 4 * i) = if s.ready = true ∧ i < s.n then .okWord (s.read .table i) else .err) ∧
    busWrite s (0x10000 + 4 * i) w = (s, .err)

/-- R162: the VOICE window reads and writes PHASE and PINC of the voices below vc once READY is 1. -/
def Obligations.VoiceWindowReadsAndWritesVoices : Prop :=
  ∀ (s : State) (v : Nat) (w : Word), v ≤ 8191 → s.busy = false →
    (busRead s (0x20000 + 8 * v) = if s.ready = true ∧ v < s.vc then .okWord (s.read .phase v) else .err) ∧
    (busRead s (0x20004 + 8 * v) = if s.ready = true ∧ v < s.vc then .okWord (s.read .pinc v) else .err) ∧
    (s.fault = false →
      (busWrite s (0x20000 + 8 * v) w = if s.ready = true ∧ v < s.vc then (s.write .phase v w, .ok) else (s, .err)) ∧
      (busWrite s (0x20004 + 8 * v) w = if s.ready = true ∧ v < s.vc then (s.write .pinc v w, .ok) else (s, .err)))

/-- R163: the OUT window reads and writes the frames below MAXF of both channels, READY or not. -/
def Obligations.OutWindowReadsAndWritesFrames : Prop :=
  ∀ (s : State) (f : Nat) (w : Word), f ≤ 16383 → s.busy = false →
    (busRead s (0x40000 + 4 * f) = if f < s.caps.maxF then .okWord (s.read .outL f) else .err) ∧
    (busRead s (0x50000 + 4 * f) = if f < s.caps.maxF then .okWord (s.read .outR f) else .err) ∧
    (s.fault = false →
      (busWrite s (0x40000 + 4 * f) w = if f < s.caps.maxF then (s.write .outL f w, .ok) else (s, .err)) ∧
      (busWrite s (0x50000 + 4 * f) w = if f < s.caps.maxF then (s.write .outR f w, .ok) else (s, .err)))

/-- R20, R195, R160: the STATUS word's fields and the two outputs that mirror it, and what the registers of the register block read as in an idle core. -/
def Obligations.RegisterBlockReads : Prop :=
  ∀ s : State,
    (s.status.getLsbD 0 = s.busy ∧ s.status.getLsbD 1 = s.ready ∧ s.status.getLsbD 2 = s.fault ∧
      s.status.extractLsb' 3 5 = 0 ∧ s.status.extractLsb' 8 8 = s.code ∧ s.status.extractLsb' 16 16 = 0 ∧
      s.busyOutput = s.busy ∧ s.faultOutput = s.fault) ∧
    (s.eng = .idle →
      busRead s 0x00004 = .okWord s.status ∧ busRead s 0x00008 = .okWord s.faultInfo ∧
      busRead s 0x0000C = .okWord s.regs.sampleRate ∧ busRead s 0x00010 = .okWord s.regs.voiceCount ∧
      busRead s 0x00014 = .okWord s.regs.tableSize ∧ busRead s 0x00018 = .okWord s.regs.freq ∧
      busRead s 0x0001C = .okWord s.sample ∧ busRead s 0x00020 = .okWord s.level ∧
      busRead s 0x00024 = .okWord (BitVec.ofNat 32 s.n) ∧ busRead s 0x00028 = .okWord (BitVec.ofNat 32 s.vc))

/-- R151, R152: a write to CMD is accepted exactly by an idle core without a fault; it captures the operand registers, makes
BUSY 1 for the next read of STATUS, and stores nothing. -/
def Obligations.CommandAcceptance : Prop :=
  ∀ (s : State) (w : Word),
    (s.eng = .idle → s.fault = false →
      busWrite s 0x00000 w = ({ s with eng := .run w s.regs }, .ok) ∧
      busRead { s with eng := .run w s.regs } 0x00004 = .okWord (s.status ||| 0x00000001)) ∧
    (s.busy = true ∨ s.fault = true → busWrite s 0x00000 w = (s, .err))

/-! ### The commands (spec/42_oscillator.md, spec/43_mixer.md) -/

/-- R140, R100, R130, R134: where its operands are in range INIT completes: the table of TABLE_SIZE samples, a voice set of
VOICE_COUNT voices with phase +0 and the increment of a note of NOTES, the level, READY; and nothing else changes. The
words of the table and the value of Tune are the model's evaluation (log entries 10, 11); that voices at and above vc keep
their words is the model's choice (log entry 19: R12 leaves them unspecified). -/
def Obligations.InitBuildsTableAndVoices : Prop :=
  ∀ s : State,
    2 ≤ s.operands.tableSize.toNat → s.operands.tableSize.toNat ≤ s.caps.maxN →
    1 ≤ s.operands.voiceCount.toNat → s.operands.voiceCount.toNat ≤ s.caps.maxV →
    ∃ t, exec .init s = .next t ∧
      t.n = s.operands.tableSize.toNat ∧ t.vc = s.operands.voiceCount.toNat ∧ t.ready = true ∧ t.eng = .idle ∧
      (∀ i, t.read .table i = if i < t.n then tableEntry t.n i else s.read .table i) ∧
      (∀ v, t.read .phase v = if v < t.vc then 0x00000000 else s.read .phase v) ∧
      (∀ v, v < t.vc → ∃ x, IsNote x ∧
        t.read .pinc v = fdiv (fmul (tune x) (i2f t.n)) s.operands.sampleRate) ∧
      (∀ v, t.vc ≤ v → t.read .pinc v = s.read .pinc v) ∧
      t.level = fdiv 0x3E800000 (i2f t.vc) ∧
      (∀ f, t.read .outL f = s.read .outL f ∧ t.read .outR f = s.read .outR f) ∧
      t.sample = s.sample ∧ SameStatusAndHost s t

/-- R141, R130, R134: with READY and VOICE_COUNT in range PREPARE completes: the voice set and the level are replaced; the
table, n and everything else stay. The value of Tune is the model's evaluation (log entry 11); that voices at and above vc
keep their words is the model's choice (log entry 19: R12 leaves them unspecified). -/
def Obligations.PrepareReplacesVoices : Prop :=
  ∀ s : State, s.ready = true →
    1 ≤ s.operands.voiceCount.toNat → s.operands.voiceCount.toNat ≤ s.caps.maxV →
    ∃ t, exec .prepare s = .next t ∧
      t.vc = s.operands.voiceCount.toNat ∧ t.eng = .idle ∧
      (∀ v, t.read .phase v = if v < t.vc then 0x00000000 else s.read .phase v) ∧
      (∀ v, v < t.vc → ∃ x, IsNote x ∧
        t.read .pinc v = fdiv (fmul (tune x) (i2f s.n)) s.operands.sampleRate) ∧
      (∀ v, t.vc ≤ v → t.read .pinc v = s.read .pinc v) ∧
      t.level = fdiv 0x3E800000 (i2f t.vc) ∧
      (∀ i, t.read .table i = s.read .table i ∧ t.read .outL i = s.read .outL i ∧ t.read .outR i = s.read .outR i) ∧
      t.n = s.n ∧ t.ready = s.ready ∧ t.sample = s.sample ∧ SameStatusAndHost s t

/-- R118, R116, R92: with READY and a voice of the voice set SETFREQ completes: PINC[v] is (FREQ × n) / SAMPLE_RATE, rounded
after each operation, and nothing else changes, PHASE[v] included. -/
def Obligations.SetfreqWritesTheIncrement : Prop :=
  ∀ (s : State) (v : Nat), s.ready = true → v < s.vc →
    ∃ t, exec (.setfreq v) s = .next t ∧
      t.read .pinc v = fdiv (fmul s.operands.freq (i2f s.n)) s.operands.sampleRate ∧ t.eng = .idle ∧
      (∀ sp i, (sp, i) ≠ (Space.pinc, v) → t.read sp i = s.read sp i) ∧
      t.n = s.n ∧ t.vc = s.vc ∧ t.level = s.level ∧ t.ready = s.ready ∧ t.sample = s.sample ∧ t.draws = s.draws ∧
      SameStatusAndHost s t

/-- R116 ("Idempotent configuration"): a second SETFREQ with the same operands changes nothing. -/
def Obligations.SetfreqTwiceIsSetfreqOnce : Prop :=
  ∀ (s t : State) (v : Nat), s.ready = true → v < s.vc → exec (.setfreq v) s = .next t →
    exec (.setfreq v) { t with eng := s.eng } = .next t

/-- R119, R110, R103, R112, R113: with READY, a voice of the voice set and a phase inside the lookup domain NEXT completes:
SAMPLE is the interpolated value at the phase before the advance, PHASE[v] is the advanced phase, wrapped by at most one
subtraction, and nothing else changes. -/
def Obligations.NextProducesOneSample : Prop :=
  ∀ (s : State) (v : Nat), s.ready = true → v < s.vc → inDomain s.n (s.read .phase v) = true →
    ∃ t a0 a1 q, exec (.next v) s = .next t ∧
      (ffloorU (s.read .phase v) + 2 ≤ s.n →
        a0 = s.read .table (ffloorU (s.read .phase v)) ∧ a1 = s.read .table (ffloorU (s.read .phase v) + 1)) ∧
      (ffloorU (s.read .phase v) + 1 = s.n → a0 = s.read .table (s.n - 1) ∧ a1 = s.read .table 0) ∧
      (s.n ≤ ffloorU (s.read .phase v) → a0 = s.read .table 0 ∧ a1 = s.read .table 1) ∧
      t.sample = fadd a0 (fmul (fsub (s.read .phase v) (i2f (ffloorU (s.read .phase v)))) (fsub a1 a0)) ∧
      q = fadd (s.read .phase v) (s.read .pinc v) ∧
      (fgt q (i2f s.n) = true → t.read .phase v = fsub q (i2f s.n)) ∧
      (fgt q (i2f s.n) = false → t.read .phase v = q) ∧
      t.eng = .idle ∧
      (∀ sp i, (sp, i) ≠ (Space.phase, v) → t.read sp i = s.read sp i) ∧
      t.n = s.n ∧ t.vc = s.vc ∧ t.level = s.level ∧ t.ready = s.ready ∧ t.draws = s.draws ∧ SameStatusAndHost s t

/-- R111, R89: the lookup domain is the values from 0 up to, and without, n + 1, so that the index of a phase inside it is at
most n. -/
def Obligations.LookupDomainIsZeroToN : Prop :=
  ∀ (n : Nat) (p : Word), n ≤ 16384 →
    (inDomain n p = true ↔ isFinite p = true ∧ 0 ≤ scaled p ∧ scaled p < (n + 1) * 2 ^ 149) ∧
    (inDomain n p = true → ffloorU p ≤ n ∧ (ffloorU p : Int) * 2 ^ 149 ≤ scaled p ∧
      scaled p < (ffloorU p + 1) * 2 ^ 149)

/-- R114: with phase and increment in [0, n] a sample does not fault and the phase stays in [0, n]. -/
def Obligations.PhaseStaysInRange : Prop :=
  ∀ (n : Nat) (p pinc : Word), 2 ≤ n → n ≤ 16384 → InRange n p → InRange n pinc →
    inDomain n p = true ∧ InRange n (advance n p pinc)

/-- R114: a phase of exactly n is stored unchanged by the wrap test, is inside the lookup domain, and makes the sample
TABLE[0] = +0, whatever its neighbour (a finite word). -/
def Obligations.PhaseExactlyNSoundsSilent : Prop :=
  ∀ (n : Nat), 2 ≤ n → n ≤ 16384 →
    (∀ p pinc : Word, fadd p pinc = i2f n → advance n p pinc = i2f n) ∧
    inDomain n (i2f n) = true ∧ ffloorU (i2f n) = n ∧
    (∀ s : State, s.n = n → s.read .table 0 = 0x00000000 → isFinite (s.read .table 1) = true →
      sampleAt s (i2f n) = 0x00000000)

/-- R11, R226 ("No shared mutable state between any two oscillators"): what NEXT v makes of voice v depends on the table and
on voice v alone, and it leaves every other voice as it was. -/
def Obligations.NextDependsOnItsOwnVoiceAlone : Prop :=
  ∀ (s s' t t' : State) (v : Nat), s.ready = true → s'.ready = true → v < s.vc → v < s'.vc → s.n = s'.n →
    (∀ i, s.read .table i = s'.read .table i) → s.read .phase v = s'.read .phase v → s.read .pinc v = s'.read .pinc v →
    s.sample = s'.sample → exec (.next v) s = .next t → exec (.next v) s' = .next t' →
    t.sample = t'.sample ∧ t.read .phase v = t'.read .phase v ∧
    (∀ u, u ≠ v → t.read .phase u = s.read .phase u ∧ t.read .pinc u = s.read .pinc u)

/-- R142, R135, R136, R138: with READY, k at most MAXF and every phase of the block inside the lookup domain RENDER completes:
each voice has made k samples, each word of the first k frames has had every voice's scaled sample added in voice order,
in both channels, and nothing else changes. -/
def Obligations.RenderMixesTheBlock : Prop :=
  ∀ (s : State) (k : Nat), s.ready = true → k ≤ s.caps.maxF → BlockInDomain s k →
    ∃ t, exec (.render k) s = .next t ∧ t.eng = .idle ∧
      (∀ v, t.read .phase v = if v < s.vc then phaseAt s v k else s.read .phase v) ∧
      (∀ f, t.read .outL f = if f < k then mixedWord s f (s.read .outL f) s.vc else s.read .outL f) ∧
      (∀ f, t.read .outR f = if f < k then mixedWord s f (s.read .outR f) s.vc else s.read .outR f) ∧
      (∀ i, t.read .table i = s.read .table i ∧ t.read .pinc i = s.read .pinc i) ∧
      t.n = s.n ∧ t.vc = s.vc ∧ t.level = s.level ∧ t.ready = s.ready ∧ t.sample = s.sample ∧ t.draws = s.draws ∧
      SameStatusAndHost s t

/-- R139, R182, R186: a RENDER stops at the first frame and voice, in schedule order, whose phase is outside the lookup
domain. E_PHASE is entered with that frame and voice in FAULTINFO; everything before stays done and nothing after is. -/
def Obligations.RenderStopsAtTheFirstBadPhase : Prop :=
  ∀ (s : State) (k f v : Nat), s.ready = true → k ≤ s.caps.maxF → f < k → v < s.vc → BlockInDomain s f →
    (∀ u, u < v → inDomain s.n (phaseAt s u f) = true) → inDomain s.n (phaseAt s v f) = false →
    ∃ t, exec (.render k) s = .next t ∧
      t.fault = true ∧ t.code = 0x07 ∧ t.faultInfo = BitVec.ofNat 16 f ++ BitVec.ofNat 16 v ∧ t.eng = .idle ∧
      (∀ u, t.read .phase u =
        if u < v then phaseAt s u (f + 1) else if u < s.vc then phaseAt s u f else s.read .phase u) ∧
      (∀ g, t.read .outL g = if g < f then mixedWord s g (s.read .outL g) s.vc
        else if g = f then mixedWord s g (s.read .outL g) v else s.read .outL g) ∧
      (∀ g, t.read .outR g = if g < f then mixedWord s g (s.read .outR g) s.vc
        else if g = f then mixedWord s g (s.read .outR g) v else s.read .outR g) ∧
      (∀ i, t.read .table i = s.read .table i ∧ t.read .pinc i = s.read .pinc i) ∧
      t.n = s.n ∧ t.vc = s.vc ∧ t.level = s.level ∧ t.ready = s.ready ∧ t.sample = s.sample ∧ t.regs = s.regs ∧
      t.draws = s.draws ∧ t.caps = s.caps ∧ t.pending = s.pending ∧ t.answers = s.answers

/-- R114, R135: a RENDER over voices whose phases and increments are in [0, n] never faults, and leaves the phases there. -/
def Obligations.RenderOfVoicesInRangeNeverFaults : Prop :=
  ∀ (s : State) (k : Nat), s.ready = true → k ≤ s.caps.maxF → 2 ≤ s.n → s.n ≤ 16384 →
    (∀ v, v < s.vc → InRange s.n (s.read .phase v) ∧ InRange s.n (s.read .pinc v)) →
    ∃ t, exec (.render k) s = .next t ∧ t.fault = s.fault ∧
      (∀ v, v < t.vc → InRange t.n (t.read .phase v) ∧ InRange t.n (t.read .pinc v))

/-- R223: the samples a voice makes do not depend on how frames are split into blocks: two RENDERs leave the phases one long
RENDER leaves, the first block holds what the long block begins with, and the second block, over the same earlier contents,
holds what the long block holds in its place. -/
def Obligations.BlocksMayBeSplit : Prop :=
  ∀ (s : State) (j k : Nat), s.ready = true → j + k ≤ s.caps.maxF → BlockInDomain s (j + k) →
    ∃ t1 t, exec (.render j) s = .next t1 ∧ exec (.render (j + k)) s = .next t ∧
      (∀ f, f < j → t1.read .outL f = t.read .outL f ∧ t1.read .outR f = t.read .outR f) ∧
      ∀ u : State, u = { t1 with outL := u.outL, outR := u.outR } →
        (∀ f, f < k → u.read .outL f = s.read .outL (j + f) ∧ u.read .outR f = s.read .outR (j + f)) →
        ∃ t2, exec (.render k) u = .next t2 ∧
          (∀ v, t2.read .phase v = t.read .phase v) ∧
          (∀ f, f < k → t2.read .outL f = t.read .outL (j + f) ∧ t2.read .outR f = t.read .outR (j + f))

/-- R136: at every frame at which the channels hold equal words before a RENDER they hold equal words after it, faulted or
not, whatever the other frames hold. -/
def Obligations.EqualChannelsStayEqual : Prop :=
  ∀ (s t : State) (k f : Nat), s.read .outL f = s.read .outR f → exec (.render k) s = .next t →
    t.read .outL f = t.read .outR f

/-- R180, R181, R182, R143: the checks of the five commands in their order of priority. A command whose check fails enters
the fault of the first one that fails, with its information, and changes nothing else. -/
def Obligations.ChecksInOrderOfPriority : Prop :=
  ∀ s : State,
    ((s.operands.tableSize.toNat < 2 ∨ s.caps.maxN < s.operands.tableSize.toNat) →
      exec .init s = .next (Faulted s 0x03 s.operands.tableSize)) ∧
    (2 ≤ s.operands.tableSize.toNat → s.operands.tableSize.toNat ≤ s.caps.maxN →
      (s.operands.voiceCount = 0 ∨ s.caps.maxV < s.operands.voiceCount.toNat) →
      exec .init s = .next (Faulted s 0x04 s.operands.voiceCount)) ∧
    (s.ready = false → exec .prepare s = .next (Faulted s 0x02 0x00000002) ∧
      ∀ m, exec (.setfreq m) s = .next (Faulted s 0x02 (encode (.setfreq m))) ∧
        exec (.next m) s = .next (Faulted s 0x02 (encode (.next m))) ∧
        exec (.render m) s = .next (Faulted s 0x02 (encode (.render m)))) ∧
    (s.ready = true → (s.operands.voiceCount = 0 ∨ s.caps.maxV < s.operands.voiceCount.toNat) →
      exec .prepare s = .next (Faulted s 0x04 s.operands.voiceCount)) ∧
    (s.ready = true → ∀ v, s.vc ≤ v →
      exec (.setfreq v) s = .next (Faulted s 0x05 (BitVec.ofNat 32 v)) ∧
      exec (.next v) s = .next (Faulted s 0x05 (BitVec.ofNat 32 v))) ∧
    (s.ready = true → ∀ v, v < s.vc → inDomain s.n (s.read .phase v) = false →
      exec (.next v) s = .next (Faulted s 0x07 (BitVec.ofNat 16 0 ++ BitVec.ofNat 16 v))) ∧
    (s.ready = true → ∀ k, s.caps.maxF < k → exec (.render k) s = .next (Faulted s 0x06 (BitVec.ofNat 32 k)))

/-- R213: with SAMPLE_RATE still +0 an INIT of at least one voice completes with every increment +∞, and a RENDER of two
frames then faults at frame 1, voice 0. -/
def Obligations.ForgottenSampleRateFaultsInFrameOne : Prop :=
  ∀ s : State, s.operands.sampleRate = 0x00000000 → s.caps.legal = true → 2 ≤ s.caps.maxF →
    2 ≤ s.operands.tableSize.toNat → s.operands.tableSize.toNat ≤ s.caps.maxN →
    1 ≤ s.operands.voiceCount.toNat → s.operands.voiceCount.toNat ≤ s.caps.maxV →
    ∃ t u, exec .init s = .next t ∧ (∀ v, v < t.vc → t.read .pinc v = 0x7F800000) ∧ t.fault = s.fault ∧
      exec (.render 2) t = .next u ∧ u.fault = true ∧ u.code = 0x07 ∧ u.faultInfo = 0x00010000

/-- R133: at a finite sample rate of at least 2048.0 the increment of every note is above 0 and below n. -/
def Obligations.FreshIncrementsAreInRange : Prop :=
  ∀ (n : Nat) (x rate : Word), 2 ≤ n → n ≤ 16384 → IsNote x → isFinite rate = true → fge rate 0x45000000 = true →
    fgt (fdiv (fmul (tune x) (i2f n)) rate) 0x00000000 = true ∧
    flt (fdiv (fmul (tune x) (i2f n)) rate) (i2f n) = true ∧ InRange n (fdiv (fmul (tune x) (i2f n)) rate)

/-- R133, R140, R142, R223: after an INIT at a finite sample rate of at least 2048.0 any number of RENDERs, of any legal
lengths, run without a fault. -/
def Obligations.RendersAfterInitNeverFault : Prop :=
  ∀ (s : State) (ks : List Nat), s.caps.legal = true → s.fault = false →
    isFinite s.operands.sampleRate = true → fge s.operands.sampleRate 0x45000000 = true →
    2 ≤ s.operands.tableSize.toNat → s.operands.tableSize.toNat ≤ s.caps.maxN →
    1 ≤ s.operands.voiceCount.toNat → s.operands.voiceCount.toNat ≤ s.caps.maxV →
    (∀ k ∈ ks, k ≤ s.caps.maxF) →
    ∃ t, exec .init s = .next t ∧
      ∃ u, ks.foldl (fun r k => match r with | .next x => exec (.render k) x | y => y)
        (Host.Outcome.next t : Host.Outcome State Fault Refusal) = .next u ∧ u.fault = false

/-! ### The whole machine -/

/-- The values after reset that spec/10_state.md R27 states, as the host reads them; the table and the voice set cannot be
read. -/
def Obligations.ResetValuesAsTheHostReadsThem : Prop :=
  State.reset.eng = .idle ∧
  busRead State.reset 0x00004 = .okWord 0x00000000 ∧ busRead State.reset 0x00008 = .okWord 0x00000000 ∧
  busRead State.reset 0x0000C = .okWord 0x00000000 ∧ busRead State.reset 0x00010 = .okWord 0x000000C8 ∧
  busRead State.reset 0x00014 = .okWord 0x00000080 ∧ busRead State.reset 0x00018 = .okWord 0x00000000 ∧
  busRead State.reset 0x0001C = .okWord 0x00000000 ∧ busRead State.reset 0x00020 = .okWord 0x00000000 ∧
  busRead State.reset 0x00024 = .okWord 0x00000000 ∧ busRead State.reset 0x00028 = .okWord 0x00000000 ∧
  busRead State.reset 0x10000 = .err ∧ busRead State.reset 0x20000 = .err

/-- The invariant of the machine holds after reset (R27). -/
def Obligations.ResetMeetsTheInvariant : Prop := Inv State.reset

/-- Every step keeps the invariant of the machine: legal parameters, memories in canonical form and inside their
capacities, a consistent fault record (R20, R21, R188), operands captured as the registers stand (R152), and the
configuration invariants of R14 and R28. -/
def Obligations.StepKeepsTheInvariant : Prop :=
  ∀ s t : State, Inv s → step s = .next t → Inv t

/-- R11, R13 to R18, R20, R21, R24, R140, R151: which step may change which register or word of memory. The table, n and
READY change only where the engine runs INIT, vc, LEVEL and the draws only where it runs INIT or PREPARE, SAMPLE only where
it runs a NEXT; FAULT, CODE and FAULTINFO only where it runs an accepted word; each operand register only by a host write to
it; a voice's registers and the words of the output buffer only by the commands the spec names or by a host write to that
very location; ENG by acceptance and by the engine. READY and FAULT are never cleared. -/
def Obligations.EachRegisterHasItsWriters : Prop :=
  ∀ s t : State, step s = .next t →
    (t.table ≠ s.table ∨ t.n ≠ s.n ∨ t.ready ≠ s.ready → EngineRuns s .init) ∧
    (t.vc ≠ s.vc ∨ t.level ≠ s.level ∨ t.draws ≠ s.draws → EngineRuns s .init ∨ EngineRuns s .prepare) ∧
    (t.sample ≠ s.sample → ∃ v, EngineRuns s (.next v)) ∧
    (t.fault ≠ s.fault ∨ t.code ≠ s.code ∨ t.faultInfo ≠ s.faultInfo →
      (∃ rest, EngineNext s rest) ∧ (∃ w ops, s.eng = .run w ops) ∧ t.fault = true ∧ t.eng = .idle) ∧
    (s.ready = true → t.ready = true) ∧ (s.fault = true → t.fault = true) ∧
    (t.regs.sampleRate ≠ s.regs.sampleRate → HostWrites s 0x0000C t.regs.sampleRate) ∧
    (t.regs.voiceCount ≠ s.regs.voiceCount → HostWrites s 0x00010 t.regs.voiceCount) ∧
    (t.regs.tableSize ≠ s.regs.tableSize → HostWrites s 0x00014 t.regs.tableSize) ∧
    (t.regs.freq ≠ s.regs.freq → HostWrites s 0x00018 t.regs.freq) ∧
    (∀ v, t.read .phase v ≠ s.read .phase v →
      EngineRuns s .init ∨ EngineRuns s .prepare ∨ EngineRuns s (.next v) ∨ (v < s.vc ∧ ∃ k, EngineRuns s (.render k)) ∨
        HostWrites s (0x20000 + 8 * v) (t.read .phase v)) ∧
    (∀ v, t.read .pinc v ≠ s.read .pinc v →
      EngineRuns s .init ∨ EngineRuns s .prepare ∨ EngineRuns s (.setfreq v) ∨
        HostWrites s (0x20004 + 8 * v) (t.read .pinc v)) ∧
    (∀ f, t.read .outL f ≠ s.read .outL f →
      (∃ k, f < k ∧ EngineRuns s (.render k)) ∨ HostWrites s (0x40000 + 4 * f) (t.read .outL f)) ∧
    (∀ f, t.read .outR f ≠ s.read .outR f →
      (∃ k, f < k ∧ EngineRuns s (.render k)) ∨ HostWrites s (0x50000 + 4 * f) (t.read .outR f)) ∧
    (t.eng ≠ s.eng → (∃ w, HostWrites s 0x00000 w ∧ t.eng = .run w s.regs) ∨
      ((∃ rest, EngineNext s rest) ∧ (∃ w ops, s.eng = .run w ops) ∧ t.eng = .idle)) ∧
    t.caps = s.caps

/-! ### Numerics (spec/40_numerics.md) -/

/-- R81: rounding is to nearest, ties to even, with gradual underflow, and from 2^128 − 2^103 on to the infinity; the sign is
the given one, also of a result of zero. -/
def Obligations.RoundingIsToNearestEven : Prop :=
  ∀ (neg : Bool) (num den : Nat), 0 < den →
    IsRounded (if neg then -(num : Int) else num) den (roundMag neg num den) ∧
    signBit (roundMag neg num den) = neg

/-- R82: addition. -/
def Obligations.AdditionIsCorrectlyRounded : Prop :=
  ∀ a b : Word,
    (isNaN a = true ∨ isNaN b = true → fadd a b = 0x7FC00000) ∧
    (isInf a = true → isInf b = true → signBit a ≠ signBit b → fadd a b = 0x7FC00000) ∧
    (isInf a = true → isNaN b = false → (isInf b = true → signBit a = signBit b) → fadd a b = a) ∧
    (isInf b = true → isFinite a = true → fadd a b = b) ∧
    (isFinite a = true → isFinite b = true →
      (scaled a + scaled b ≠ 0 → IsRounded (scaled a + scaled b) 1 (fadd a b)) ∧
      (scaled a + scaled b = 0 → fadd a b = if a = 0x80000000 ∧ b = 0x80000000 then 0x80000000 else 0x00000000))

/-- R83: subtraction is addition of the operand with bit 31 flipped; a value less itself is +0, and infinity less infinity is
the canonical NaN. -/
def Obligations.SubtractionIsAdditionOfTheNegative : Prop :=
  (∀ a b : Word, isNaN b = true → fsub a b = 0x7FC00000) ∧
  (∀ a b : Word, isNaN b = false → fsub a b = fadd a (b ^^^ 0x80000000)) ∧
  (∀ a : Word, isFinite a = true → fsub a a = 0x00000000) ∧ fsub 0x7F800000 0x7F800000 = 0x7FC00000

/-- R84: multiplication. -/
def Obligations.MultiplicationIsCorrectlyRounded : Prop :=
  ∀ a b : Word,
    (isNaN a = true ∨ isNaN b = true ∨ (scaled a = 0 ∧ isInf b = true) ∨ (isInf a = true ∧ scaled b = 0) →
      fmul a b = 0x7FC00000) ∧
    (isNaN a = false → isNaN b = false → (isInf a = true ∧ scaled b ≠ 0 ∨ isInf b = true ∧ scaled a ≠ 0) →
      fmul a b = infinity (signBit a != signBit b)) ∧
    (isFinite a = true → isFinite b = true →
      signBit (fmul a b) = (signBit a != signBit b) ∧
      (scaled a = 0 ∨ scaled b = 0 → scaled (fmul a b) = 0) ∧
      IsRounded (scaled a * scaled b) (2 ^ 149) (fmul a b))

/-- R85: division, in which the exact quotient of two nonzero finite values is taken over the magnitude of the divisor. -/
def Obligations.DivisionIsCorrectlyRounded : Prop :=
  ∀ a b : Word,
    (isNaN a = true ∨ isNaN b = true ∨ (scaled a = 0 ∧ scaled b = 0) ∨ (isInf a = true ∧ isInf b = true) →
      fdiv a b = 0x7FC00000) ∧
    (isInf a = true → isFinite b = true → fdiv a b = infinity (signBit a != signBit b)) ∧
    (isFinite a = true → scaled a ≠ 0 → scaled b = 0 → fdiv a b = infinity (signBit a != signBit b)) ∧
    (isFinite a = true → isInf b = true → fdiv a b = zero (signBit a != signBit b)) ∧
    (isFinite a = true → isFinite b = true → scaled b ≠ 0 →
      signBit (fdiv a b) = (signBit a != signBit b) ∧
      IsRounded (scaled a * 2 ^ 149 * (if signBit b then -1 else 1)) (magnitude b) (fdiv a b))

/-- R86: the comparisons compare values, with the infinities outermost and the zeros equal; with a NaN they are false. -/
def Obligations.ComparisonsCompareValues : Prop :=
  ∀ a b : Word,
    flt a b = fgt b a ∧
    (isNaN a = true ∨ isNaN b = true → fgt a b = false ∧ fge a b = false) ∧
    (isFinite a = true → isFinite b = true →
      (fgt a b = true ↔ scaled b < scaled a) ∧ (fge a b = true ↔ scaled b ≤ scaled a)) ∧
    (isFinite a = true →
      fgt 0x7F800000 a = true ∧ fgt a 0xFF800000 = true ∧ fge a 0x7F800000 = false ∧ fge 0xFF800000 a = false) ∧
    (isNaN a = false →
      fgt a 0x7F800000 = false ∧ fge 0x7F800000 a = true ∧ fgt 0xFF800000 a = false ∧ fge a 0xFF800000 = true) ∧
    fgt 0x7F800000 0xFF800000 = true ∧ fge 0xFF800000 0x7F800000 = false ∧ fge 0x80000000 0x00000000 = true

/-- R90: a primitive that gives a NaN gives the canonical one, whatever NaN it was given. -/
def Obligations.NaNResultsAreCanonical : Prop :=
  ∀ a b : Word,
    (isNaN (fadd a b) = true → fadd a b = 0x7FC00000) ∧ (isNaN (fsub a b) = true → fsub a b = 0x7FC00000) ∧
    (isNaN (fmul a b) = true → fmul a b = 0x7FC00000) ∧ (isNaN (fdiv a b) = true → fdiv a b = 0x7FC00000)

/-- R88: conversion of an unsigned integer up to 2^24 is exact. -/
def Obligations.IntegerConversionIsExact : Prop :=
  ∀ k : Nat, k ≤ 2 ^ 24 → isFinite (i2f k) = true ∧ scaled (i2f k) = k * 2 ^ 149 ∧ (k = 0 → i2f k = 0x00000000)

/-- R94, first item: the fractional position of a phase is exact and lies in [0, 1). -/
def Obligations.FractionIsExact : Prop :=
  ∀ a : Word, isFinite a = true → fge a 0x00000000 = true → ffloorU a ≤ 2 ^ 24 →
    scaled (fsub a (i2f (ffloorU a))) = scaled a - ffloorU a * 2 ^ 149 ∧
    isFinite (fsub a (i2f (ffloorU a))) = true ∧
    0 ≤ scaled (fsub a (i2f (ffloorU a))) ∧ scaled (fsub a (i2f (ffloorU a))) < 2 ^ 149 ∧
    (scaled a = ffloorU a * 2 ^ 149 → a ≠ 0x80000000 → fsub a (i2f (ffloorU a)) = 0x00000000)

/-- R94, third and fourth items: scaling by 0.25 is exact for zero and for magnitudes of at least 2^-124, and adding to +0
gives the other addend, but for −0. -/
def Obligations.QuarterScalingAndZeroAddAreExact : Prop :=
  (∀ a : Word, isFinite a = true → (scaled a = 0 ∨ 2 ^ 25 ≤ magnitude a) →
    isFinite (fmul a 0x3E800000) = true ∧ 4 * scaled (fmul a 0x3E800000) = scaled a) ∧
  (∀ a : Word, isNaN a = false → a ≠ 0x80000000 → fadd 0x00000000 a = a) ∧ fadd 0x00000000 0x80000000 = 0x00000000

/-! ### The table and the tuning (spec/41_wavetable.md, spec/43_mixer.md) -/

/-- R101: the exact zeros of a table. -/
def Obligations.TableHasItsExactZeros : Prop :=
  ∀ N : Nat, 2 ≤ N → tableEntry N 0 = 0x00000000 ∧ tableEntry N (N - 1) = 0x00000000 ∧
    ∀ i, 2 * i = N - 1 → tableEntry N i = 0x00000000

/-- R102, third item: the second half of a table is the first with the sign bit flipped, a zero staying +0. -/
def Obligations.TableIsAntisymmetric : Prop :=
  ∀ N i : Nat, 2 ≤ N → N ≤ 16384 → 0 < i → i < N - 1 →
    tableEntry N (N - 1 - i) = if tableEntry N i = 0x00000000 then 0x00000000 else tableEntry N i ^^^ 0x80000000

/-- R102, second item, and R100 to within a distance: every entry is finite, of magnitude at most 1.0, and differs from the
real sine by at most half the spacing of the values at the entry itself and 2^-60 of that spacing; and also by at most half
the spacing just below 1.0, 2^-25, and 2^-60, which says more of an entry of exactly 1.0. (R100's correct rounding itself is
log entry 10; it is not stated here.) -/
def Obligations.TableFollowsTheRealSine : Prop :=
  ∀ N i : Nat, 2 ≤ N → N ≤ 16384 → i < N →
    isFinite (tableEntry N i) = true ∧ magnitude (tableEntry N i) ≤ 2 ^ 149 ∧
    |(scaled (tableEntry N i) : ℝ) - 2 ^ 149 * Real.sin (2 * Real.pi * i / (N - 1))| ≤
      (spacing (tableEntry N i) : ℝ) * (1 / 2 + 1 / 2 ^ 60) ∧
    |(scaled (tableEntry N i) : ℝ) / 2 ^ 149 - Real.sin (2 * Real.pi * i / (N - 1))| ≤ 1 / 2 ^ 25 + 1 / 2 ^ 60

/-- R133: Tune of every note is finite and positive, between F_LO and F_HI, and does not fall as the note rises. -/
def Obligations.TuneIsBoundedAndMonotone : Prop :=
  (∀ x : Word, IsNote x →
    isFinite (tune x) = true ∧ fge (tune x) 0x4302D013 = true ∧ fge 0x4482D013 (tune x) = true) ∧
  (∀ x y : Word, IsNote x → IsNote y → fge y x = true → fge (tune y) (tune x) = true)

/-- R132 to within a distance: Tune of a note differs from 440 × 2^((note − 69)/12) by at most half the spacing of the values
at the result itself and 2^-60 of that spacing. (R132's correct rounding itself is log entry 11; it is not stated here.) -/
def Obligations.TuneFollowsEqualTemperament : Prop :=
  ∀ x : Word, IsNote x →
    |(scaled (tune x) : ℝ) - 2 ^ 149 * (440 * (2 : ℝ) ^ (((scaled x : ℝ) / 2 ^ 149 - 69) / 12))| ≤
      (spacing (tune x) : ℝ) * (1 / 2 + 1 / 2 ^ 60)

/-! ### The model's own device -/

/-- withFetchWord is the model's device, log entry 8 (DESIGN CHOICE), for the write of a command word to CMD (R151): in an
idle core without a fault it is, answer apart, what the step leaves that answers this write with the engine's turn pending
after it, and the very next step runs the word placed. -/
def Obligations.PlacedWordsAreAcceptedWrites : Prop :=
  ∀ (s : State) (w : Word), s.eng = .idle → s.fault = false →
    step { s with pending := .bus (.write 32 0x00000 w) :: .engine :: s.pending } =
      .next { s.withFetchWord 32 w.toNat with answers := .ok :: s.answers } ∧
    (∀ i, decode w = .ok i → step (s.withFetchWord 32 w.toNat) = exec i { s with eng := .run w s.regs })
end

