-- ==== Sys2Proof/Laws/Float.lean ====
section
/-! SUPPORT. Facts about binary32 patterns and rounding (spec/40_numerics.md): what the fields of a pattern are, that the
value of a pattern rises with its magnitude bits, and that rounding is monotone and keeps what is representable. -/

namespace Sys2Proof.Machine

/-! ### Fields of a pattern (R80) -/

theorem expField_eq (w : Word) : expField w = w.toNat / 2 ^ 23 % 2 ^ 8 := by
  simp [expField, Nat.shiftRight_eq_div_pow]

theorem sigField_eq (w : Word) : sigField w = w.toNat % 2 ^ 23 := by
  simp [sigField]

theorem signBit_eq (w : Word) : signBit w = decide (2 ^ 31 ≤ w.toNat) := by
  have h := w.isLt
  simp only [signBit, BitVec.getLsbD, Nat.testBit_eq_decide_div_mod_eq]
  congr 1
  apply propext
  omega

/-- The value, in units of 2^-149, of the magnitude bits of a pattern (R80). -/
def bitsValue (m : Nat) : Nat := if m / 2 ^ 23 = 0 then m else (2 ^ 23 + m % 2 ^ 23) * 2 ^ (m / 2 ^ 23 - 1)

theorem magnitude_eq_bitsValue (w : Word) : magnitude w = bitsValue (w.toNat % 2 ^ 31) := by
  have h1 : w.toNat / 2 ^ 23 % 2 ^ 8 = w.toNat % 2 ^ 31 / 2 ^ 23 := by omega
  have h2 : w.toNat % 2 ^ 23 = w.toNat % 2 ^ 31 % 2 ^ 23 := by omega
  simp only [magnitude, bitsValue, expField_eq, sigField_eq]
  rw [h1, h2]
  split
  · omega
  · rfl

theorem toNat_withSign (neg : Bool) (m : Nat) (h : m < 2 ^ 31) :
    (withSign neg m).toNat = (if neg then 2 ^ 31 else 0) + m := by
  simp only [withSign, BitVec.toNat_ofNat]
  cases neg <;> simp <;> omega

@[simp] theorem signBit_withSign (neg : Bool) (m : Nat) (h : m < 2 ^ 31) : signBit (withSign neg m) = neg := by
  rw [signBit_eq, toNat_withSign neg m h]
  cases neg
  · simp; omega
  · simp

theorem magnitude_withSign (neg : Bool) (m : Nat) (h : m < 2 ^ 31) : magnitude (withSign neg m) = bitsValue m := by
  rw [magnitude_eq_bitsValue, toNat_withSign neg m h]
  congr 1
  cases neg <;> simp <;> omega

/-- A word is its sign over its magnitude bits. -/
theorem withSign_signBit (w : Word) : withSign (signBit w) (w.toNat % 2 ^ 31) = w := by
  have hw := w.isLt
  apply BitVec.eq_of_toNat_eq
  rw [toNat_withSign _ _ (by omega), signBit_eq]
  simp only [decide_eq_true_eq]
  split <;> omega

theorem isFinite_iff (w : Word) : isFinite w = true ↔ w.toNat % 2 ^ 31 < 0x7F800000 := by
  simp only [isFinite, expField_eq, bne_iff_ne, ne_eq]
  omega

/-! ### The value of a pattern rises with its magnitude bits -/

theorem bitsValue_lt_succ (m : Nat) : bitsValue m < bitsValue (m + 1) := by
  simp only [bitsValue]
  by_cases h0 : m / 2 ^ 23 = 0
  · rw [if_pos h0]
    by_cases h1 : (m + 1) / 2 ^ 23 = 0
    · rw [if_pos h1]; omega
    · rw [if_neg h1, show (m + 1) / 2 ^ 23 = 1 by omega]; simp; omega
  · rw [if_neg h0, if_neg (by omega)]
    by_cases h1 : m % 2 ^ 23 = 2 ^ 23 - 1
    · rw [h1, show (m + 1) / 2 ^ 23 = m / 2 ^ 23 + 1 by omega, show (m + 1) % 2 ^ 23 = 0 by omega,
        show m / 2 ^ 23 + 1 - 1 = (m / 2 ^ 23 - 1) + 1 by omega]
      have hp : 0 < 2 ^ (m / 2 ^ 23 - 1) := by positivity
      have hs : 2 ^ (m / 2 ^ 23 - 1 + 1) = 2 ^ (m / 2 ^ 23 - 1) * 2 := pow_succ _ _
      rw [hs]
      generalize 2 ^ (m / 2 ^ 23 - 1) = p at hp
      omega
    · rw [show (m + 1) / 2 ^ 23 = m / 2 ^ 23 by omega, show (m + 1) % 2 ^ 23 = m % 2 ^ 23 + 1 by omega]
      have hp : 0 < 2 ^ (m / 2 ^ 23 - 1) := by positivity
      exact Nat.mul_lt_mul_of_pos_right (by omega) hp

theorem bitsValue_strictMono : StrictMono bitsValue := strictMono_nat_of_lt_succ bitsValue_lt_succ

/-! ### Rounding to an integer -/

/-- The rounded integer is within a half of the quotient. -/
theorem roundHalfEven_near (num den : Nat) (h : 0 < den) :
    2 * (roundHalfEven num den * den) ≤ 2 * num + den ∧ 2 * num ≤ 2 * (roundHalfEven num den * den) + den := by
  have hm := Nat.div_add_mod num den
  have hr := Nat.mod_lt num h
  rw [Nat.mul_comm] at hm
  simp only [roundHalfEven]
  split
  · constructor <;> omega
  · split
    · rw [Nat.add_mul]; constructor <;> omega
    · have h2 := Nat.mod_two_eq_zero_or_one (num / den)
      rw [Nat.add_mul]
      rcases h2 with h2 | h2 <;> rw [h2] <;> constructor <;> omega

/-- At a tie the rounded integer is even. -/
theorem roundHalfEven_tie (num den q : Nat) (h : 0 < den) (ht : 2 * num = 2 * (q * den) + den) :
    roundHalfEven num den = q + q % 2 := by
  have hr : num % den * 2 = den := by
    have : num = q * den + (num - q * den) := by omega
    have hlt : num - q * den < den := by omega
    rw [this, Nat.mul_comm q den, Nat.mul_add_mod, Nat.mod_eq_of_lt (by rwa [Nat.mul_comm q den] at hlt)]
    rw [Nat.mul_comm q den] at ht
    omega
  have hq : num / den = q := by
    have : num = q * den + (num - q * den) := by omega
    have hlt : num - q * den < den := by omega
    exact Nat.div_eq_of_lt_le (by omega) (by rw [Nat.succ_mul]; omega)
  simp only [roundHalfEven, hq]
  rw [if_neg (by omega), if_neg (by omega)]

theorem roundHalfEven_mono (a b c d : Nat) (hb : 0 < b) (hd : 0 < d) (h : a * d ≤ c * b) :
    roundHalfEven a b ≤ roundHalfEven c d := by
  by_contra hc
  have h1 := (roundHalfEven_near a b hb).1
  have h2 := (roundHalfEven_near c d hd).2
  have hle : roundHalfEven c d + 1 ≤ roundHalfEven a b := by omega
  have key : 2 * (roundHalfEven a b * b) * d ≤ (2 * a + b) * d := Nat.mul_le_mul_right d h1
  have key2 : 2 * c * b ≤ (2 * (roundHalfEven c d * d) + d) * b := Nat.mul_le_mul_right b h2
  generalize hra : roundHalfEven a b = r at *
  generalize hrc : roundHalfEven c d = q at *
  have hbd : 0 < b * d := Nat.mul_pos hb hd
  have e1 : 2 * (r * b) * d = 2 * r * (b * d) := by ring
  have e2 : (2 * a + b) * d = 2 * (a * d) + b * d := by ring
  have e3 : 2 * c * b = 2 * (c * b) := by ring
  have e4 : (2 * (q * d) + d) * b = (2 * q + 1) * (b * d) := by ring
  rw [e1, e2] at key
  rw [e3, e4] at key2
  have hr : r = q + 1 := by
    have : 2 * r * (b * d) ≤ (2 * q + 2) * (b * d) := by
      have : (2 * q + 2) * (b * d) = (2 * q + 1) * (b * d) + b * d := by ring
      omega
    have := Nat.le_of_mul_le_mul_right this hbd
    omega
  subst hr
  have e5 : 2 * (q + 1) * (b * d) = (2 * q + 1) * (b * d) + b * d := by ring
  have t1 : 2 * (a * d) = (2 * q + 1) * (b * d) := by omega
  have t2 : 2 * (c * b) = (2 * q + 1) * (b * d) := by omega
  have ta : 2 * a = 2 * (q * b) + b := by
    have : 2 * a * d = (2 * (q * b) + b) * d := by
      calc 2 * a * d = 2 * (a * d) := by ring
        _ = _ := by rw [t1]; ring
    exact Nat.eq_of_mul_eq_mul_right hd this
  have tc : 2 * c = 2 * (q * d) + d := by
    have : 2 * c * b = (2 * (q * d) + d) * b := by
      calc 2 * c * b = 2 * (c * b) := by ring
        _ = _ := by rw [t2]; ring
    exact Nat.eq_of_mul_eq_mul_right hb this
  rw [roundHalfEven_tie a b q hb ta] at hra
  rw [roundHalfEven_tie c d q hd tc] at hrc
  omega

theorem roundHalfEven_exact (q den : Nat) (h : 0 < den) : roundHalfEven (q * den) den = q := by
  simp [roundHalfEven, Nat.mul_div_cancel _ h, h]

/-! ### Rounding to binary32 (R81) -/

/-- The significand a rounding makes: at most 2^24, and at least 2^23 above the lowest spacing. -/
theorem roundedSig_bounds (num den : Nat) (h : 0 < den) :
    roundHalfEven num (den * 2 ^ spacingLog num den) ≤ 2 ^ 24 ∧
    (spacingLog num den ≠ 0 → 2 ^ 23 ≤ roundHalfEven num (den * 2 ^ spacingLog num den)) := by
  set k := spacingLog num den with hk
  have hp : 0 < den * 2 ^ k := by positivity
  have hlt : num / den < 2 ^ (k + 24) := by
    by_cases h0 : num / den = 0
    · rw [h0]; positivity
    · have := Nat.lt_log2_self (n := num / den)
      refine lt_of_lt_of_le this (Nat.pow_le_pow_right (by norm_num) ?_)
      simp only [spacingLog] at hk
      omega
  have hnum : num < den * 2 ^ k * 2 ^ 24 := by
    have := (Nat.div_lt_iff_lt_mul h).1 hlt
    calc num < 2 ^ (k + 24) * den := this
      _ = den * 2 ^ k * 2 ^ 24 := by rw [pow_add]; ring
  constructor
  · have hm := roundHalfEven_mono num (den * 2 ^ k) (2 ^ 24 * 1) 1 hp one_pos (by rw [Nat.mul_one, Nat.mul_one, Nat.mul_comm]; omega)
    rwa [roundHalfEven_exact _ _ one_pos] at hm
  · intro hk0
    have h0 : num / den ≠ 0 := by
      intro e
      rw [spacingLog, e, show Nat.log2 0 = 0 by rfl] at hk
      omega
    have hle : 2 ^ (k + 23) ≤ num / den := by
      have := Nat.log2_self_le h0
      refine le_trans (Nat.pow_le_pow_right (by norm_num) ?_) this
      simp only [spacingLog] at hk
      omega
    have hnum2 : den * 2 ^ k * 2 ^ 23 ≤ num := by
      have := (Nat.le_div_iff_mul_le h).1 hle
      calc den * 2 ^ k * 2 ^ 23 = 2 ^ (k + 23) * den := by rw [pow_add]; ring
        _ ≤ num := this
    have hm := roundHalfEven_mono (2 ^ 23 * 1) 1 num (den * 2 ^ k) one_pos hp (by rw [Nat.mul_one, Nat.mul_one, Nat.mul_comm]; omega)
    rwa [roundHalfEven_exact _ _ one_pos] at hm

theorem spacingLog_mono (a b c d : Nat) (hb : 0 < b) (hd : 0 < d) (h : a * d ≤ c * b) : spacingLog a b ≤ spacingLog c d := by
  have hq : a / b ≤ c / d := by
    rw [Nat.le_div_iff_mul_le hd]
    have h1 : a / b * b ≤ a := Nat.div_mul_le_self a b
    have h2 : a / b * d * b ≤ c * b := by
      calc a / b * d * b = a / b * b * d := by ring
        _ ≤ a * d := Nat.mul_le_mul_right d h1
        _ ≤ c * b := h
    exact Nat.le_of_mul_le_mul_right h2 hb
  simp only [spacingLog, Nat.log2_eq_log_two]
  have := Nat.log_mono_right (b := 2) hq
  omega

/-- Rounding is monotone in the value rounded. -/
theorem roundMagBits_mono (a b c d : Nat) (hb : 0 < b) (hd : 0 < d) (h : a * d ≤ c * b) :
    roundMagBits a b ≤ roundMagBits c d := by
  have hk := spacingLog_mono a b c d hb hd h
  have h1 := (roundedSig_bounds a b hb).1
  have h2 := (roundedSig_bounds c d hd).2
  simp only [roundMagBits]
  refine min_le_min_right _ ?_
  rcases Nat.lt_or_ge (spacingLog a b) (spacingLog c d) with hlt | hge
  · have := h2 (by omega)
    generalize roundHalfEven a (b * 2 ^ spacingLog a b) = x at *
    generalize roundHalfEven c (d * 2 ^ spacingLog c d) = y at *
    omega
  · have he : spacingLog a b = spacingLog c d := by omega
    rw [he]
    refine Nat.add_le_add_left (roundHalfEven_mono _ _ _ _ (by positivity) (by positivity) ?_) _
    calc a * (d * 2 ^ spacingLog c d) = a * d * 2 ^ spacingLog c d := by ring
      _ ≤ c * b * 2 ^ spacingLog c d := Nat.mul_le_mul_right _ h
      _ = c * (b * 2 ^ spacingLog c d) := by ring

theorem spacingLog_bitsValue (m den : Nat) (h : 0 < den) : spacingLog (bitsValue m * den) den = m / 2 ^ 23 - 1 := by
  rw [spacingLog, Nat.mul_div_cancel _ h, bitsValue]
  split
  · by_cases h0 : m = 0
    · subst h0; rfl
    · have : Nat.log2 m < 23 := (Nat.log2_lt h0).2 (by omega)
      omega
  · have hne : (2 ^ 23 + m % 2 ^ 23) * 2 ^ (m / 2 ^ 23 - 1) ≠ 0 := by positivity
    have hlog : Nat.log2 ((2 ^ 23 + m % 2 ^ 23) * 2 ^ (m / 2 ^ 23 - 1)) = 23 + (m / 2 ^ 23 - 1) := by
      rw [Nat.log2_eq_iff hne]
      constructor
      · rw [pow_add]; exact Nat.mul_le_mul_right _ (by omega)
      · rw [show 23 + (m / 2 ^ 23 - 1) + 1 = 24 + (m / 2 ^ 23 - 1) by omega, pow_add]
        exact Nat.mul_lt_mul_of_pos_right (by omega) (by positivity)
    omega

/-- What is representable is kept. -/
theorem roundMagBits_exact (m den : Nat) (h : 0 < den) (hm : m ≤ 0x7F800000) :
    roundMagBits (bitsValue m * den) den = m := by
  simp only [roundMagBits, spacingLog_bitsValue m den h]
  have hsig : roundHalfEven (bitsValue m * den) (den * 2 ^ (m / 2 ^ 23 - 1)) =
      if m / 2 ^ 23 = 0 then m else 2 ^ 23 + m % 2 ^ 23 := by
    rw [bitsValue]
    split
    · rename_i h0
      rw [h0, pow_zero, Nat.mul_one, roundHalfEven_exact _ _ h]
    · rw [show (2 ^ 23 + m % 2 ^ 23) * 2 ^ (m / 2 ^ 23 - 1) * den =
        (2 ^ 23 + m % 2 ^ 23) * (den * 2 ^ (m / 2 ^ 23 - 1)) by ring, roundHalfEven_exact _ _ (by positivity)]
  rw [hsig]
  split <;> omega

theorem roundMagBits_le (num den : Nat) : roundMagBits num den ≤ 0x7F800000 := by
  simp only [roundMagBits]; exact Nat.min_le_right _ _

/-- A value at most a representable one rounds to at most it. -/
theorem roundMagBits_le_of_le (num den m : Nat) (h : 0 < den) (hm : m ≤ 0x7F800000) (hle : num ≤ bitsValue m * den) :
    roundMagBits num den ≤ m := by
  have := roundMagBits_mono num den (bitsValue m * den) den h h (Nat.mul_le_mul_right den hle)
  rwa [roundMagBits_exact m den h hm] at this

/-- A value at least a representable one rounds to at least it. -/
theorem le_roundMagBits_of_le (num den m : Nat) (h : 0 < den) (hm : m ≤ 0x7F800000) (hle : bitsValue m * den ≤ num) :
    m ≤ roundMagBits num den := by
  have := roundMagBits_mono (bitsValue m * den) den num den h h (Nat.mul_le_mul_right den hle)
  rwa [roundMagBits_exact m den h hm] at this

@[simp] theorem signBit_roundMag (neg : Bool) (num den : Nat) : signBit (roundMag neg num den) = neg :=
  signBit_withSign neg _ (lt_of_le_of_lt (roundMagBits_le num den) (by norm_num))

theorem magnitude_roundMag (neg : Bool) (num den : Nat) :
    magnitude (roundMag neg num den) = bitsValue (roundMagBits num den) :=
  magnitude_withSign neg _ (lt_of_le_of_lt (roundMagBits_le num den) (by norm_num))

end Sys2Proof.Machine
end

