-- ==== Sys2Proof/Laws/State.lean ====
section
/-! SUPPORT. One lemma for each field and each named update of the state, so that no proof unfolds a record update. -/

namespace Sys2Proof.Machine

/-! ### Fault entry (R186) -/

@[simp] theorem State.raise_eng (s : State) (c : Cause) (info : Word) : (s.raise c info).eng = .idle := rfl
@[simp] theorem State.raise_ready (s : State) (c : Cause) (info : Word) : (s.raise c info).ready = s.ready := rfl
@[simp] theorem State.raise_fault (s : State) (c : Cause) (info : Word) : (s.raise c info).fault = true := rfl
@[simp] theorem State.raise_code (s : State) (c : Cause) (info : Word) : (s.raise c info).code = c.code := rfl
@[simp] theorem State.raise_faultInfo (s : State) (c : Cause) (info : Word) : (s.raise c info).faultInfo = info := rfl
@[simp] theorem State.raise_regs (s : State) (c : Cause) (info : Word) : (s.raise c info).regs = s.regs := rfl
@[simp] theorem State.raise_sample (s : State) (c : Cause) (info : Word) : (s.raise c info).sample = s.sample := rfl
@[simp] theorem State.raise_level (s : State) (c : Cause) (info : Word) : (s.raise c info).level = s.level := rfl
@[simp] theorem State.raise_n (s : State) (c : Cause) (info : Word) : (s.raise c info).n = s.n := rfl
@[simp] theorem State.raise_vc (s : State) (c : Cause) (info : Word) : (s.raise c info).vc = s.vc := rfl
@[simp] theorem State.raise_table (s : State) (c : Cause) (info : Word) : (s.raise c info).table = s.table := rfl
@[simp] theorem State.raise_phase (s : State) (c : Cause) (info : Word) : (s.raise c info).phase = s.phase := rfl
@[simp] theorem State.raise_pinc (s : State) (c : Cause) (info : Word) : (s.raise c info).pinc = s.pinc := rfl
@[simp] theorem State.raise_outL (s : State) (c : Cause) (info : Word) : (s.raise c info).outL = s.outL := rfl
@[simp] theorem State.raise_outR (s : State) (c : Cause) (info : Word) : (s.raise c info).outR = s.outR := rfl
@[simp] theorem State.raise_draws (s : State) (c : Cause) (info : Word) : (s.raise c info).draws = s.draws := rfl
@[simp] theorem State.raise_caps (s : State) (c : Cause) (info : Word) : (s.raise c info).caps = s.caps := rfl
@[simp] theorem State.raise_pending (s : State) (c : Cause) (info : Word) : (s.raise c info).pending = s.pending := rfl
@[simp] theorem State.raise_answers (s : State) (c : Cause) (info : Word) : (s.raise c info).answers = s.answers := rfl

/-! ### Completion (R151) -/

@[simp] theorem State.complete_eng (s : State) : (s.complete).eng = .idle := rfl
@[simp] theorem State.complete_ready (s : State) : (s.complete).ready = s.ready := rfl
@[simp] theorem State.complete_fault (s : State) : (s.complete).fault = s.fault := rfl
@[simp] theorem State.complete_code (s : State) : (s.complete).code = s.code := rfl
@[simp] theorem State.complete_faultInfo (s : State) : (s.complete).faultInfo = s.faultInfo := rfl
@[simp] theorem State.complete_regs (s : State) : (s.complete).regs = s.regs := rfl
@[simp] theorem State.complete_sample (s : State) : (s.complete).sample = s.sample := rfl
@[simp] theorem State.complete_level (s : State) : (s.complete).level = s.level := rfl
@[simp] theorem State.complete_n (s : State) : (s.complete).n = s.n := rfl
@[simp] theorem State.complete_vc (s : State) : (s.complete).vc = s.vc := rfl
@[simp] theorem State.complete_table (s : State) : (s.complete).table = s.table := rfl
@[simp] theorem State.complete_phase (s : State) : (s.complete).phase = s.phase := rfl
@[simp] theorem State.complete_pinc (s : State) : (s.complete).pinc = s.pinc := rfl
@[simp] theorem State.complete_outL (s : State) : (s.complete).outL = s.outL := rfl
@[simp] theorem State.complete_outR (s : State) : (s.complete).outR = s.outR := rfl
@[simp] theorem State.complete_draws (s : State) : (s.complete).draws = s.draws := rfl
@[simp] theorem State.complete_caps (s : State) : (s.complete).caps = s.caps := rfl
@[simp] theorem State.complete_pending (s : State) : (s.complete).pending = s.pending := rfl
@[simp] theorem State.complete_answers (s : State) : (s.complete).answers = s.answers := rfl

/-! ### Acceptance (R151) -/

@[simp] theorem State.accept_eng (s : State) (w : Word) : (s.accept w).eng = .run w s.regs := rfl
@[simp] theorem State.accept_ready (s : State) (w : Word) : (s.accept w).ready = s.ready := rfl
@[simp] theorem State.accept_fault (s : State) (w : Word) : (s.accept w).fault = s.fault := rfl
@[simp] theorem State.accept_code (s : State) (w : Word) : (s.accept w).code = s.code := rfl
@[simp] theorem State.accept_faultInfo (s : State) (w : Word) : (s.accept w).faultInfo = s.faultInfo := rfl
@[simp] theorem State.accept_regs (s : State) (w : Word) : (s.accept w).regs = s.regs := rfl
@[simp] theorem State.accept_sample (s : State) (w : Word) : (s.accept w).sample = s.sample := rfl
@[simp] theorem State.accept_level (s : State) (w : Word) : (s.accept w).level = s.level := rfl
@[simp] theorem State.accept_n (s : State) (w : Word) : (s.accept w).n = s.n := rfl
@[simp] theorem State.accept_vc (s : State) (w : Word) : (s.accept w).vc = s.vc := rfl
@[simp] theorem State.accept_table (s : State) (w : Word) : (s.accept w).table = s.table := rfl
@[simp] theorem State.accept_phase (s : State) (w : Word) : (s.accept w).phase = s.phase := rfl
@[simp] theorem State.accept_pinc (s : State) (w : Word) : (s.accept w).pinc = s.pinc := rfl
@[simp] theorem State.accept_outL (s : State) (w : Word) : (s.accept w).outL = s.outL := rfl
@[simp] theorem State.accept_outR (s : State) (w : Word) : (s.accept w).outR = s.outR := rfl
@[simp] theorem State.accept_draws (s : State) (w : Word) : (s.accept w).draws = s.draws := rfl
@[simp] theorem State.accept_caps (s : State) (w : Word) : (s.accept w).caps = s.caps := rfl
@[simp] theorem State.accept_pending (s : State) (w : Word) : (s.accept w).pending = s.pending := rfl
@[simp] theorem State.accept_answers (s : State) (w : Word) : (s.accept w).answers = s.answers := rfl

/-! ### Table construction (R100) -/

@[simp] theorem tableBuild_eng (s : State) (N : Nat) : (tableBuild s N).eng = s.eng := rfl
@[simp] theorem tableBuild_ready (s : State) (N : Nat) : (tableBuild s N).ready = s.ready := rfl
@[simp] theorem tableBuild_fault (s : State) (N : Nat) : (tableBuild s N).fault = s.fault := rfl
@[simp] theorem tableBuild_code (s : State) (N : Nat) : (tableBuild s N).code = s.code := rfl
@[simp] theorem tableBuild_faultInfo (s : State) (N : Nat) : (tableBuild s N).faultInfo = s.faultInfo := rfl
@[simp] theorem tableBuild_regs (s : State) (N : Nat) : (tableBuild s N).regs = s.regs := rfl
@[simp] theorem tableBuild_sample (s : State) (N : Nat) : (tableBuild s N).sample = s.sample := rfl
@[simp] theorem tableBuild_level (s : State) (N : Nat) : (tableBuild s N).level = s.level := rfl
@[simp] theorem tableBuild_n (s : State) (N : Nat) : (tableBuild s N).n = s.n := rfl
@[simp] theorem tableBuild_vc (s : State) (N : Nat) : (tableBuild s N).vc = s.vc := rfl
@[simp] theorem tableBuild_table (s : State) (N : Nat) : (tableBuild s N).table = Mem.fill (tableWords N) s.table := rfl
@[simp] theorem tableBuild_phase (s : State) (N : Nat) : (tableBuild s N).phase = s.phase := rfl
@[simp] theorem tableBuild_pinc (s : State) (N : Nat) : (tableBuild s N).pinc = s.pinc := rfl
@[simp] theorem tableBuild_outL (s : State) (N : Nat) : (tableBuild s N).outL = s.outL := rfl
@[simp] theorem tableBuild_outR (s : State) (N : Nat) : (tableBuild s N).outR = s.outR := rfl
@[simp] theorem tableBuild_draws (s : State) (N : Nat) : (tableBuild s N).draws = s.draws := rfl
@[simp] theorem tableBuild_caps (s : State) (N : Nat) : (tableBuild s N).caps = s.caps := rfl
@[simp] theorem tableBuild_pending (s : State) (N : Nat) : (tableBuild s N).pending = s.pending := rfl
@[simp] theorem tableBuild_answers (s : State) (N : Nat) : (tableBuild s N).answers = s.answers := rfl

/-! ### Preparation of the voice set (R130) -/

@[simp] theorem prepare_eng (s : State) (sr : Word) (count : Nat) : (prepare s sr count).eng = s.eng := rfl
@[simp] theorem prepare_ready (s : State) (sr : Word) (count : Nat) : (prepare s sr count).ready = s.ready := rfl
@[simp] theorem prepare_fault (s : State) (sr : Word) (count : Nat) : (prepare s sr count).fault = s.fault := rfl
@[simp] theorem prepare_code (s : State) (sr : Word) (count : Nat) : (prepare s sr count).code = s.code := rfl
@[simp] theorem prepare_faultInfo (s : State) (sr : Word) (count : Nat) : (prepare s sr count).faultInfo = s.faultInfo := rfl
@[simp] theorem prepare_regs (s : State) (sr : Word) (count : Nat) : (prepare s sr count).regs = s.regs := rfl
@[simp] theorem prepare_sample (s : State) (sr : Word) (count : Nat) : (prepare s sr count).sample = s.sample := rfl
@[simp] theorem prepare_level (s : State) (sr : Word) (count : Nat) : (prepare s sr count).level = mixLevel count := rfl
@[simp] theorem prepare_n (s : State) (sr : Word) (count : Nat) : (prepare s sr count).n = s.n := rfl
@[simp] theorem prepare_vc (s : State) (sr : Word) (count : Nat) : (prepare s sr count).vc = count := rfl
@[simp] theorem prepare_table (s : State) (sr : Word) (count : Nat) : (prepare s sr count).table = s.table := rfl
@[simp] theorem prepare_phase (s : State) (sr : Word) (count : Nat) : (prepare s sr count).phase = Mem.fill (List.replicate count 0) s.phase := rfl
@[simp] theorem prepare_pinc (s : State) (sr : Word) (count : Nat) : (prepare s sr count).pinc = Mem.fill (freshIncrements s.n s.draws sr count) s.pinc := rfl
@[simp] theorem prepare_outL (s : State) (sr : Word) (count : Nat) : (prepare s sr count).outL = s.outL := rfl
@[simp] theorem prepare_outR (s : State) (sr : Word) (count : Nat) : (prepare s sr count).outR = s.outR := rfl
@[simp] theorem prepare_draws (s : State) (sr : Word) (count : Nat) : (prepare s sr count).draws = s.draws + count := rfl
@[simp] theorem prepare_caps (s : State) (sr : Word) (count : Nat) : (prepare s sr count).caps = s.caps := rfl
@[simp] theorem prepare_pending (s : State) (sr : Word) (count : Nat) : (prepare s sr count).pending = s.pending := rfl
@[simp] theorem prepare_answers (s : State) (sr : Word) (count : Nat) : (prepare s sr count).answers = s.answers := rfl

/-! ### Frequency setting (R116) -/

@[simp] theorem setFrequency_eng (s : State) (v : Nat) (f sr : Word) : (setFrequency s v f sr).eng = s.eng := rfl
@[simp] theorem setFrequency_ready (s : State) (v : Nat) (f sr : Word) : (setFrequency s v f sr).ready = s.ready := rfl
@[simp] theorem setFrequency_fault (s : State) (v : Nat) (f sr : Word) : (setFrequency s v f sr).fault = s.fault := rfl
@[simp] theorem setFrequency_code (s : State) (v : Nat) (f sr : Word) : (setFrequency s v f sr).code = s.code := rfl
@[simp] theorem setFrequency_faultInfo (s : State) (v : Nat) (f sr : Word) : (setFrequency s v f sr).faultInfo = s.faultInfo := rfl
@[simp] theorem setFrequency_regs (s : State) (v : Nat) (f sr : Word) : (setFrequency s v f sr).regs = s.regs := rfl
@[simp] theorem setFrequency_sample (s : State) (v : Nat) (f sr : Word) : (setFrequency s v f sr).sample = s.sample := rfl
@[simp] theorem setFrequency_level (s : State) (v : Nat) (f sr : Word) : (setFrequency s v f sr).level = s.level := rfl
@[simp] theorem setFrequency_n (s : State) (v : Nat) (f sr : Word) : (setFrequency s v f sr).n = s.n := rfl
@[simp] theorem setFrequency_vc (s : State) (v : Nat) (f sr : Word) : (setFrequency s v f sr).vc = s.vc := rfl
@[simp] theorem setFrequency_table (s : State) (v : Nat) (f sr : Word) : (setFrequency s v f sr).table = s.table := rfl
@[simp] theorem setFrequency_phase (s : State) (v : Nat) (f sr : Word) : (setFrequency s v f sr).phase = s.phase := rfl
@[simp] theorem setFrequency_pinc (s : State) (v : Nat) (f sr : Word) : (setFrequency s v f sr).pinc = s.pinc.set v (increment s.n f sr) := rfl
@[simp] theorem setFrequency_outL (s : State) (v : Nat) (f sr : Word) : (setFrequency s v f sr).outL = s.outL := rfl
@[simp] theorem setFrequency_outR (s : State) (v : Nat) (f sr : Word) : (setFrequency s v f sr).outR = s.outR := rfl
@[simp] theorem setFrequency_draws (s : State) (v : Nat) (f sr : Word) : (setFrequency s v f sr).draws = s.draws := rfl
@[simp] theorem setFrequency_caps (s : State) (v : Nat) (f sr : Word) : (setFrequency s v f sr).caps = s.caps := rfl
@[simp] theorem setFrequency_pending (s : State) (v : Nat) (f sr : Word) : (setFrequency s v f sr).pending = s.pending := rfl
@[simp] theorem setFrequency_answers (s : State) (v : Nat) (f sr : Word) : (setFrequency s v f sr).answers = s.answers := rfl

/-! ### One contribution to a frame (R135) -/

@[simp] theorem mixInto_eng (s : State) (f : Nat) (m : Word) : (mixInto s f m).eng = s.eng := rfl
@[simp] theorem mixInto_ready (s : State) (f : Nat) (m : Word) : (mixInto s f m).ready = s.ready := rfl
@[simp] theorem mixInto_fault (s : State) (f : Nat) (m : Word) : (mixInto s f m).fault = s.fault := rfl
@[simp] theorem mixInto_code (s : State) (f : Nat) (m : Word) : (mixInto s f m).code = s.code := rfl
@[simp] theorem mixInto_faultInfo (s : State) (f : Nat) (m : Word) : (mixInto s f m).faultInfo = s.faultInfo := rfl
@[simp] theorem mixInto_regs (s : State) (f : Nat) (m : Word) : (mixInto s f m).regs = s.regs := rfl
@[simp] theorem mixInto_sample (s : State) (f : Nat) (m : Word) : (mixInto s f m).sample = s.sample := rfl
@[simp] theorem mixInto_level (s : State) (f : Nat) (m : Word) : (mixInto s f m).level = s.level := rfl
@[simp] theorem mixInto_n (s : State) (f : Nat) (m : Word) : (mixInto s f m).n = s.n := rfl
@[simp] theorem mixInto_vc (s : State) (f : Nat) (m : Word) : (mixInto s f m).vc = s.vc := rfl
@[simp] theorem mixInto_table (s : State) (f : Nat) (m : Word) : (mixInto s f m).table = s.table := rfl
@[simp] theorem mixInto_phase (s : State) (f : Nat) (m : Word) : (mixInto s f m).phase = s.phase := rfl
@[simp] theorem mixInto_pinc (s : State) (f : Nat) (m : Word) : (mixInto s f m).pinc = s.pinc := rfl
@[simp] theorem mixInto_outL (s : State) (f : Nat) (m : Word) : (mixInto s f m).outL = s.outL.set f (fadd (s.read .outL f) m) := rfl
@[simp] theorem mixInto_outR (s : State) (f : Nat) (m : Word) : (mixInto s f m).outR = s.outR.set f (fadd (s.read .outR f) m) := rfl
@[simp] theorem mixInto_draws (s : State) (f : Nat) (m : Word) : (mixInto s f m).draws = s.draws := rfl
@[simp] theorem mixInto_caps (s : State) (f : Nat) (m : Word) : (mixInto s f m).caps = s.caps := rfl
@[simp] theorem mixInto_pending (s : State) (f : Nat) (m : Word) : (mixInto s f m).pending = s.pending := rfl
@[simp] theorem mixInto_answers (s : State) (f : Nat) (m : Word) : (mixInto s f m).answers = s.answers := rfl

/-! ### The host's turn -/

@[simp] theorem hostTurn_eng (s : State) (t : Txn) (rest : List Event) : (hostTurn s t rest).eng = (transact s t).1.eng := rfl
@[simp] theorem hostTurn_ready (s : State) (t : Txn) (rest : List Event) : (hostTurn s t rest).ready = (transact s t).1.ready := rfl
@[simp] theorem hostTurn_fault (s : State) (t : Txn) (rest : List Event) : (hostTurn s t rest).fault = (transact s t).1.fault := rfl
@[simp] theorem hostTurn_code (s : State) (t : Txn) (rest : List Event) : (hostTurn s t rest).code = (transact s t).1.code := rfl
@[simp] theorem hostTurn_faultInfo (s : State) (t : Txn) (rest : List Event) : (hostTurn s t rest).faultInfo = (transact s t).1.faultInfo := rfl
@[simp] theorem hostTurn_regs (s : State) (t : Txn) (rest : List Event) : (hostTurn s t rest).regs = (transact s t).1.regs := rfl
@[simp] theorem hostTurn_sample (s : State) (t : Txn) (rest : List Event) : (hostTurn s t rest).sample = (transact s t).1.sample := rfl
@[simp] theorem hostTurn_level (s : State) (t : Txn) (rest : List Event) : (hostTurn s t rest).level = (transact s t).1.level := rfl
@[simp] theorem hostTurn_n (s : State) (t : Txn) (rest : List Event) : (hostTurn s t rest).n = (transact s t).1.n := rfl
@[simp] theorem hostTurn_vc (s : State) (t : Txn) (rest : List Event) : (hostTurn s t rest).vc = (transact s t).1.vc := rfl
@[simp] theorem hostTurn_table (s : State) (t : Txn) (rest : List Event) : (hostTurn s t rest).table = (transact s t).1.table := rfl
@[simp] theorem hostTurn_phase (s : State) (t : Txn) (rest : List Event) : (hostTurn s t rest).phase = (transact s t).1.phase := rfl
@[simp] theorem hostTurn_pinc (s : State) (t : Txn) (rest : List Event) : (hostTurn s t rest).pinc = (transact s t).1.pinc := rfl
@[simp] theorem hostTurn_outL (s : State) (t : Txn) (rest : List Event) : (hostTurn s t rest).outL = (transact s t).1.outL := rfl
@[simp] theorem hostTurn_outR (s : State) (t : Txn) (rest : List Event) : (hostTurn s t rest).outR = (transact s t).1.outR := rfl
@[simp] theorem hostTurn_draws (s : State) (t : Txn) (rest : List Event) : (hostTurn s t rest).draws = (transact s t).1.draws := rfl
@[simp] theorem hostTurn_caps (s : State) (t : Txn) (rest : List Event) : (hostTurn s t rest).caps = (transact s t).1.caps := rfl
@[simp] theorem hostTurn_pending (s : State) (t : Txn) (rest : List Event) : (hostTurn s t rest).pending = rest := rfl
@[simp] theorem hostTurn_answers (s : State) (t : Txn) (rest : List Event) : (hostTurn s t rest).answers = (transact s t).2 :: s.answers := rfl

/-! ### A command word placed where the next step runs it -/

@[simp] theorem State.withFetchWord_eng (s : State) (nbits w : Nat) : (s.withFetchWord nbits w).eng = .run (Word.ofNat (w % 2 ^ nbits)) s.regs := rfl
@[simp] theorem State.withFetchWord_ready (s : State) (nbits w : Nat) : (s.withFetchWord nbits w).ready = s.ready := rfl
@[simp] theorem State.withFetchWord_fault (s : State) (nbits w : Nat) : (s.withFetchWord nbits w).fault = s.fault := rfl
@[simp] theorem State.withFetchWord_code (s : State) (nbits w : Nat) : (s.withFetchWord nbits w).code = s.code := rfl
@[simp] theorem State.withFetchWord_faultInfo (s : State) (nbits w : Nat) : (s.withFetchWord nbits w).faultInfo = s.faultInfo := rfl
@[simp] theorem State.withFetchWord_regs (s : State) (nbits w : Nat) : (s.withFetchWord nbits w).regs = s.regs := rfl
@[simp] theorem State.withFetchWord_sample (s : State) (nbits w : Nat) : (s.withFetchWord nbits w).sample = s.sample := rfl
@[simp] theorem State.withFetchWord_level (s : State) (nbits w : Nat) : (s.withFetchWord nbits w).level = s.level := rfl
@[simp] theorem State.withFetchWord_n (s : State) (nbits w : Nat) : (s.withFetchWord nbits w).n = s.n := rfl
@[simp] theorem State.withFetchWord_vc (s : State) (nbits w : Nat) : (s.withFetchWord nbits w).vc = s.vc := rfl
@[simp] theorem State.withFetchWord_table (s : State) (nbits w : Nat) : (s.withFetchWord nbits w).table = s.table := rfl
@[simp] theorem State.withFetchWord_phase (s : State) (nbits w : Nat) : (s.withFetchWord nbits w).phase = s.phase := rfl
@[simp] theorem State.withFetchWord_pinc (s : State) (nbits w : Nat) : (s.withFetchWord nbits w).pinc = s.pinc := rfl
@[simp] theorem State.withFetchWord_outL (s : State) (nbits w : Nat) : (s.withFetchWord nbits w).outL = s.outL := rfl
@[simp] theorem State.withFetchWord_outR (s : State) (nbits w : Nat) : (s.withFetchWord nbits w).outR = s.outR := rfl
@[simp] theorem State.withFetchWord_draws (s : State) (nbits w : Nat) : (s.withFetchWord nbits w).draws = s.draws := rfl
@[simp] theorem State.withFetchWord_caps (s : State) (nbits w : Nat) : (s.withFetchWord nbits w).caps = s.caps := rfl
@[simp] theorem State.withFetchWord_pending (s : State) (nbits w : Nat) : (s.withFetchWord nbits w).pending = .engine :: s.pending := rfl
@[simp] theorem State.withFetchWord_answers (s : State) (nbits w : Nat) : (s.withFetchWord nbits w).answers = s.answers := rfl

/-! ### A write to a memory changes no register and no other memory -/

@[simp] theorem State.setMem_eng (s : State) (sp : Space) (m : Mem) : (s.setMem sp m).eng = s.eng := by cases sp <;> rfl
@[simp] theorem State.setMem_ready (s : State) (sp : Space) (m : Mem) : (s.setMem sp m).ready = s.ready := by cases sp <;> rfl
@[simp] theorem State.setMem_fault (s : State) (sp : Space) (m : Mem) : (s.setMem sp m).fault = s.fault := by cases sp <;> rfl
@[simp] theorem State.setMem_code (s : State) (sp : Space) (m : Mem) : (s.setMem sp m).code = s.code := by cases sp <;> rfl
@[simp] theorem State.setMem_faultInfo (s : State) (sp : Space) (m : Mem) : (s.setMem sp m).faultInfo = s.faultInfo := by cases sp <;> rfl
@[simp] theorem State.setMem_regs (s : State) (sp : Space) (m : Mem) : (s.setMem sp m).regs = s.regs := by cases sp <;> rfl
@[simp] theorem State.setMem_sample (s : State) (sp : Space) (m : Mem) : (s.setMem sp m).sample = s.sample := by cases sp <;> rfl
@[simp] theorem State.setMem_level (s : State) (sp : Space) (m : Mem) : (s.setMem sp m).level = s.level := by cases sp <;> rfl
@[simp] theorem State.setMem_n (s : State) (sp : Space) (m : Mem) : (s.setMem sp m).n = s.n := by cases sp <;> rfl
@[simp] theorem State.setMem_vc (s : State) (sp : Space) (m : Mem) : (s.setMem sp m).vc = s.vc := by cases sp <;> rfl
@[simp] theorem State.setMem_draws (s : State) (sp : Space) (m : Mem) : (s.setMem sp m).draws = s.draws := by cases sp <;> rfl
@[simp] theorem State.setMem_caps (s : State) (sp : Space) (m : Mem) : (s.setMem sp m).caps = s.caps := by cases sp <;> rfl
@[simp] theorem State.setMem_pending (s : State) (sp : Space) (m : Mem) : (s.setMem sp m).pending = s.pending := by cases sp <;> rfl
@[simp] theorem State.setMem_answers (s : State) (sp : Space) (m : Mem) : (s.setMem sp m).answers = s.answers := by cases sp <;> rfl

@[simp] theorem State.write_eng (s : State) (sp : Space) (i : Nat) (w : Word) : (s.write sp i w).eng = s.eng := by cases sp <;> rfl
@[simp] theorem State.write_ready (s : State) (sp : Space) (i : Nat) (w : Word) : (s.write sp i w).ready = s.ready := by cases sp <;> rfl
@[simp] theorem State.write_fault (s : State) (sp : Space) (i : Nat) (w : Word) : (s.write sp i w).fault = s.fault := by cases sp <;> rfl
@[simp] theorem State.write_code (s : State) (sp : Space) (i : Nat) (w : Word) : (s.write sp i w).code = s.code := by cases sp <;> rfl
@[simp] theorem State.write_faultInfo (s : State) (sp : Space) (i : Nat) (w : Word) : (s.write sp i w).faultInfo = s.faultInfo := by cases sp <;> rfl
@[simp] theorem State.write_regs (s : State) (sp : Space) (i : Nat) (w : Word) : (s.write sp i w).regs = s.regs := by cases sp <;> rfl
@[simp] theorem State.write_sample (s : State) (sp : Space) (i : Nat) (w : Word) : (s.write sp i w).sample = s.sample := by cases sp <;> rfl
@[simp] theorem State.write_level (s : State) (sp : Space) (i : Nat) (w : Word) : (s.write sp i w).level = s.level := by cases sp <;> rfl
@[simp] theorem State.write_n (s : State) (sp : Space) (i : Nat) (w : Word) : (s.write sp i w).n = s.n := by cases sp <;> rfl
@[simp] theorem State.write_vc (s : State) (sp : Space) (i : Nat) (w : Word) : (s.write sp i w).vc = s.vc := by cases sp <;> rfl
@[simp] theorem State.write_draws (s : State) (sp : Space) (i : Nat) (w : Word) : (s.write sp i w).draws = s.draws := by cases sp <;> rfl
@[simp] theorem State.write_caps (s : State) (sp : Space) (i : Nat) (w : Word) : (s.write sp i w).caps = s.caps := by cases sp <;> rfl
@[simp] theorem State.write_pending (s : State) (sp : Space) (i : Nat) (w : Word) : (s.write sp i w).pending = s.pending := by cases sp <;> rfl
@[simp] theorem State.write_answers (s : State) (sp : Space) (i : Nat) (w : Word) : (s.write sp i w).answers = s.answers := by cases sp <;> rfl

@[simp] theorem State.mem_setMem_same (s : State) (sp : Space) (m : Mem) : (s.setMem sp m).mem sp = m := by cases sp <;> rfl

@[simp] theorem State.mem_setMem_other (s : State) (sp sp' : Space) (m : Mem) (h : sp' ≠ sp) :
    (s.setMem sp m).mem sp' = s.mem sp' := by cases sp <;> cases sp' <;> first | rfl | exact absurd rfl h

theorem State.mem_write (s : State) (sp sp' : Space) (i : Nat) (w : Word) :
    (s.write sp i w).mem sp' = if sp' = sp then (s.mem sp).set i w else s.mem sp' := by
  cases sp <;> cases sp' <;> rfl

/-! ### Reading a space depends on its memory alone -/

theorem State.read_congr (s t : State) (sp : Space) (i : Nat) (h : s.mem sp = t.mem sp) : s.read sp i = t.read sp i := by
  simp [State.read, h]

@[simp] theorem State.read_raise (s : State) (c : Cause) (info : Word) (sp : Space) (i : Nat) :
    (s.raise c info).read sp i = s.read sp i := by cases sp <;> rfl

@[simp] theorem State.read_complete (s : State) (sp : Space) (i : Nat) : s.complete.read sp i = s.read sp i := by
  cases sp <;> rfl

@[simp] theorem State.read_accept (s : State) (w : Word) (sp : Space) (i : Nat) : (s.accept w).read sp i = s.read sp i := by
  cases sp <;> rfl

/-! ### The operands of a command (R152) -/

@[simp] theorem State.operands_run (s : State) (cmd : Word) (ops : Operands) (h : s.eng = .run cmd ops) :
    s.operands = ops := by simp [State.operands, h]

@[simp] theorem State.operands_accept (s : State) (w : Word) : (s.accept w).operands = s.regs := rfl

end Sys2Proof.Machine
end

