-- ==== Sys2Proof/Laws/Ops.lean ====
section
/-! SUPPORT. What the operations on memories do: a read after a write, what a write leaves alone, and that every operation
keeps the canonical form. -/

namespace Sys2Proof.Machine

/-! ### Reads after writes -/

theorem Mem.get_set_same (m : Mem) (i : Nat) (w : Word) : (m.set i w).get i = some w := by
  induction m with
  | nil => simp [Mem.set, Mem.get]
  | cons c rest ih =>
    obtain ⟨k, x⟩ := c
    simp only [Mem.set]
    split
    · simp [Mem.get]
    · split
      · simp [Mem.get]
      · have h : ¬ k = i := by assumption
        have h' : ¬ i < k := by assumption
        simp [Mem.get, h, h', ih]

theorem Mem.get_set_other (m : Mem) (i j : Nat) (w : Word) (h : j ≠ i) : (m.set i w).get j = m.get j := by
  induction m with
  | nil => simp [Mem.set, Mem.get, Ne.symm h]
  | cons c rest ih =>
    obtain ⟨k, x⟩ := c
    simp only [Mem.set]
    split
    · rename_i hk
      subst hk
      simp [Mem.get, Ne.symm h]
    · split
      · rename_i hk hik
        simp only [Mem.get, Ne.symm h, if_false]
        split
        · rw [if_neg (by omega), if_pos (by omega)]
        · rfl
      · simp only [Mem.get]
        split
        · rfl
        · split
          · rfl
          · exact ih

theorem Mem.get_numbered (ws : List Word) (k j : Nat) (h : k ≤ j) : (Mem.numbered k ws).get j = ws[j - k]? := by
  induction ws generalizing k with
  | nil => simp [Mem.numbered, Mem.get]
  | cons w ws ih =>
    simp only [Mem.numbered, Mem.get]
    by_cases hk : k = j
    · subst hk; simp
    · rw [if_neg hk, if_neg (by omega), ih (k + 1) (by omega), show j - k = (j - (k + 1)) + 1 by omega]
      simp

theorem Mem.get_numbered_append_above (ws : List Word) (m : Mem) (k j : Nat) (h : k + ws.length ≤ j) :
    (Mem.numbered k ws ++ m).get j = m.get j := by
  induction ws generalizing k with
  | nil => simp [Mem.numbered]
  | cons w ws ih =>
    simp only [List.length_cons] at h
    simp only [Mem.numbered, List.cons_append, Mem.get]
    rw [if_neg (by omega), if_neg (by omega), ih (k + 1) (by omega)]

theorem Mem.get_numbered_append_below (ws : List Word) (m : Mem) (k j : Nat) (h : k ≤ j) (h' : j < k + ws.length) :
    (Mem.numbered k ws ++ m).get j = ws[j - k]? := by
  induction ws generalizing k with
  | nil => simp at h'; omega
  | cons w ws ih =>
    simp only [List.length_cons] at h'
    simp only [Mem.numbered, List.cons_append, Mem.get]
    by_cases hk : k = j
    · subst hk; simp
    · rw [if_neg hk, if_neg (by omega), ih (k + 1) (by omega) (by omega), show j - k = (j - (k + 1)) + 1 by omega]
      simp

theorem Mem.get_filter_above (m : Mem) (low j : Nat) (h : low ≤ j) :
    Mem.get (m.filter (fun c => decide (low ≤ c.1))) j = m.get j := by
  induction m with
  | nil => rfl
  | cons c rest ih =>
    obtain ⟨k, x⟩ := c
    by_cases hk : low ≤ k
    · simp [List.filter, hk, Mem.get, ih]
    · rw [List.filter_cons_of_neg (by simpa using hk), ih]
      simp only [Mem.get]
      rw [if_neg (by omega), if_neg (by omega)]

/-- The words a fill writes. -/
theorem Mem.get_fill_below (ws : List Word) (m : Mem) (j : Nat) (h : j < ws.length) : (Mem.fill ws m).get j = ws[j]? := by
  rw [Mem.fill, Mem.get_numbered_append_below ws _ 0 j (by omega) (by omega)]; simp

/-- What a fill leaves as it was. -/
theorem Mem.get_fill_above (ws : List Word) (m : Mem) (j : Nat) (h : ws.length ≤ j) : (Mem.fill ws m).get j = m.get j := by
  rw [Mem.fill, Mem.get_numbered_append_above ws _ 0 j (by omega), Mem.get_filter_above m _ j h]

/-! ### The same of the state's accessors -/

theorem State.read_setMem (s : State) (sp sp' : Space) (m : Mem) (j : Nat) :
    (s.setMem sp m).read sp' j = if sp' = sp then (m.get j).getD (Config.memAtReset sp j) else s.read sp' j := by
  cases sp <;> cases sp' <;> rfl

@[simp] theorem State.read_write_same (s : State) (sp : Space) (i : Nat) (w : Word) : (s.write sp i w).read sp i = w := by
  simp [State.read, State.mem_write, Mem.get_set_same]

theorem State.read_write_other (s : State) (sp sp' : Space) (i j : Nat) (w : Word) (h : (sp', j) ≠ (sp, i)) :
    (s.write sp i w).read sp' j = s.read sp' j := by
  by_cases hs : sp' = sp
  · subst hs
    have hj : j ≠ i := fun e => h (by rw [e])
    simp [State.read, State.mem_write, Mem.get_set_other _ _ _ _ hj]
  · simp [State.read, State.mem_write, hs]

/-! ### The canonical form -/

theorem Mem.wfFrom_mono (bound : Nat) (m : Mem) (a b : Nat) (h : a ≤ b) (hm : Mem.wfFrom bound b m = true) :
    Mem.wfFrom bound a m = true := by
  cases m with
  | nil => rfl
  | cons c rest =>
    obtain ⟨k, x⟩ := c
    simp only [Mem.wfFrom, Bool.and_eq_true, decide_eq_true_eq] at hm ⊢
    exact ⟨⟨by omega, hm.1.2⟩, hm.2⟩

theorem Mem.wfFrom_set (bound low : Nat) (m : Mem) (i : Nat) (w : Word) (hl : low ≤ i) (hi : i < bound)
    (hm : Mem.wfFrom bound low m = true) : Mem.wfFrom bound low (m.set i w) = true := by
  induction m generalizing low with
  | nil => simp [Mem.set, Mem.wfFrom, hl, hi]
  | cons c rest ih =>
    obtain ⟨k, x⟩ := c
    simp only [Mem.wfFrom, Bool.and_eq_true, decide_eq_true_eq] at hm
    obtain ⟨⟨hk, hkb⟩, hr⟩ := hm
    simp only [Mem.set]
    split
    · rename_i e; subst e
      simp [Mem.wfFrom, hk, hkb, hr]
    · split
      · simp only [Mem.wfFrom, Bool.and_eq_true, decide_eq_true_eq]
        exact ⟨⟨hl, hi⟩, ⟨by omega, hkb⟩, hr⟩
      · simp only [Mem.wfFrom, Bool.and_eq_true, decide_eq_true_eq]
        exact ⟨⟨hk, hkb⟩, ih (k + 1) (by omega) hr⟩

/-- A write to a location that exists keeps the canonical form. -/
theorem Mem.wf_set (bound : Nat) (m : Mem) (i : Nat) (w : Word) (hi : i < bound) (hm : Mem.wf bound m = true) :
    Mem.wf bound (m.set i w) = true := Mem.wfFrom_set bound 0 m i w (Nat.zero_le _) hi hm

theorem Mem.wfFrom_filter (bound low cut : Nat) (m : Mem) (hm : Mem.wfFrom bound low m = true) :
    Mem.wfFrom bound (max low cut) (m.filter (fun c => decide (cut ≤ c.1))) = true := by
  induction m generalizing low with
  | nil => rfl
  | cons c rest ih =>
    obtain ⟨k, x⟩ := c
    simp only [Mem.wfFrom, Bool.and_eq_true, decide_eq_true_eq] at hm
    obtain ⟨⟨hk, hkb⟩, hr⟩ := hm
    have hrec := ih (k + 1) hr
    by_cases hc : cut ≤ k
    · rw [List.filter_cons_of_pos (by simpa using hc)]
      simp only [Mem.wfFrom, Bool.and_eq_true, decide_eq_true_eq]
      exact ⟨⟨by omega, hkb⟩, by rwa [show max (k + 1) cut = k + 1 by omega] at hrec⟩
    · rw [List.filter_cons_of_neg (by simpa using hc)]
      exact Mem.wfFrom_mono bound _ _ _ (by omega) hrec

theorem Mem.wfFrom_numbered_append (bound : Nat) (ws : List Word) (m : Mem) (k : Nat) (hb : k + ws.length ≤ bound)
    (hm : Mem.wfFrom bound (k + ws.length) m = true) : Mem.wfFrom bound k (Mem.numbered k ws ++ m) = true := by
  induction ws generalizing k with
  | nil => simpa [Mem.numbered] using hm
  | cons w ws ih =>
    simp only [List.length_cons] at hb hm
    simp only [Mem.numbered, List.cons_append, Mem.wfFrom, Bool.and_eq_true, decide_eq_true_eq]
    exact ⟨⟨le_rfl, by omega⟩, ih (k + 1) (by omega) (by rwa [show k + 1 + ws.length = k + (ws.length + 1) by omega])⟩

/-- A fill of no more words than there are locations keeps the canonical form. -/
theorem Mem.wf_fill (bound : Nat) (ws : List Word) (m : Mem) (hb : ws.length ≤ bound) (hm : Mem.wf bound m = true) :
    Mem.wf bound (Mem.fill ws m) = true := by
  have h := Mem.wfFrom_filter bound 0 ws.length m hm
  rw [Nat.zero_max] at h
  exact Mem.wfFrom_numbered_append bound ws _ 0 (by omega) (by simpa using h)

/-- The memories of the reset state are in canonical form, on every implementation. -/
theorem State.reset_mem_wf (bound : Nat) (sp : Space) : Mem.wf bound (State.reset.mem sp) = true := by
  cases sp <;> rfl

/-- An element of a list made from indices. -/
theorem getElem?_map_range (f : Nat → Word) (N i : Nat) (h : i < N) : ((List.range N).map f)[i]? = some (f i) := by
  simp [h]

@[simp] theorem tableWords_length (N : Nat) : (tableWords N).length = N := by simp [tableWords]

@[simp] theorem freshIncrements_length (n d : Nat) (sr : Word) (count : Nat) : (freshIncrements n d sr count).length = count := by
  simp [freshIncrements]

/-! ### What table construction and preparation leave in the memories (R100, R130)

The words are generalised before a definition of a numeric function could be unfolded: the kernel must not evaluate one. -/

/-- A word that has been written is what a read gives. -/
theorem State.read_of_get (s : State) (sp : Space) (i : Nat) (w : Word) (h : (s.mem sp).get i = some w) :
    s.read sp i = w := by rw [State.read, h, Option.getD_some]

/-- A read depends on what is written at the place alone. -/
theorem State.read_of_get_eq (s t : State) (sp : Space) (i : Nat) (h : (s.mem sp).get i = (t.mem sp).get i) :
    s.read sp i = t.read sp i := by rw [State.read, State.read, h]

theorem read_tableBuild (s : State) (N i : Nat) (h : i < N) : (tableBuild s N).read .table i = tableEntry N i := by
  refine State.read_of_get _ _ _ _ ((Mem.get_fill_below (tableWords N) s.table i (by simpa using h)).trans ?_)
  exact getElem?_map_range (tableEntry N) N i h

theorem read_tableBuild_above (s : State) (N i : Nat) (h : N ≤ i) : (tableBuild s N).read .table i = s.read .table i :=
  State.read_of_get_eq _ _ _ _ (Mem.get_fill_above (tableWords N) s.table i (by simpa using h))

theorem read_prepare_phase (s : State) (sr : Word) (count v : Nat) (h : v < count) :
    (prepare s sr count).read .phase v = 0 := by
  refine State.read_of_get _ _ _ _ ((Mem.get_fill_below (List.replicate count 0) s.phase v (by simpa using h)).trans ?_)
  simp [h]

theorem read_prepare_pinc (s : State) (sr : Word) (count v : Nat) (h : v < count) :
    (prepare s sr count).read .pinc v = increment s.n (tune (note (s.draws + v))) sr := by
  refine State.read_of_get _ _ _ _
    ((Mem.get_fill_below (freshIncrements s.n s.draws sr count) s.pinc v (by simpa using h)).trans ?_)
  exact getElem?_map_range (fun v => increment s.n (tune (note (s.draws + v))) sr) count v h

theorem read_prepare_phase_above (s : State) (sr : Word) (count v : Nat) (h : count ≤ v) :
    (prepare s sr count).read .phase v = s.read .phase v :=
  State.read_of_get_eq _ _ _ _ (Mem.get_fill_above (List.replicate count 0) s.phase v (by simpa using h))

theorem read_prepare_pinc_above (s : State) (sr : Word) (count v : Nat) (h : count ≤ v) :
    (prepare s sr count).read .pinc v = s.read .pinc v :=
  State.read_of_get_eq _ _ _ _
    (Mem.get_fill_above (freshIncrements s.n s.draws sr count) s.pinc v (by simpa using h))

/-- A contribution changes the two words of its frame and no other word (R135). -/
theorem read_mixInto (s : State) (f : Nat) (m : Word) (sp : Space) (i : Nat) :
    (mixInto s f m).read sp i =
      if (sp = .outL ∨ sp = .outR) ∧ i = f then fadd (s.read sp i) m else s.read sp i := by
  cases sp <;> simp [mixInto, State.read, State.mem_write] <;> by_cases h : i = f <;>
    simp [h, Mem.get_set_same, Mem.get_set_other]

end Sys2Proof.Machine
end

