-- ==== Sys2Proof/Laws/PerInstr.lean ====
section
/-! SUPPORT. What holds of every instruction as syntax, one lemma for each constructor. -/

/-! ### OpcodeRow: a command word meets its own row of the opcode table (spec/30_encoding.md R63) -/

namespace Sys2Proof.Laws.OpcodeRow

/-- The `match` and `mask` of the instruction's row in spec/opcode_table.json. -/
def row : Instr → Word × Word
  | .init => (0x00000001, 0xFFFFFFFF)
  | .prepare => (0x00000002, 0xFFFFFFFF)
  | .setfreq _ => (0x00000003, 0xFF0000FF)
  | .next _ => (0x00000004, 0xFF0000FF)
  | .render _ => (0x00000005, 0xFF0000FF)

/-- `(w & mask) == match` for the instruction's own word. -/
def Statement (i : Instr) : Prop := encode i &&& (row i).2 = (row i).1

theorem encodeI_masked (op : BitVec 8) (m : Nat) : encodeI op m &&& 0xFF0000FF = op.setWidth 32 := by
  rw [encodeI]
  ext j hj
  simp only [BitVec.getElem_and, BitVec.getElem_append, BitVec.getElem_setWidth]
  have h : j < 32 := hj
  interval_cases j <;> simp

theorem init : Statement .init := by unfold Statement; decide
theorem prepare : Statement .prepare := by unfold Statement; decide
theorem setfreq (v : Nat) : Statement (.setfreq v) := encodeI_masked 0x03 v
theorem next (v : Nat) : Statement (.next v) := encodeI_masked 0x04 v
theorem render (k : Nat) : Statement (.render k) := encodeI_masked 0x05 k

end Sys2Proof.Laws.OpcodeRow
end

