-- ==== Sys2Proof/Laws/Step.lean ====
section
/-! SUPPORT. What a step, a transaction, a sample and a block can do, said once for each: later proofs cite these and do
not unfold the definitions. -/

namespace Sys2Proof.Machine

/-! ### The step -/

/-- The two kinds of step: the host's transaction, or the engine's turn. -/
theorem step_cases {s t : State} (h : step s = .next t) :
    (∃ x rest, s.pending = .bus x :: rest ∧ t = hostTurn s x rest) ∨
    (∃ rest, EngineNext s rest ∧ engineTurn { s with pending := rest } = .next t) := by
  simp only [step, turn] at h
  split at h
  · rename_i hp
    refine .inr ⟨[], .inl ⟨hp, rfl⟩, ?_⟩
    rwa [← hp]
  · rename_i rest hp
    exact .inr ⟨rest, .inr hp, h⟩
  · rename_i x rest hp
    exact .inl ⟨x, rest, hp, by injection h with h; exact h.symm⟩

/-- The engine's turn when it is idle, when its word decodes, and when its word is illegal. -/
theorem engineTurn_idle {s : State} (h : s.eng = .idle) : engineTurn s = .next s := by simp [engineTurn, h]

theorem engineTurn_ok {s : State} {w : Word} {ops : Operands} {i : Instr} (h : s.eng = .run w ops) (hd : decode w = .ok i) :
    engineTurn s = exec i s := by simp [engineTurn, h, hd]

theorem engineTurn_illegal {s : State} {w : Word} {ops : Operands} {e : Illegal} (h : s.eng = .run w ops)
    (hd : decode w = .error e) : engineTurn s = .next (s.raise .opcode w) := by simp [engineTurn, h, hd]

/-- A word placed whole is the word the engine runs (log entry 8). -/
theorem withFetchWord_eq (s : State) (w : Word) :
    s.withFetchWord 32 w.toNat = { s with eng := .run w s.regs, pending := .engine :: s.pending } := by
  have h : Word.ofNat (w.toNat % 2 ^ 32) = w := by
    rw [Nat.mod_eq_of_lt w.isLt, Word.ofNat, BitVec.ofNat_toNat, BitVec.setWidth_eq]
  rw [State.withFetchWord, h]
  rfl

/-! ### A transaction -/

/-- What a choice between two places comes to. -/
theorem place_ite {p : Prop} [Decidable p] {a b c : Place} (h : (if p then a else b) = c) : p ∧ a = c ∨ ¬p ∧ b = c := by
  by_cases hp : p
  · exact .inl ⟨hp, by rwa [if_pos hp] at h⟩
  · exact .inr ⟨hp, by rwa [if_neg hp] at h⟩

/-- The address of a register (spec/10_state.md R23); of another place, none. -/
def registerAddr : Place → Option Nat
  | .cmd => some 0x00000
  | .status => some 0x00004
  | .faultInfo => some 0x00008
  | .sampleRate => some 0x0000C
  | .voiceCount => some 0x00010
  | .tableSize => some 0x00014
  | .freq => some 0x00018
  | .sample => some 0x0001C
  | .level => some 0x00020
  | .cfgN => some 0x00024
  | .cfgVc => some 0x00028
  | .window _ _ => none
  | .reserved => none

/-- A register stands at one address. -/
theorem place_register {addr a : Nat} {p : Place} (h : place addr = p) (hp : registerAddr p = some a) : addr = a := by
  unfold place at h
  iterate 11
    obtain ⟨h0, h⟩ | ⟨-, h⟩ := place_ite h
    · subst h; exact h0.trans (Option.some.inj hp)
  obtain ⟨-, h⟩ | ⟨-, h⟩ := place_ite h
  · subst h; cases hp
  iterate 5
    obtain ⟨-, h⟩ | ⟨-, h⟩ := place_ite h
    · subst h; cases hp
  subst h; cases hp

/-- The address of an element of a window (spec/20_memory.md R44). -/
def windowAddr : Space → Nat → Nat
  | .table, i => 0x10000 + 4 * i
  | .phase, i => 0x20000 + 8 * i
  | .pinc, i => 0x20004 + 8 * i
  | .outL, i => 0x40000 + 4 * i
  | .outR, i => 0x50000 + 4 * i

/-- A window has one address for each of its elements. -/
theorem place_window {addr i : Nat} {sp : Space} (ha : addr % 4 = 0) (h : place addr = .window sp i) :
    addr = windowAddr sp i := by
  unfold place at h
  iterate 11 (obtain ⟨-, h⟩ | ⟨-, h⟩ := place_ite h; cases h)
  obtain ⟨-, h⟩ | ⟨h0, h⟩ := place_ite h
  · cases h
  obtain ⟨-, h⟩ | ⟨h1, h⟩ := place_ite h
  · obtain ⟨hs, hi⟩ := Eq.mp (Place.window.injEq _ _ _ _) h
    rw [← hs, windowAddr]; omega
  obtain ⟨-, h⟩ | ⟨h2, h⟩ := place_ite h
  · obtain ⟨hs, hi⟩ := Eq.mp (Place.window.injEq _ _ _ _) h
    by_cases h8 : (addr - 0x20000) % 8 = 0
    · rw [if_pos h8] at hs; rw [← hs, windowAddr]; omega
    · rw [if_neg h8] at hs; rw [← hs, windowAddr]; omega
  obtain ⟨-, h⟩ | ⟨h3, h⟩ := place_ite h
  · cases h
  obtain ⟨-, h⟩ | ⟨h4, h⟩ := place_ite h
  · obtain ⟨hs, hi⟩ := Eq.mp (Place.window.injEq _ _ _ _) h
    rw [← hs, windowAddr]; omega
  obtain ⟨-, h⟩ | ⟨-, h⟩ := place_ite h
  · obtain ⟨hs, hi⟩ := Eq.mp (Place.window.injEq _ _ _ _) h
    rw [← hs, windowAddr]; omega
  · cases h

/-- The operand registers after a write of a word to this address. -/
def writtenRegs (r : Operands) (addr : Nat) (w : Word) : Operands :=
  if addr = 0x0000C then { r with sampleRate := w }
  else if addr = 0x00010 then { r with voiceCount := w }
  else if addr = 0x00014 then { r with tableSize := w }
  else if addr = 0x00018 then { r with freq := w }
  else r

/-- What an accepted write makes of an idle core without a fault: at CMD the acceptance of a command, at an operand register
its new word, at an element of a window the host may write and can see its new word. -/
def Written (s t : State) (addr : Nat) (w : Word) : Prop :=
  (addr = 0x00000 ∧ t = s.accept w) ∨
  (0x0000C ≤ addr ∧ addr ≤ 0x00018 ∧ t = { s with regs := writtenRegs s.regs addr w }) ∨
  (∃ sp i, addr = windowAddr sp i ∧ hostWrites sp = true ∧ s.visible sp i = true ∧ t = s.write sp i w)

/-- What a transaction makes of the core: nothing, or, in an idle core without a fault, what an accepted write of a whole
word makes of it. -/
theorem transact_cases (s : State) (x : Txn) :
    (transact s x).1 = s ∨
    (∃ addr w, x = .write 32 addr w ∧ s.busy = false ∧ s.fault = false ∧ (transact s x).2 = .ok ∧
      Written s (transact s x).1 addr w) := by
  cases x with
  | read bits addr => exact .inl (by simp only [transact]; split <;> rfl)
  | write bits addr w =>
    by_cases hb : bits = 32
    · subst hb
      simp only [transact, if_true, busWrite]
      split
      · exact .inl rfl
      · split
        · exact .inl rfl
        · split
          · exact .inl rfl
          · rename_i haddr hbusy hfault
            have ha : addr % 4 = 0 := by
              have h : (decide (addr % 4 = 0) && decide (addr ≤ 0x7FFFF)) = true := by simpa [addrOk] using haddr
              exact of_decide_eq_true (Bool.and_eq_true _ _ ▸ h).1
            have h1 : s.busy = false := by simpa using hbusy
            have h2 : s.fault = false := by simpa using hfault
            split
            case h_1 hp => exact .inr ⟨addr, w, rfl, h1, h2, rfl, .inl ⟨place_register hp rfl, rfl⟩⟩
            case h_2 hp =>
              obtain rfl := place_register hp rfl
              exact .inr ⟨_, w, rfl, h1, h2, rfl, .inr (.inl ⟨by decide, by decide, rfl⟩)⟩
            case h_3 hp =>
              obtain rfl := place_register hp rfl
              exact .inr ⟨_, w, rfl, h1, h2, rfl, .inr (.inl ⟨by decide, by decide, rfl⟩)⟩
            case h_4 hp =>
              obtain rfl := place_register hp rfl
              exact .inr ⟨_, w, rfl, h1, h2, rfl, .inr (.inl ⟨by decide, by decide, rfl⟩)⟩
            case h_5 hp =>
              obtain rfl := place_register hp rfl
              exact .inr ⟨_, w, rfl, h1, h2, rfl, .inr (.inl ⟨by decide, by decide, rfl⟩)⟩
            case h_12 sp i hp =>
              by_cases hv : (hostWrites sp && s.visible sp i) = true
              · rw [if_pos hv]
                rw [Bool.and_eq_true] at hv
                exact .inr ⟨addr, w, rfl, h1, h2, rfl, .inr (.inr ⟨sp, i, place_window ha hp, hv.1, hv.2, rfl⟩)⟩
              · rw [if_neg hv]; exact .inl rfl
            all_goals exact .inl rfl
    · exact .inl (by simp [transact, hb])

/-! ### One sample (R110) -/

theorem nextSample_eq (s : State) (v : Nat) :
    nextSample s v =
      if inDomain s.n (s.read .phase v) then
        some (sampleAt s (s.read .phase v), s.write .phase v (advance s.n (s.read .phase v) (s.read .pinc v)))
      else none := rfl

theorem nextSample_some {s t : State} {v : Nat} {w : Word} (h : nextSample s v = some (w, t)) :
    inDomain s.n (s.read .phase v) = true ∧ w = sampleAt s (s.read .phase v) ∧
    t = s.write .phase v (advance s.n (s.read .phase v) (s.read .pinc v)) := by
  rw [nextSample_eq] at h
  split at h
  · rename_i hd
    injection h with h
    injection h with hw ht
    exact ⟨hd, hw.symm, ht.symm⟩
  · cases h

theorem nextSample_none {s : State} {v : Nat} : nextSample s v = none ↔ inDomain s.n (s.read .phase v) = false := by
  rw [nextSample_eq]
  split
  · rename_i h; simp [h]
  · rename_i h; simpa using h

/-! ### A block (R135) -/

/-- The state a block, or a part of one, ends with. -/
def Block.state : Block → State
  | .done s => s
  | .stopped s _ _ => s

/-- All that a RENDER may change: the phases and the output buffer. -/
def SameButMix (s t : State) : Prop := t = { s with phase := t.phase, outL := t.outL, outR := t.outR }

theorem SameButMix.refl (s : State) : SameButMix s s := rfl

theorem SameButMix.trans {s t u : State} (h1 : SameButMix s t) (h2 : SameButMix t u) : SameButMix s u := by
  unfold SameButMix at *
  rw [h2, h1]

theorem SameButMix.write_phase (s : State) (v : Nat) (w : Word) : SameButMix s (s.write .phase v w) := rfl

theorem SameButMix.write_outL (s : State) (f : Nat) (w : Word) : SameButMix s (s.write .outL f w) := rfl

theorem SameButMix.write_outR (s : State) (f : Nat) (w : Word) : SameButMix s (s.write .outR f w) := rfl

theorem SameButMix.mixInto (s : State) (f : Nat) (m : Word) : SameButMix s (mixInto s f m) :=
  (SameButMix.write_outL s f _).trans (SameButMix.write_outR _ f _)

theorem renderVoices_sameButMix (f count v : Nat) (s : State) : SameButMix s (renderVoices f count v s).state := by
  induction count generalizing v s with
  | zero => exact SameButMix.refl s
  | succ count ih =>
    simp only [renderVoices]
    split
    · exact SameButMix.refl s
    · rename_i w t h
      obtain ⟨-, -, rfl⟩ := nextSample_some h
      exact (SameButMix.write_phase s v _).trans ((SameButMix.mixInto _ f _).trans (ih (v + 1) _))

theorem renderFrames_sameButMix (count f : Nat) (s : State) : SameButMix s (renderFrames count f s).state := by
  induction count generalizing f s with
  | zero => exact SameButMix.refl s
  | succ count ih =>
    simp only [renderFrames]
    have hv := renderVoices_sameButMix f s.vc 0 s
    split
    · rename_i t h
      rw [h] at hv
      exact hv.trans (ih (f + 1) t)
    · rename_i t g v h
      rw [h] at hv
      exact hv

theorem renderBlock_sameButMix (s : State) (k : Nat) : SameButMix s (renderBlock s k).state := renderFrames_sameButMix k 0 s

/-- Some voices of a frame change their own phases and the two words of that frame, and no other word. -/
theorem renderVoices_read_other (f count v : Nat) (s : State) (sp : Space) (i : Nat)
    (hp : sp = .phase → i < v ∨ v + count ≤ i) (ho : sp = .outL ∨ sp = .outR → i ≠ f) :
    (renderVoices f count v s).state.read sp i = s.read sp i := by
  induction count generalizing v s with
  | zero => rfl
  | succ count ih =>
    simp only [renderVoices]
    split
    · rfl
    · rename_i w t h
      obtain ⟨-, -, rfl⟩ := nextSample_some h
      have hne : (sp, i) ≠ (Space.phase, v) := fun e => by
        injection e with e1 e2
        have := hp e1
        omega
      rw [ih (v + 1) _ (fun e => by have := hp e; omega), read_mixInto, if_neg (fun e => ho e.1 e.2),
        State.read_write_other _ _ _ _ _ _ hne]

/-- Some frames change the phases of the voice set and the words of those frames, and no other word. -/
theorem renderFrames_read_other (count f : Nat) (s : State) (sp : Space) (i : Nat) (hp : sp = .phase → s.vc ≤ i)
    (ho : sp = .outL ∨ sp = .outR → i < f ∨ f + count ≤ i) :
    (renderFrames count f s).state.read sp i = s.read sp i := by
  induction count generalizing f s with
  | zero => rfl
  | succ count ih =>
    simp only [renderFrames]
    have hv := renderVoices_read_other f s.vc 0 s sp i (fun e => by have := hp e; omega) (fun e => by have := ho e; omega)
    have hs := renderVoices_sameButMix f s.vc 0 s
    split
    · rename_i t h
      rw [h] at hv hs
      have hvc : t.vc = s.vc := by rw [show t = _ from hs]
      exact (ih (f + 1) t (fun e => by rw [hvc]; exact hp e) (fun e => by have := ho e; omega)).trans hv
    · rename_i t g v h
      rw [h] at hv
      exact hv

/-- A block of `k` frames changes the phases of the voice set and the words of its frames, and no other word (R135). -/
theorem renderBlock_read_other (s : State) (k : Nat) (sp : Space) (i : Nat) (hp : sp = .phase → s.vc ≤ i)
    (ho : sp = .outL ∨ sp = .outR → k ≤ i) : (renderBlock s k).state.read sp i = s.read sp i :=
  renderFrames_read_other k 0 s sp i hp (fun e => .inr (by have := ho e; omega))

/-! ### The commands: every next state a meaning answers with -/

/-- SETFREQ enters a fault or writes one increment (R118). -/
theorem execSetfreq_cases {v : Nat} {s t : State} (h : execSetfreq v s = .next t) :
    (∃ c info, t = s.raise c info) ∨
    (s.ready = true ∧ v < s.vc ∧ t = (setFrequency s v s.operands.freq s.operands.sampleRate).complete) := by
  simp only [execSetfreq] at h
  split at h
  · exact .inl ⟨_, _, by injection h with h; exact h.symm⟩
  · split at h
    · exact .inl ⟨_, _, by injection h with h; exact h.symm⟩
    · rename_i h1 h2
      exact .inr ⟨by simpa using h1, by omega, by injection h with h; exact h.symm⟩

/-- NEXT enters a fault or makes one sample (R119). -/
theorem execNext_cases {v : Nat} {s t : State} (h : execNext v s = .next t) :
    (∃ c info, t = s.raise c info) ∨
    (s.ready = true ∧ v < s.vc ∧ inDomain s.n (s.read .phase v) = true ∧
      t = { s.write .phase v (advance s.n (s.read .phase v) (s.read .pinc v)) with
        sample := sampleAt s (s.read .phase v) }.complete) := by
  simp only [execNext] at h
  split at h
  · exact .inl ⟨_, _, by injection h with h; exact h.symm⟩
  · split at h
    · exact .inl ⟨_, _, by injection h with h; exact h.symm⟩
    · rename_i h1 h2
      split at h
      · exact .inl ⟨_, _, by injection h with h; exact h.symm⟩
      · rename_i w u hn
        obtain ⟨hd, rfl, rfl⟩ := nextSample_some hn
        exact .inr ⟨by simpa using h1, by omega, hd, by injection h with h; exact h.symm⟩

/-- PREPARE enters a fault or replaces the voice set (R141). -/
theorem execPrepare_cases {s t : State} (h : execPrepare s = .next t) :
    (∃ c info, t = s.raise c info) ∨
    (s.ready = true ∧ badVoiceCount s s.operands.voiceCount.toNat = false ∧
      t = (prepare s s.operands.sampleRate s.operands.voiceCount.toNat).complete) := by
  simp only [execPrepare] at h
  split at h
  · exact .inl ⟨_, _, by injection h with h; exact h.symm⟩
  · split at h
    · exact .inl ⟨_, _, by injection h with h; exact h.symm⟩
    · rename_i h1 h2
      exact .inr ⟨by simpa using h1, by simpa using h2, by injection h with h; exact h.symm⟩

/-- INIT enters a fault or builds the table and the voice set (R140). -/
theorem execInit_cases {s t : State} (h : execInit s = .next t) :
    (∃ c info, t = s.raise c info) ∨
    (badTableSize s s.operands.tableSize.toNat = false ∧ badVoiceCount s s.operands.voiceCount.toNat = false ∧
      t = { prepare (tableBuild { s with n := s.operands.tableSize.toNat } s.operands.tableSize.toNat)
        s.operands.sampleRate s.operands.voiceCount.toNat with ready := true }.complete) := by
  simp only [execInit] at h
  split at h
  · exact .inl ⟨_, _, by injection h with h; exact h.symm⟩
  · split at h
    · exact .inl ⟨_, _, by injection h with h; exact h.symm⟩
    · rename_i h1 h2
      exact .inr ⟨by simpa using h1, by simpa using h2, by injection h with h; exact h.symm⟩

/-- RENDER enters a fault at once, completes a block, or is stopped inside one (R142, R139). -/
theorem execRender_cases {k : Nat} {s t : State} (h : execRender k s = .next t) :
    (∃ c info, t = s.raise c info) ∨
    (s.ready = true ∧ k ≤ s.caps.maxF ∧
      ((∃ u, renderBlock s k = .done u ∧ t = u.complete) ∨
       (∃ u f v, renderBlock s k = .stopped u f v ∧ t = u.raise .phase (infoPhase f v)))) := by
  simp only [execRender] at h
  split at h
  · exact .inl ⟨_, _, by injection h with h; exact h.symm⟩
  · split at h
    · exact .inl ⟨_, _, by injection h with h; exact h.symm⟩
    · rename_i h1 h2
      refine .inr ⟨by simpa using h1, by omega, ?_⟩
      split at h
      · rename_i u hu
        exact .inl ⟨u, hu, by injection h with h; exact h.symm⟩
      · rename_i u f v hu
        exact .inr ⟨u, f, v, hu, by injection h with h; exact h.symm⟩

end Sys2Proof.Machine
end

