-- ==== Sys2Proof/Tests/Slice0.lean ====
section
/-! SUPPORT. Tests of the model. Expected results are the spec's own vectors (spec/95_test_vectors.md, named at each test) or
worked out by hand from a rule; the witnesses show, for each statement with hypotheses, a state and operands that meet them
together, at the boundaries of its clauses. -/

-- one theorem after another: a thread for each would ask for more stacks than the checker's memory limit has room for
set_option Elab.async false

namespace Sys2Proof.Tests

open Sys2Proof.Machine

/-! ### Helpers -/

/-- READY, the default table, and voices with these phases and increments. -/
def ready (ph pi : List Word) : State :=
  { State.reset with
    ready := true
    n := 128
    vc := ph.length
    level := mixLevel ph.length
    table := Mem.numbered 0 (tableWords 128)
    phase := Mem.numbered 0 ph
    pinc := Mem.numbered 0 pi }

/-- The first words of both channels cleared. -/
def cleared (k : Nat) (s : State) : State :=
  { s with outL := Mem.numbered 0 (List.replicate k 0), outR := Mem.numbered 0 (List.replicate k 0) }

/-- The command word run by the next step, and a check of the state after it. -/
def after (s : State) (w : Nat) (check : State → Bool) : Bool :=
  match step (s.withFetchWord 32 w) with
  | .next t => check t
  | .fault _ => false
  | .refused _ => false

/-- The operand registers of a state. -/
def withRegs (s : State) (sr vc ts fr : Word) : State :=
  { s with regs := { sampleRate := sr, voiceCount := vc, tableSize := ts, freq := fr } }

/-! ### WellFormed: an ill-formed term for each check -/

theorem test_illFormed_setfreq : Instr.wellFormed (.setfreq 65536) = false := by decide
theorem test_illFormed_next : Instr.wellFormed (.next 65536) = false := by decide
theorem test_illFormed_render : Instr.wellFormed (.render 65536) = false := by decide
theorem test_wellFormed_atLimit :
    [Instr.init, .prepare, .setfreq 65535, .next 65535, .render 65535].all Instr.wellFormed = true := by decide

/-! ### Decode: a word of each constructor, written from the formats of spec/30_encoding.md R60, R63 -/

-- bits 31:8 zero, opcode 00000001
theorem test_decode_init : decode 0b00000000000000000000000000000001 = .ok .init := by decide
-- bits 31:8 zero, opcode 00000010
theorem test_decode_prepare : decode 0b00000000000000000000000000000010 = .ok .prepare := by decide
-- zero byte, immediate 0x00C7, opcode 00000011
theorem test_decode_setfreq : decode 0b00000000000000001100011100000011 = .ok (.setfreq 199) := by decide
-- zero byte, immediate 0x8001, opcode 00000100
theorem test_decode_next : decode 0b00000000100000000000000100000100 = .ok (.next 32769) := by decide
-- zero byte, immediate 0x1001, opcode 00000101
theorem test_decode_render : decode 0b00000000000100000000000100000101 = .ok (.render 4097) := by decide
-- V15: illegal words
theorem test_decode_illegal :
    [0x00000000, 0x00000006, 0x000000FF, 0xFFFFFFFF].all (fun w => decode w == .error .reservedOpcode) = true ∧
    [0x00000101, 0x00010001, 0x01000001, 0x00000102].all (fun w => decode w == .error .formatZBitsSet) = true ∧
    [0x01000003, 0x80000004, 0x01000005].all (fun w => decode w == .error .formatIBitsSet) = true := by decide
theorem test_decodeTableWord : decodeTableWord 32 0x00FFFF03 = some (.setfreq 65535) ∧ decodeTableWord 32 0 = none := by
  decide
theorem test_decodeBytes_short : decodeBytes [0x01, 0x00, 0x00] = .error .truncated := by decide
theorem test_encode : encode (.setfreq 199) = 0x0000C703 ∧ encode (.render 128) = 0x00008005 := by decide

/-! ### Numerics (spec/40_numerics.md) -/

-- R95's table of constants
theorem test_i2f : i2f 128 = 0x43000000 ∧ i2f 375 = 0x43BB8000 ∧ i2f 48000 = 0x473B8000 ∧ i2f 0 = 0 := by decide +kernel
-- R82: signs of a zero sum; infinity less infinity (V8, V9 and R94)
theorem test_fadd_zeros : fadd 0x80000000 0x80000000 = 0x80000000 ∧ fadd 0 0x80000000 = 0 ∧
    fadd 0x7F800000 0xFF800000 = 0x7FC00000 ∧ fsub 0x3F800000 0x3F800000 = 0 := by decide +kernel
-- V20: T[1]/8 + T[72]/8
theorem test_fadd_V20 : fadd 0x3BCA8FFC 0xBD51052E = 0xBD37B32E := by decide +kernel
-- R81: 1 + 2^-24 is a tie and goes to the even 1; the largest value doubled is infinite; half the smallest subnormal is 0
theorem test_rounding_edges : fadd 0x3F800000 0x33800000 = 0x3F800000 ∧ fadd 0x7F7FFFFF 0x7F7FFFFF = 0x7F800000 ∧
    fmul 0x00000001 0x3F000000 = 0 ∧ fmul 0x80000001 0x3F000000 = 0x80000000 := by decide +kernel
-- V5
theorem test_fmul_fdiv_V5 : fdiv (fmul 0x43DC0000 0x43000000) 0x472C4400 = 0x3FA377EE ∧
    fdiv (fmul 0x43BB8000 0x43000000) 0x473B8000 = 0x3F800000 ∧
    fdiv (fmul 0x43DC0000 0x43000000) 0 = 0x7F800000 ∧ fdiv (fmul 0 0x43000000) 0 = 0x7FC00000 ∧
    fdiv (fmul 0xC3DC0000 0x43000000) 0x473B8000 = 0xBF962FC9 := by decide +kernel
-- R86
theorem test_comparisons : fge 0x80000000 0 = true ∧ fgt 0x7F800000 0x7F7FFFFF = true ∧ fgt 0x7FC00000 0 = false ∧
    fge 0 0xFF800000 = true ∧ flt 0xFFC00001 0 = false := by decide +kernel

/-! ### The table and the tuning -/

-- V1
theorem test_table_V1 : tableWords 128 =
    [0x00000000, 0x3D4A8FFC, 0x3DCA5089, 0x3E176D2A, 0x3E495333, 0x3E7ABB1B, 0x3E95C2F8, 0x3EADCA90,
     0x3EC56548, 0x3EDC8456, 0x3EF3193E, 0x3F048AED, 0x3F0F3633, 0x3F1987C0, 0x3F23791F, 0x3F2D0414] ++
    [0x3F3622A5, 0x3F3ECF1C, 0x3F47040A, 0x3F4EBC49, 0x3F55F305, 0x3F5CA3B9, 0x3F62CA32, 0x3F686298,
     0x3F6D6968, 0x3F71DB7D, 0x3F75B60D, 0x3F78F6AF, 0x3F7B9B59, 0x3F7DA262, 0x3F7F0A86, 0x3F7FD2E4] ++
    [0x3F7FFAFD, 0x3F7F82B8, 0x3F7E6A61, 0x3F7CB2A8, 0x3F7A5CA0, 0x3F7769BF, 0x3F73DBDF, 0x3F6FB539,
     0x3F6AF867, 0x3F65A862, 0x3F5FC87C, 0x3F595C65, 0x3F526822, 0x3F4AF00E, 0x3F42F8D8, 0x3F3A877D] ++
    [0x3F31A146, 0x3F284BC8, 0x3F1E8CDA, 0x3F146A99, 0x3F09EB5D, 0x3EFE2B75, 0x3EE7E0F3, 0x3ED1052E,
     0x3EB9A677, 0x3EA1D371, 0x3E899B0A, 0x3E6218DC, 0x3E306E00, 0x3DFCA939, 0x3D97D828, 0x3CCA9FDB] ++
    [0xBCCA9FDB, 0xBD97D828, 0xBDFCA939, 0xBE306E00, 0xBE6218DC, 0xBE899B0A, 0xBEA1D371, 0xBEB9A677,
     0xBED1052E, 0xBEE7E0F3, 0xBEFE2B75, 0xBF09EB5D, 0xBF146A99, 0xBF1E8CDA, 0xBF284BC8, 0xBF31A146] ++
    [0xBF3A877D, 0xBF42F8D8, 0xBF4AF00E, 0xBF526822, 0xBF595C65, 0xBF5FC87C, 0xBF65A862, 0xBF6AF867,
     0xBF6FB539, 0xBF73DBDF, 0xBF7769BF, 0xBF7A5CA0, 0xBF7CB2A8, 0xBF7E6A61, 0xBF7F82B8, 0xBF7FFAFD] ++
    [0xBF7FD2E4, 0xBF7F0A86, 0xBF7DA262, 0xBF7B9B59, 0xBF78F6AF, 0xBF75B60D, 0xBF71DB7D, 0xBF6D6968,
     0xBF686298, 0xBF62CA32, 0xBF5CA3B9, 0xBF55F305, 0xBF4EBC49, 0xBF47040A, 0xBF3ECF1C, 0xBF3622A5] ++
    [0xBF2D0414, 0xBF23791F, 0xBF1987C0, 0xBF0F3633, 0xBF048AED, 0xBEF3193E, 0xBEDC8456, 0xBEC56548,
     0xBEADCA90, 0xBE95C2F8, 0xBE7ABB1B, 0xBE495333, 0xBE176D2A, 0xBDCA5089, 0xBD4A8FFC, 0x00000000] := by
  decide +kernel
-- V2
theorem test_table_V2 : tableWords 2 = [0, 0] ∧ tableWords 3 = [0, 0, 0] ∧
    tableWords 4 = [0, 0x3F5DB3D7, 0xBF5DB3D7, 0] ∧ tableWords 5 = [0, 0x3F800000, 0, 0xBF800000, 0] ∧
    tableWords 8 = [0, 0x3F48261C, 0x3F7994E0, 0x3EDE2602, 0xBEDE2602, 0xBF7994E0, 0xBF48261C, 0] := by decide +kernel
-- V4
theorem test_tune_V4 :
    [0x42400000, 0x42480000, 0x42640000, 0x42700000, 0x42750000, 0x42810000, 0x428A0000].map tune =
      [0x4302D013, 0x4312D517, 0x435C0000, 0x4382D013, 0x438C9B70, 0x43A9A4A8, 0x43DC0000] ∧
    [0x42900000, 0x42A20000, 0x42A60000, 0x42A70000, 0x42A7FFFF, 0x42A80000].map tune =
      [0x4402D013, 0x445C0000, 0x4476F110, 0x447E2D77, 0x4482D00F, 0x4482D013] := by decide +kernel
-- V3
theorem test_level_V3 : [1, 2, 3, 200, 256, 1024].map mixLevel =
    [0x3E800000, 0x3E000000, 0x3DAAAAAB, 0x3AA3D70A, 0x3A800000, 0x39800000] := by decide +kernel

/-! ### The commands, one step each -/

-- R140's worked example: the state after INIT of the defaults at 48000 Hz
theorem test_init : after (withRegs State.reset 0x473B8000 200 128 0) 0x00000001 (fun t =>
    t.status == 0x00000002 && t.n == 128 && t.vc == 200 && t.level == 0x3AA3D70A && t.read .table 32 == 0x3F7FFAFD &&
    t.read .phase 199 == 0) = true := by decide +kernel
-- V17 row 4: a TABLE_SIZE is compared as a whole word
theorem test_init_fault : after (withRegs State.reset 0x473B8000 0 0x80000080 0) 0x00000001 (fun t =>
    t.status == 0x00000304 && t.faultInfo == 0x80000080 && t.n == 0 && t.vc == 0) = true := by decide +kernel
-- V17 row 11, row 12: PREPARE with VOICE_COUNT = MAXV, and a TABLE_SIZE it does not read
theorem test_prepare : after (withRegs (ready [0x3F800000] [0]) 0x473B8000 1024 1 0) 0x00000002 (fun t =>
    t.status == 0x00000002 && t.n == 128 && t.vc == 1024 && t.level == 0x39800000 && t.read .phase 0 == 0) = true := by
  decide +kernel
-- V17 row 8: E_NOTREADY before E_VOICECOUNT
theorem test_prepare_fault : after (withRegs State.reset 0 0 128 0) 0x00000002 (fun t =>
    t.status == 0x00000204 && t.faultInfo == 0x00000002) = true := by decide +kernel
-- V5 row 2, on voice 1 of two
theorem test_setfreq : after (withRegs (ready [0, 0x3F000000] [0, 0]) 0x472C4400 2 128 0x43DC0000) 0x00000103 (fun t =>
    t.status == 0x00000002 && t.pinc == [(0, 0), (1, 0x3FA377EE)] && t.phase == [(0, 0), (1, 0x3F000000)]) = true := by
  decide +kernel
-- V15: SETFREQ of a voice that is not there
theorem test_setfreq_fault : after (ready [0, 0] [0, 0]) 0x00000203 (fun t =>
    t.status == 0x00000506 && t.faultInfo == 2) = true := by decide +kernel
-- V8 row 3: a phase between n and n + 1 interpolates between T[0] and T[1], and wraps once
theorem test_next : after (ready [0x43008000] [0x3F800000]) 0x00000004 (fun t =>
    t.status == 0x00000002 && t.sample == 0x3CCA8FFC && t.phase == [(0, 0x3FC00000)]) = true := by decide +kernel
-- V9: a phase of n + 1
theorem test_next_fault : after (ready [0x43010000] [0]) 0x00000004 (fun t =>
    t.status == 0x00000706 && t.faultInfo == 0 && t.sample == 0 && t.phase == [(0, 0x43010000)]) = true := by
  decide +kernel
-- V11: each sample is scaled and then added
theorem test_render_V11 : after (cleared 5 (ready [0, 0, 0] [0x3F800000, 0x3F000000, 0x3E800000])) 0x00000505 (fun t =>
    t.status == 0x00000002 &&
    t.outR == Mem.numbered 0 [0, 0x3BEC52A6, 0x3C6C285A, 0x3CB0DEDE, 0x3CEB6A50] && t.outL == t.outR) = true := by
  decide +kernel
-- V20: a fault in the middle of a RENDER
theorem test_render_V20 : after (cleared 4 (ready [0, 0] [0x3F800000, 0x43480000])) 0x00000405 (fun t =>
    t.status == 0x00000706 && t.faultInfo == 0x00020001 && t.outL == Mem.numbered 0 [0, 0xBD37B32E, 0x3C4A5089, 0] &&
    t.outR == t.outL && t.phase == [(0, 0x40400000), (1, 0x43100000)]) = true := by decide +kernel
-- V15: an illegal word
theorem test_illegal : after (ready [0] [0]) 0x01000005 (fun t =>
    t.status == 0x00000106 && t.faultInfo == 0x01000005) = true := by decide +kernel

/-! ### The bus (V16) -/

theorem test_reads_refused :
    [0x00001, 0x00002, 0x80000, 0x0002C, 0x0FFFC, 0x30000, 0x3FFFC, 0x60000, 0x7FFFC, 0x00000, 0x10000, 0x20000, 0x44000,
      0x54000].all (fun a => busRead State.reset a == .err) = true := by decide +kernel
theorem test_writes_refused :
    [0x00004, 0x00008, 0x0001C, 0x00020, 0x00024, 0x00028, 0x10000, 0x20000, 0x0002C, 0x40002, 0x44000].all
      (fun a => (busWrite State.reset a 0).2 == .err) = true := by decide +kernel
theorem test_write_then_read :
    (let s := (busWrite State.reset 0x43FFC 0x11111111).1
     busRead s 0x43FFC == .okWord 0x11111111 && (busWrite s 0x0000C 0x473B8000).2 == .ok) = true := by decide +kernel
theorem test_windows_ready :
    (let s := ready [0, 0x12345678] [0, 0]
     busRead s 0x101FC == .okWord 0 && busRead s 0x10200 == .err && busRead s 0x20008 == .okWord 0x12345678 &&
       busRead s 0x20010 == .err && busRead s 0x00024 == .okWord 0x80) = true := by decide +kernel
-- V16, its last paragraph: a running command refuses all but the read of STATUS
theorem test_busy :
    (let s := (busWrite State.reset 0x00000 0x00000001).1
     busRead s 0x00004 == .okWord 0x00000001 && busRead s 0x00008 == .err && (busWrite s 0x40000 0).2 == .err) = true := by
  decide +kernel
-- R43: a byte-wide transaction is refused
theorem test_width : (transact State.reset (.read 8 0x00004)).2 = .err := by decide +kernel

/-! ### Witnesses: what meets the hypotheses of each statement -/

/-- A state in which a command has been accepted. -/
def accepted (s : State) (w : Word) : State := s.accept w

/-- The default configuration at 48000 Hz, INIT accepted. -/
def initDefault : State := accepted (withRegs State.reset 0x473B8000 200 128 0) 0x00000001

/-- Two voices, one at phase n. -/
def twoVoices : State := ready [0x43000000, 0] [0x3F800000, 0x43000000]

theorem witness_DecodeInvertsEncode :
    Instr.wellFormed (.setfreq 0) = true ∧ Instr.wellFormed (.next 65535) = true ∧ Instr.wellFormed (.render 65535) = true := by
  decide

theorem witness_LegalWordsAreEncodings : decode 0x00FFFF05 = .ok (.render 65535) := by decide

theorem witness_DecoderFollowsOpcodeMap :
    (0x00FFFF03 : Word) &&& 0xFF0000FF = 0x00000003 ∧ (0x00FFFF03 : Word).toNat / 256 % 65536 = 65535 ∧
    (0x00000004 : Word) &&& 0xFF0000FF = 0x00000004 ∧ (0x01000005 : Word) &&& 0xFF0000FF ≠ 0x00000005 := by decide

theorem witness_IllegalWordsFault :
    EngineNext (accepted State.reset 0x01000003) [] ∧
    (accepted State.reset 0x01000003).eng = .run 0x01000003 State.reset.regs ∧
    decode 0x01000003 = .error .formatIBitsSet := ⟨.inl ⟨rfl, rfl⟩, rfl, by decide⟩

theorem witness_StepRunsTheDecodedCommand :
    EngineNext (State.reset.withFetchWord 32 0x00008005) [] ∧
    (State.reset.withFetchWord 32 0x00008005).eng = .run 0x00008005 State.reset.regs ∧
    decode 0x00008005 = .ok (.render 128) := ⟨.inr rfl, rfl, by decide⟩

theorem witness_PlacedWordsAreAcceptedWrites :
    State.reset.eng = .idle ∧ State.reset.fault = false ∧ decode 0x00000001 = .ok .init := ⟨rfl, rfl, by decide⟩

theorem witness_StepsAnswerOneTransactionAndNeverStop :
    { State.reset with pending := [.bus (.read 32 0x00004)] }.pending = [.bus (.read 32 0x00004)] ∧
    EngineNext State.reset [] ∧ State.reset.eng = .idle := ⟨rfl, .inl ⟨rfl, rfl⟩, rfl⟩

theorem witness_AcceptedCommandsTerminate :
    { accepted State.reset 0x00000001 with pending := [.bus (.read 32 0x00004), .engine] }.eng =
      .run 0x00000001 State.reset.regs := rfl

theorem witness_TransactionsWhileBusyDoNotMatter :
    (accepted State.reset 0x00000405).eng = .run 0x00000405 State.reset.regs ∧
    ∃ t, step { accepted State.reset 0x00000405 with pending := [.engine] } = .next t := ⟨rfl, _, rfl⟩

theorem witness_BusyRefusesAllButStatusReads : (accepted State.reset 0x00000001).busy = true := rfl

theorem witness_FaultedCoreRefusesWrites :
    (Faulted State.reset 0x02 0x00000405).fault = true ∧ (Faulted State.reset 0x02 0x00000405).eng = .idle ∧
    (∃ t, step (Faulted State.reset 0x02 0x00000405) = .next t) ∧ (0x00000 : Nat) ≠ 0x00004 ∧ (0x5FFFC : Nat) ≠ 0x00004 :=
  ⟨rfl, rfl, ⟨_, rfl⟩, by decide, by decide⟩

theorem witness_FaultIsNeverLeft :
    (Faulted State.reset 0x02 0x00000405).fault = true ∧ (Faulted State.reset 0x02 0x00000405).eng = .idle ∧
    ∃ t, core.run 2 { Faulted State.reset 0x02 0x00000405 with pending := [.bus (.write 32 0x00000 1)] } = .next t :=
  ⟨rfl, rfl, _, rfl⟩

/-- The reset state after the host has written SAMPLE_RATE. -/
def rateWritten : State := withRegs State.reset 0x473B8000 200 128 0

theorem rateWritten_inv : Inv rateWritten := by
  refine ⟨rfl, fun sp => by cases sp <;> rfl, ⟨fun _ => ⟨rfl, rfl⟩, fun h => absurd h (by decide)⟩, ?_, ?_⟩
  · intro cmd captured h; cases h
  · exact ⟨fun _ => ⟨rfl, rfl, rfl, rfl⟩, fun h => absurd h (by decide)⟩

theorem witness_FinalStateTellsWhetherARunFaulted :
    Inv rateWritten ∧ ∃ t, core.run 1 rateWritten = .next t ∧ t.safe = true := ⟨rateWritten_inv, _, rfl, rfl⟩

theorem witness_RefusedTransactionsChangeNothing :
    (transact State.reset (.write 32 0x00004 0)).2 = .err ∧
    { State.reset with pending := [.bus (.write 32 0x00004 0)] }.pending = [.bus (.write 32 0x00004 0)] ∧
    ∃ t, step { State.reset with pending := [.bus (.write 32 0x00004 0)] } = .next t := ⟨by decide +kernel, rfl, _, rfl⟩

theorem witness_AcceptedWritesStoreExactlyTheirWord :
    transact twoVoices (.write 32 0x2000C 7) = (twoVoices.write .pinc 1 7, .ok) ∧ (0x2000C : Nat) ≠ 0x00000 ∧
    transact State.reset (.write 32 0x00000 1) = (State.reset.accept 1, .ok) := ⟨rfl, by decide, rfl⟩

theorem witness_OnlyAlignedWordTransactions : (8 : Nat) ≠ 32 ∨ 0x00004 % 4 ≠ 0 := .inl (by decide)

theorem witness_ReservedAndWrongWayAccessesRefused :
    (0x0002C ≤ 0x0002C ∧ 0x0002C ≤ 0x0FFFF) ∧ (0x30000 ≤ 0x3FFFF ∧ 0x3FFFF ≤ 0x3FFFF) ∧ 0x60000 ≤ 0x60000 ∧
    (0x0001C ≤ 0x00028 ∧ 0x00028 ≤ 0x00028) := by decide

theorem witness_TableWindowReadsTheTable : (127 : Nat) ≤ 16383 ∧ twoVoices.busy = false ∧ twoVoices.ready = true ∧
    127 < twoVoices.n := ⟨by decide, rfl, rfl, by decide⟩

theorem witness_VoiceWindowReadsAndWritesVoices : (1 : Nat) ≤ 8191 ∧ twoVoices.busy = false ∧ twoVoices.fault = false ∧
    1 < twoVoices.vc := ⟨by decide, rfl, rfl, by decide⟩

theorem witness_OutWindowReadsAndWritesFrames : (4095 : Nat) ≤ 16383 ∧ State.reset.busy = false ∧
    State.reset.fault = false ∧ 4095 < State.reset.caps.maxF := ⟨by decide, rfl, rfl, by decide⟩

theorem witness_RegisterBlockReads : twoVoices.eng = .idle := rfl

theorem witness_CommandAcceptance : State.reset.eng = .idle ∧ State.reset.fault = false ∧
    (accepted State.reset 1).busy = true := ⟨rfl, rfl, rfl⟩

theorem witness_InitBuildsTableAndVoices :
    2 ≤ initDefault.operands.tableSize.toNat ∧ initDefault.operands.tableSize.toNat ≤ initDefault.caps.maxN ∧
    1 ≤ initDefault.operands.voiceCount.toNat ∧ initDefault.operands.voiceCount.toNat ≤ initDefault.caps.maxV := by decide

theorem witness_PrepareReplacesVoices :
    (withRegs twoVoices 0x473B8000 1024 1 0).ready = true ∧
    1 ≤ (withRegs twoVoices 0x473B8000 1024 1 0).operands.voiceCount.toNat ∧
    (withRegs twoVoices 0x473B8000 1024 1 0).operands.voiceCount.toNat ≤ (withRegs twoVoices 0x473B8000 1024 1 0).caps.maxV :=
  ⟨rfl, by decide, by decide⟩

theorem witness_SetfreqWritesTheIncrement : twoVoices.ready = true ∧ 1 < twoVoices.vc := ⟨rfl, by decide⟩

theorem witness_SetfreqTwiceIsSetfreqOnce :
    twoVoices.ready = true ∧ 1 < twoVoices.vc ∧ ∃ t, exec (.setfreq 1) twoVoices = .next t := ⟨rfl, by decide, _, rfl⟩

theorem witness_NextProducesOneSample :
    twoVoices.ready = true ∧ 0 < twoVoices.vc ∧ inDomain twoVoices.n (twoVoices.read .phase 0) = true ∧
    twoVoices.n ≤ ffloorU (twoVoices.read .phase 0) := ⟨rfl, by decide, by decide +kernel, by decide +kernel⟩

theorem witness_NextProducesOneSample_inside :
    inDomain 128 0x42FDFFFF = true ∧ ffloorU 0x42FDFFFF + 2 = 128 ∧
    inDomain 128 0x42FE0000 = true ∧ ffloorU 0x42FE0000 + 1 = 128 := by decide +kernel

theorem witness_LookupDomainIsZeroToN : (128 : Nat) ≤ 16384 ∧ inDomain 128 0x80000000 = true ∧
    inDomain 128 0x4300FFFF = true ∧ inDomain 128 0x43010000 = false := by decide +kernel

theorem witness_PhaseStaysInRange : (2 : Nat) ≤ 128 ∧ 128 ≤ 16384 ∧ InRange 128 0x43000000 ∧ InRange 128 0x80000000 := by
  unfold InRange; decide +kernel

theorem witness_PhaseExactlyNSoundsSilent : (2 : Nat) ≤ 128 ∧ 128 ≤ 16384 ∧ fadd 0x42FE0000 0x3F800000 = i2f 128 ∧
    twoVoices.n = 128 ∧ twoVoices.read .table 0 = 0 ∧ isFinite (twoVoices.read .table 1) = true := by decide +kernel

theorem next_answers (s : State) (v : Nat) : ∃ t, exec (.next v) s = .next t := by
  simp only [exec, execNext]
  split
  · exact ⟨_, rfl⟩
  · split
    · exact ⟨_, rfl⟩
    · split <;> exact ⟨_, rfl⟩

theorem witness_NextDependsOnItsOwnVoiceAlone :
    twoVoices.ready = true ∧ (ready [0, 0] [0, 0x43000000]).ready = true ∧ 1 < twoVoices.vc ∧
    1 < (ready [0, 0] [0, 0x43000000]).vc ∧ twoVoices.n = (ready [0, 0] [0, 0x43000000]).n ∧
    (∀ i, twoVoices.read .table i = (ready [0, 0] [0, 0x43000000]).read .table i) ∧
    twoVoices.read .phase 1 = (ready [0, 0] [0, 0x43000000]).read .phase 1 ∧
    twoVoices.read .pinc 1 = (ready [0, 0] [0, 0x43000000]).read .pinc 1 ∧
    twoVoices.sample = (ready [0, 0] [0, 0x43000000]).sample ∧
    (∃ t, exec (.next 1) twoVoices = .next t) ∧ (∃ t, exec (.next 1) (ready [0, 0] [0, 0x43000000]) = .next t) :=
  ⟨rfl, rfl, by decide, by decide, rfl, fun _ => rfl, rfl, rfl, rfl, next_answers twoVoices 1, next_answers _ 1⟩

/-- The block stays in the lookup domain, as a check. -/
def blockInDomain (s : State) (k : Nat) : Bool :=
  (List.range k).all fun f => (List.range s.vc).all fun v => inDomain s.n (phaseAt s v f)

theorem blockInDomain_iff (s : State) (k : Nat) (h : blockInDomain s k = true) : BlockInDomain s k := by
  intro f hf v hv
  simp only [blockInDomain, List.all_eq_true, List.mem_range] at h
  exact h f hf v hv

theorem witness_RenderMixesTheBlock :
    twoVoices.ready = true ∧ 3 ≤ twoVoices.caps.maxF ∧ BlockInDomain twoVoices 3 :=
  ⟨rfl, by decide, blockInDomain_iff _ _ (by decide +kernel)⟩

theorem witness_RenderStopsAtTheFirstBadPhase :
    (ready [0, 0] [0x3F800000, 0x43480000]).ready = true ∧ 3 ≤ (ready [0, 0] [0x3F800000, 0x43480000]).caps.maxF ∧
    2 < 3 ∧ 1 < (ready [0, 0] [0x3F800000, 0x43480000]).vc ∧ BlockInDomain (ready [0, 0] [0x3F800000, 0x43480000]) 2 ∧
    (∀ u, u < 1 → inDomain (ready [0, 0] [0x3F800000, 0x43480000]).n
      (phaseAt (ready [0, 0] [0x3F800000, 0x43480000]) u 2) = true) ∧
    inDomain (ready [0, 0] [0x3F800000, 0x43480000]).n (phaseAt (ready [0, 0] [0x3F800000, 0x43480000]) 1 2) = false := by
  refine ⟨rfl, by decide, by decide, by decide, blockInDomain_iff _ _ (by decide +kernel), ?_, by decide +kernel⟩
  intro u hu
  obtain rfl : u = 0 := by omega
  decide +kernel

theorem witness_RenderOfVoicesInRangeNeverFaults :
    twoVoices.ready = true ∧ 4096 ≤ twoVoices.caps.maxF ∧ 2 ≤ twoVoices.n ∧ twoVoices.n ≤ 16384 ∧
    (∀ v, v < twoVoices.vc →
      InRange twoVoices.n (twoVoices.read .phase v) ∧ InRange twoVoices.n (twoVoices.read .pinc v)) := by
  refine ⟨rfl, by decide, by decide, by decide, ?_⟩
  intro v hv
  have hv : v < 2 := hv
  unfold InRange
  interval_cases v <;> decide +kernel

theorem render_answers (s : State) (k : Nat) : ∃ t, exec (.render k) s = .next t := by
  simp only [exec, execRender]
  split
  · exact ⟨_, rfl⟩
  · split
    · exact ⟨_, rfl⟩
    · split <;> exact ⟨_, rfl⟩

/-- The second state is one after RENDER 1 in which the host has put back what the first words held before. -/
theorem witness_BlocksMayBeSplit :
    (cleared 3 twoVoices).ready = true ∧ 1 + 2 ≤ (cleared 3 twoVoices).caps.maxF ∧
    BlockInDomain (cleared 3 twoVoices) (1 + 2) ∧
    ∃ t1 u : State, exec (.render 1) (cleared 3 twoVoices) = .next t1 ∧ u = { t1 with outL := u.outL, outR := u.outR } ∧
      ∀ f, f < 2 → u.read .outL f = (cleared 3 twoVoices).read .outL (1 + f) ∧
        u.read .outR f = (cleared 3 twoVoices).read .outR (1 + f) := by
  obtain ⟨t1, h⟩ := render_answers (cleared 3 twoVoices) 1
  refine ⟨rfl, by decide, blockInDomain_iff _ _ (by decide +kernel), t1,
    { t1 with outL := (cleared 3 twoVoices).outL, outR := (cleared 3 twoVoices).outR }, h, rfl, ?_⟩
  intro f hf
  interval_cases f <;> exact ⟨rfl, rfl⟩

/-- At the last frame of the block, and at the first one after it. -/
theorem witness_EqualChannelsStayEqual :
    (cleared 5 twoVoices).read .outL 3 = (cleared 5 twoVoices).read .outR 3 ∧
    (cleared 5 twoVoices).read .outL 4 = (cleared 5 twoVoices).read .outR 4 ∧
    ∃ t, exec (.render 4) (cleared 5 twoVoices) = .next t := ⟨rfl, rfl, render_answers _ _⟩

theorem witness_ChecksInOrderOfPriority :
    (withRegs State.reset 0 200 1 0).operands.tableSize.toNat < 2 ∧
    State.reset.caps.maxN < (withRegs State.reset 0 200 4097 0).operands.tableSize.toNat ∧
    (withRegs State.reset 0 0 2 0).operands.voiceCount = 0 ∧
    State.reset.caps.maxV < (withRegs State.reset 0 1025 2 0).operands.voiceCount.toNat ∧
    State.reset.ready = false ∧ twoVoices.ready = true ∧ twoVoices.vc ≤ 2 ∧
    inDomain (ready [0x43010000] [0]).n ((ready [0x43010000] [0]).read .phase 0) = false ∧
    (ready [0x43010000] [0]).ready = true ∧ 0 < (ready [0x43010000] [0]).vc ∧ twoVoices.caps.maxF < 4097 := by
  decide +kernel

/-- Both registers of the operand checks at their bounds in one state: INIT and PREPARE with a table of 2 and no voice. -/
theorem witness_ChecksInOrderOfPriority_voices :
    2 ≤ (withRegs twoVoices 0 0 2 0).operands.tableSize.toNat ∧
    (withRegs twoVoices 0 0 2 0).operands.tableSize.toNat ≤ (withRegs twoVoices 0 0 2 0).caps.maxN ∧
    (withRegs twoVoices 0 0 2 0).operands.voiceCount = 0 ∧ (withRegs twoVoices 0 0 2 0).ready = true := by decide

theorem witness_ForgottenSampleRateFaultsInFrameOne :
    State.reset.operands.sampleRate = 0 ∧ State.reset.caps.legal = true ∧ 2 ≤ State.reset.caps.maxF ∧
    2 ≤ State.reset.operands.tableSize.toNat ∧ State.reset.operands.tableSize.toNat ≤ State.reset.caps.maxN ∧
    1 ≤ State.reset.operands.voiceCount.toNat ∧ State.reset.operands.voiceCount.toNat ≤ State.reset.caps.maxV := by decide

theorem witness_FreshIncrementsAreInRange :
    IsNote 0x42400000 ∧ IsNote 0x42A7FFFF ∧ isFinite 0x45000000 = true ∧ fge 0x45000000 0x45000000 = true := by
  unfold IsNote; decide +kernel

theorem witness_RendersAfterInitNeverFault :
    initDefault.caps.legal = true ∧ initDefault.fault = false ∧ isFinite initDefault.operands.sampleRate = true ∧
    fge initDefault.operands.sampleRate 0x45000000 = true ∧
    2 ≤ initDefault.operands.tableSize.toNat ∧ initDefault.operands.tableSize.toNat ≤ initDefault.caps.maxN ∧
    1 ≤ initDefault.operands.voiceCount.toNat ∧ initDefault.operands.voiceCount.toNat ≤ initDefault.caps.maxV ∧
    (∀ k ∈ [0, 4096], k ≤ initDefault.caps.maxF) := by decide +kernel

theorem witness_StepKeepsTheInvariant : Inv rateWritten ∧ ∃ t, step rateWritten = .next t := ⟨rateWritten_inv, _, rfl⟩

theorem witness_EachRegisterHasItsWriters : ∃ t, step initDefault = .next t := ⟨_, rfl⟩

/-- A command word changes READY (INIT), and the phase and SAMPLE of its voice (NEXT). -/
theorem witness_EachRegisterHasItsWriters_engine :
    (∃ t, step initDefault = .next t ∧ t.ready ≠ initDefault.ready) ∧
    after (ready [0x3F800000] [0x3F800000]) 0x00000004 (fun t =>
      t.read .phase 0 != 0x3F800000 && t.sample != 0 && t.eng == .idle) = true :=
  ⟨⟨_, rfl, by decide⟩, by decide +kernel⟩

/-- An illegal word changes FAULT, CODE and FAULTINFO. -/
theorem witness_EachRegisterHasItsWriters_fault : after State.reset 0xFFFFFFFF (fun t =>
    t.fault != State.reset.fault && t.code != State.reset.code && t.faultInfo != State.reset.faultInfo) = true := by
  decide +kernel

/-- The state after one write of the host. -/
def written (s : State) (addr : Nat) (w : Word) : State := hostTurn s (.write 32 addr w) []

/-- A host write changes the operand register, the voice register, the buffer word or the engine state it is to. -/
theorem witness_EachRegisterHasItsWriters_host :
    (written State.reset 0x0000C 1).regs.sampleRate ≠ State.reset.regs.sampleRate ∧
    (written State.reset 0x00018 1).regs.freq ≠ State.reset.regs.freq ∧
    (written twoVoices 0x20008 1).read .phase 1 ≠ twoVoices.read .phase 1 ∧
    (written twoVoices 0x2000C 1).read .pinc 1 ≠ twoVoices.read .pinc 1 ∧
    (written (cleared 1 State.reset) 0x40000 1).read .outL 0 ≠ (cleared 1 State.reset).read .outL 0 ∧
    (written (cleared 1 State.reset) 0x50000 1).read .outR 0 ≠ (cleared 1 State.reset).read .outR 0 ∧
    (written State.reset 0x00000 1).eng ≠ State.reset.eng := by decide +kernel

theorem witness_RoundingIsToNearestEven : 0 < 3 ∧ spacingLog (2 ^ 24) 1 = 1 ∧ spacingLog (2 ^ 24 - 1) 1 = 0 := by
  decide +kernel

theorem witness_AdditionIsCorrectlyRounded :
    isNaN 0x7FC00000 = true ∧ isInf 0x7F800000 = true ∧ isInf 0xFF800000 = true ∧ isFinite 0x7F7FFFFF = true ∧
    scaled 0x80000000 + scaled 0x80000000 = 0 ∧ scaled 0x7F7FFFFF + scaled 0x7F7FFFFF ≠ 0 := by decide +kernel

theorem witness_SubtractionIsAdditionOfTheNegative :
    isNaN 0xFFC00001 = true ∧ isNaN 0x7F800000 = false ∧ isFinite 0x80000000 = true := by decide +kernel

theorem witness_MultiplicationIsCorrectlyRounded :
    (scaled 0x80000000 = 0 ∧ isInf 0x7F800000 = true) ∧ (isInf 0xFF800000 = true ∧ scaled 0x00000001 ≠ 0) ∧
    isFinite 0x7F7FFFFF = true := by decide +kernel

theorem witness_DivisionIsCorrectlyRounded :
    (scaled 0x00000000 = 0 ∧ scaled 0x80000000 = 0) ∧ isInf 0x7F800000 = true ∧
    (isFinite 0x00000001 = true ∧ scaled 0x00000001 ≠ 0) ∧ isInf 0xFF800000 = true ∧
    (isFinite 0xFF7FFFFF = true ∧ scaled 0xFF7FFFFF ≠ 0) := by decide +kernel

theorem witness_ComparisonsCompareValues :
    isNaN 0x7F800001 = true ∧ isFinite 0xFF7FFFFF = true ∧ isFinite 0x00000000 = true := by decide +kernel

theorem witness_NaNResultsAreCanonical :
    isNaN (fadd 0x7F800000 0xFF800000) = true ∧ isNaN (fsub 0 0xFFC00001) = true ∧ isNaN (fmul 0 0x7F800000) = true ∧
    isNaN (fdiv 0 0x80000000) = true := by decide +kernel

theorem witness_IntegerConversionIsExact : (16384 : Nat) ≤ 2 ^ 24 := by decide

theorem witness_FractionIsExact :
    isFinite 0x4B7FFFFF = true ∧ fge 0x4B7FFFFF 0x00000000 = true ∧ ffloorU 0x4B7FFFFF ≤ 2 ^ 24 ∧
    isFinite 0x80000000 = true ∧ fge 0x80000000 0x00000000 = true := by decide +kernel

theorem witness_QuarterScalingAndZeroAddAreExact :
    isFinite 0x01800000 = true ∧ 2 ^ 25 ≤ magnitude 0x01800000 ∧ scaled 0x80000000 = 0 ∧ isNaN 0x7F800000 = false := by
  decide +kernel

theorem witness_TableHasItsExactZeros : (2 : Nat) ≤ 3 ∧ 2 * 1 = 3 - 1 := by decide

theorem witness_TableIsAntisymmetric : (2 : Nat) ≤ 16384 ∧ 0 < 16382 ∧ 16382 < 16384 - 1 := by decide

theorem witness_TableFollowsTheRealSine : (2 : Nat) ≤ 16384 ∧ 16383 < 16384 := by decide

theorem witness_TuneIsBoundedAndMonotone : IsNote 0x42400000 ∧ IsNote 0x42A7FFFF ∧ fge 0x42A7FFFF 0x42400000 = true := by
  unfold IsNote; decide +kernel

theorem witness_TuneFollowsEqualTemperament : IsNote 0x428A0000 := by unfold IsNote; decide +kernel

end Sys2Proof.Tests
end

section
/-! PROOFS. The machine's state over steps: what the host's share of the state cannot do (O9), what a step can make of the
core (O43, O44), and the values and reads of the registers (O21, O31, O41, O42). -/

namespace Sys2Proof.Machine

/-! ### The word of a decoded command (spec/30_encoding.md R62, R63) -/

theorem encodeZ_fields {w : Word} (h : fieldZeroZ w = 0) : encodeZ (fieldOpcode w) = w := by
  rw [encodeZ, ← h]
  refine BitVec.eq_of_getLsbD_eq fun j hj => ?_
  simp only [fieldZeroZ, fieldOpcode, BitVec.getLsbD_append, BitVec.getLsbD_extractLsb']
  split
  · simp [*]
  · simp [show 8 + (j - 8) = j by omega]; omega

theorem encodeI_fields {w : Word} (h : fieldZeroI w = 0) : encodeI (fieldOpcode w) (fieldImm w) = w := by
  rw [encodeI, ← h, fieldImm, BitVec.ofNat_toNat, BitVec.setWidth_eq]
  refine BitVec.eq_of_getLsbD_eq fun j hj => ?_
  simp only [fieldZeroI, fieldOpcode, BitVec.getLsbD_append, BitVec.getLsbD_extractLsb']
  split
  · simp [*]
  · split
    · simp [show 8 + (j - 8) = j by omega, *]
    · simp [show 24 + (j - 8 - 16) = j by omega]; omega

theorem encode_of_decodeZ {i j : Instr} {w : Word} {op : BitVec 8} (hop : fieldOpcode w = op)
    (hj : encode j = encodeZ op) (h : decodeZ j w = .ok i) : encode i = w := by
  simp only [decodeZ] at h
  split at h
  · rename_i hz
    injection h with h
    rw [← h, hj, ← hop, encodeZ_fields hz]
  · cases h

theorem encode_of_decodeI {i : Instr} {mk : Nat → Instr} {w : Word} {op : BitVec 8} (hop : fieldOpcode w = op)
    (hmk : ∀ m, encode (mk m) = encodeI op m) (h : decodeI mk w = .ok i) : encode i = w := by
  simp only [decodeI] at h
  split at h
  · rename_i hz
    injection h with h
    rw [← h, hmk, ← hop, encodeI_fields hz]
  · cases h

/-- No word but a command's own decodes to it (R62). -/
theorem encode_of_decode {w : Word} {i : Instr} (h : decode w = .ok i) : encode i = w := by
  simp only [decode] at h
  split at h
  · exact encode_of_decodeZ ‹_› rfl h
  split at h
  · exact encode_of_decodeZ ‹_› rfl h
  split at h
  · exact encode_of_decodeI ‹_› (fun _ => rfl) h
  split at h
  · exact encode_of_decodeI ‹_› (fun _ => rfl) h
  split at h
  · exact encode_of_decodeI ‹_› (fun _ => rfl) h
  · cases h

/-! ### The host's share of the state (log entry 7) -/

/-- The same core under another bus master, who has these events pending and has had these answers. -/
def State.withHost (s : State) (p : List Event) (a : List Answer) : State := { s with pending := p, answers := a }

section
variable (s : State) (p : List Event) (a : List Answer)

@[simp] theorem State.withHost_n : (s.withHost p a).n = s.n := rfl
@[simp] theorem State.withHost_vc : (s.withHost p a).vc = s.vc := rfl
@[simp] theorem State.withHost_level : (s.withHost p a).level = s.level := rfl
@[simp] theorem State.withHost_read (sp : Space) (i : Nat) : (s.withHost p a).read sp i = s.read sp i := by
  cases sp <;> rfl

theorem State.withHost_write (sp : Space) (i : Nat) (w : Word) :
    (s.withHost p a).write sp i w = (s.write sp i w).withHost p a := by cases sp <;> rfl

theorem nextSample_withHost (v : Nat) :
    nextSample (s.withHost p a) v = (nextSample s v).map (fun x => (x.1, x.2.withHost p a)) := by
  simp only [nextSample_eq, State.withHost_n, State.withHost_read, State.withHost_write]
  split <;> rfl

theorem mixInto_withHost (f : Nat) (m : Word) : mixInto (s.withHost p a) f m = (mixInto s f m).withHost p a := by
  simp only [mixInto, State.withHost_read, State.withHost_write]

end

/-- An outcome with its next state replaced. -/
def onNext (g : State → State) : Host.Outcome State Fault Refusal → Host.Outcome State Fault Refusal
  | .next s => .next (g s)
  | .fault r => .fault r
  | .refused r => .refused r

theorem onNext_eq_next {g : State → State} {o : Host.Outcome State Fault Refusal} {t : State} (h : onNext g o = .next t) :
    ∃ u, o = .next u ∧ t = g u := by
  cases o with
  | next u => exact ⟨u, rfl, by injection h with h; exact h.symm⟩
  | fault r => cases h
  | refused r => cases h

theorem onNext_ite {g : State → State} {c d : Prop} [Decidable c] [Decidable d]
    {x y x' y' : Host.Outcome State Fault Refusal} (h : d ↔ c) (hx : x' = onNext g x) (hy : y' = onNext g y) :
    (if d then x' else y') = onNext g (if c then x else y) := by
  by_cases hc : c
  · rw [if_pos hc, if_pos (h.2 hc), hx]
  · rw [if_neg hc, if_neg (fun hd => hc (h.1 hd)), hy]

/-- A block's result with the state it ends with replaced. -/
def Block.mapState (g : State → State) : Block → Block
  | .done s => .done (g s)
  | .stopped s f v => .stopped (g s) f v

section
variable (p : List Event) (a : List Answer)

theorem renderVoices_withHost (f count v : Nat) (s : State) :
    renderVoices f count v (s.withHost p a) = (renderVoices f count v s).mapState (·.withHost p a) := by
  induction count generalizing v s with
  | zero => rfl
  | succ count ih =>
    simp only [renderVoices, nextSample_withHost]
    cases nextSample s v with
    | none => rfl
    | some x => simp only [Option.map_some, State.withHost_level, mixInto_withHost, ih]

theorem renderFrames_withHost (count f : Nat) (s : State) :
    renderFrames count f (s.withHost p a) = (renderFrames count f s).mapState (·.withHost p a) := by
  induction count generalizing f s with
  | zero => rfl
  | succ count ih =>
    simp only [renderFrames, State.withHost_vc, renderVoices_withHost]
    cases renderVoices f s.vc 0 s with
    | done t => exact ih (f + 1) t
    | stopped t g v => rfl

variable (s : State)

theorem execInit_withHost : execInit (s.withHost p a) = onNext (·.withHost p a) (execInit s) := by
  unfold execInit
  exact onNext_ite Iff.rfl rfl (onNext_ite Iff.rfl rfl rfl)

theorem execPrepare_withHost : execPrepare (s.withHost p a) = onNext (·.withHost p a) (execPrepare s) := by
  unfold execPrepare
  exact onNext_ite Iff.rfl rfl (onNext_ite Iff.rfl rfl rfl)

theorem execSetfreq_withHost (v : Nat) :
    execSetfreq v (s.withHost p a) = onNext (·.withHost p a) (execSetfreq v s) := by
  unfold execSetfreq
  exact onNext_ite Iff.rfl rfl (onNext_ite Iff.rfl rfl rfl)

theorem execNext_withHost (v : Nat) : execNext v (s.withHost p a) = onNext (·.withHost p a) (execNext v s) := by
  unfold execNext
  refine onNext_ite Iff.rfl rfl (onNext_ite Iff.rfl rfl ?_)
  rw [nextSample_withHost]
  cases nextSample s v <;> rfl

theorem execRender_withHost (k : Nat) :
    execRender k (s.withHost p a) = onNext (·.withHost p a) (execRender k s) := by
  unfold execRender
  refine onNext_ite Iff.rfl rfl (onNext_ite Iff.rfl rfl ?_)
  rw [renderBlock, renderBlock, renderFrames_withHost]
  cases renderFrames k 0 s <;> rfl

/-- A command neither reads nor writes the host's share. -/
theorem exec_withHost (i : Instr) : exec i (s.withHost p a) = onNext (·.withHost p a) (exec i s) := by
  cases i with
  | init => exact execInit_withHost p a s
  | prepare => exact execPrepare_withHost p a s
  | setfreq v => exact execSetfreq_withHost p a s v
  | next v => exact execNext_withHost p a s v
  | render k => exact execRender_withHost p a s k

theorem engineTurn_withHost : engineTurn (s.withHost p a) = onNext (·.withHost p a) (engineTurn s) := by
  cases he : s.eng with
  | idle => rw [engineTurn_idle he, engineTurn_idle (s := s.withHost p a) he]; rfl
  | run cmd ops =>
    cases hd : decode cmd with
    | ok i => rw [engineTurn_ok he hd, engineTurn_ok (s := s.withHost p a) he hd, exec_withHost]
    | error e => rw [engineTurn_illegal he hd, engineTurn_illegal (s := s.withHost p a) he hd]; rfl

end

/-! ### A running command is atomic to the host (R24, R48, R150) -/

/-- Whatever the host asks of a busy core, the core stays as it is. -/
theorem transact_busy {s : State} (h : s.busy = true) (x : Txn) : (transact s x).1 = s := by
  obtain h0 | ⟨-, -, -, hb, -⟩ := transact_cases s x
  · exact h0
  · rw [h] at hb; cases hb

theorem hostTurn_eq_withHost (s : State) (x : Txn) (rest : List Event) :
    hostTurn s x rest = (transact s x).1.withHost rest ((transact s x).2 :: s.answers) := rfl

theorem step_bus {s : State} {x : Txn} {rest : List Event} (h : s.pending = .bus x :: rest) :
    step s = .next (hostTurn s x rest) := by rw [step, turn, h]

/-- A transaction with a busy core changes the host's share only. -/
theorem step_bus_busy {s : State} (hb : s.busy = true) (x : Txn) (rest : List Event) (a : List Answer) :
    ∃ r, step (s.withHost (.bus x :: rest) a) = .next (s.withHost rest (r :: a)) := by
  have hx := transact_busy (s := s.withHost (.bus x :: rest) a) hb x
  refine ⟨(transact (s.withHost (.bus x :: rest) a) x).2, ?_⟩
  rw [step_bus rfl, hostTurn_eq_withHost, hx]
  rfl

theorem step_engine (s : State) (rest : List Event) (a : List Answer) :
    step (s.withHost (.engine :: rest) a) = onNext (·.withHost rest a) (engineTurn s) :=
  engineTurn_withHost rest a s

theorem run_succ {s t : State} (h : step s = .next t) (k : Nat) : core.run (k + 1) s = core.run k t := by
  have hc : core.step s = .next t := h
  simp only [Host.Core.run, hc]

/-- Transactions before the engine's turn leave the outcome of the command as it is. -/
theorem run_transactions_busy {s u : State} (hb : s.busy = true) (hu : engineTurn s = .next u) (rest : List Event)
    (txs : List Txn) (a : List Answer) : ∃ a',
      core.run (txs.length + 1) (s.withHost (txs.map .bus ++ .engine :: rest) a) = .next (u.withHost rest a') := by
  induction txs generalizing a with
  | nil =>
    have h : step (s.withHost (.engine :: rest) a) = .next (u.withHost rest a) := by rw [step_engine, hu, onNext]
    exact ⟨a, run_succ h 0⟩
  | cons x txs ih =>
    obtain ⟨r, h⟩ := step_bus_busy hb x (txs.map .bus ++ .engine :: rest) a
    obtain ⟨a', ha⟩ := ih (r :: a)
    exact ⟨a', (run_succ h (txs.length + 1)).trans ha⟩

/-- Settles O9: the transactions change nothing but the host's answers, and the command does not see these. -/
theorem transactionsWhileBusyDoNotMatter : Obligations.TransactionsWhileBusyDoNotMatter := by
  intro s t w ops txs rest heng ht
  have hb : s.busy = true := by rw [State.busy, heng, Engine.running]
  obtain ⟨u, hu, rfl⟩ := onNext_eq_next ((step_engine s rest s.answers).symm.trans ht)
  obtain ⟨a', ha⟩ := run_transactions_busy hb hu rest txs s.answers
  exact ⟨u.withHost rest a', ha, rfl, rfl⟩

/-! ### What a command makes of the core (R118, R119, R140, R141, R142) -/

/-- `Runs s i t`: the command `i` ends in `t` once its checks have passed in `s`; a RENDER may still be stopped inside its
block (R139). -/
inductive Runs (s : State) : Instr → State → Prop
  | init (hN : badTableSize s s.operands.tableSize.toNat = false)
      (hV : badVoiceCount s s.operands.voiceCount.toNat = false) :
      Runs s .init { prepare (tableBuild { s with n := s.operands.tableSize.toNat } s.operands.tableSize.toNat)
        s.operands.sampleRate s.operands.voiceCount.toNat with ready := true }.complete
  | prepare (hr : s.ready = true) (hV : badVoiceCount s s.operands.voiceCount.toNat = false) :
      Runs s .prepare (prepare s s.operands.sampleRate s.operands.voiceCount.toNat).complete
  | setfreq {v : Nat} (hr : s.ready = true) (hv : v < s.vc) :
      Runs s (.setfreq v) (setFrequency s v s.operands.freq s.operands.sampleRate).complete
  | next {v : Nat} (hr : s.ready = true) (hv : v < s.vc) :
      Runs s (.next v) { s.write .phase v (advance s.n (s.read .phase v) (s.read .pinc v)) with
        sample := sampleAt s (s.read .phase v) }.complete
  | render {k : Nat} (hr : s.ready = true) (hk : k ≤ s.caps.maxF) :
      Runs s (.render k) (renderBlock s k).state.complete
  | renderStopped {k f v : Nat} (hr : s.ready = true) (hk : k ≤ s.caps.maxF) :
      Runs s (.render k) ((renderBlock s k).state.raise .phase (infoPhase f v))

/-- Every command enters a fault at once, or runs. -/
theorem exec_raise_or_runs {i : Instr} {s t : State} (h : exec i s = .next t) :
    (∃ c info, t = s.raise c info) ∨ Runs s i t := by
  cases i with
  | init => exact (execInit_cases h).imp_right fun ⟨hN, hV, ht⟩ => ht ▸ .init hN hV
  | prepare => exact (execPrepare_cases h).imp_right fun ⟨hr, hV, ht⟩ => ht ▸ .prepare hr hV
  | setfreq v => exact (execSetfreq_cases h).imp_right fun ⟨hr, hv, ht⟩ => ht ▸ .setfreq hr hv
  | next v => exact (execNext_cases h).imp_right fun ⟨hr, hv, _, ht⟩ => ht ▸ .next hr hv
  | render k =>
    refine (execRender_cases h).imp_right fun ⟨hr, hk, hb⟩ => ?_
    obtain ⟨u, hu, rfl⟩ | ⟨u, f, v, hu, rfl⟩ := hb
    · have hrun := Runs.render hr hk
      rwa [hu] at hrun
    · have hrun := Runs.renderStopped (f := f) (v := v) hr hk
      rwa [hu] at hrun

/-! ### What a step makes of the core -/

/-- What a step can make of the core, the host's share aside: nothing; by the host's write, the acceptance of a command, a
new operand or a new word of a window; by the engine, a fault or what a command ends in. -/
inductive Effect (s : State) : State → Prop
  | quiet : Effect s s
  | accepted {w : Word} (hw : HostWrites s 0x00000 w) : Effect s (s.accept w)
  | operand {addr : Nat} {w : Word} (hw : HostWrites s addr w) (hl : 0x0000C ≤ addr) (hu : addr ≤ 0x00018) :
      Effect s { s with regs := writtenRegs s.regs addr w }
  | location {sp : Space} {i : Nat} {w : Word} (hw : HostWrites s (windowAddr sp i) w) (hs : hostWrites sp = true)
      (hv : s.visible sp i = true) : Effect s (s.write sp i w)
  | raised {w : Word} {ops : Operands} {c : Cause} {info : Word} (hn : ∃ rest, EngineNext s rest)
      (he : s.eng = .run w ops) : Effect s (s.raise c info)
  | ran {i : Instr} {t : State} (hi : EngineRuns s i) (hr : Runs s i t) : Effect s t

theorem transact_effect {s : State} {x : Txn} {rest : List Event} (hp : s.pending = .bus x :: rest) :
    Effect s (transact s x).1 := by
  obtain h | ⟨addr, w, rfl, hb, hf, -, hw⟩ := transact_cases s x
  · rw [h]; exact .quiet
  · have hh : HostWrites s addr w := ⟨⟨rest, hp⟩, hb, hf⟩
    obtain ⟨rfl, h⟩ | ⟨hl, hu, h⟩ | ⟨sp, i, rfl, hs, hv, h⟩ := hw
    · rw [h]; exact .accepted hh
    · rw [h]; exact .operand hh hl hu
    · rw [h]; exact .location hh hs hv

theorem engineTurn_effect {s t : State} (hn : ∃ rest, EngineNext s rest) (h : engineTurn s = .next t) : Effect s t := by
  cases he : s.eng with
  | idle =>
    rw [engineTurn_idle he] at h
    obtain rfl : s = t := by injection h
    exact .quiet
  | run w ops =>
    cases hd : decode w with
    | error e =>
      rw [engineTurn_illegal he hd] at h
      obtain rfl : s.raise .opcode w = t := by injection h
      exact .raised hn he
    | ok i =>
      rw [engineTurn_ok he hd] at h
      obtain ⟨c, info, rfl⟩ | hr := exec_raise_or_runs h
      · exact .raised hn he
      · exact .ran ⟨hn, ops, by rw [encode_of_decode hd, he]⟩ hr

/-- A step has an effect on the core and gives the host what is its own. -/
theorem step_effect {s t : State} (h : step s = .next t) : ∃ u p a, Effect s u ∧ t = u.withHost p a := by
  obtain ⟨x, rest, hp, rfl⟩ | ⟨rest, hn, he⟩ := step_cases h
  · exact ⟨_, rest, _, transact_effect hp, hostTurn_eq_withHost s x rest⟩
  · obtain ⟨u, hu, rfl⟩ := onNext_eq_next ((engineTurn_withHost rest s.answers s).symm.trans he)
    exact ⟨u, rest, s.answers, engineTurn_effect ⟨rest, hn⟩ hu, rfl⟩

/-! ### What a block leaves alone (R135) -/

theorem SameButMix.proj {α : Type} {s t : State} (h : SameButMix s t) (g : State → α) :
    g t = g { s with phase := t.phase, outL := t.outL, outR := t.outR } := congrArg g h

section
variable (s : State) (k : Nat)

@[simp] theorem renderBlock_ready : (renderBlock s k).state.ready = s.ready :=
  (renderBlock_sameButMix s k).proj State.ready
@[simp] theorem renderBlock_fault : (renderBlock s k).state.fault = s.fault :=
  (renderBlock_sameButMix s k).proj State.fault
@[simp] theorem renderBlock_code : (renderBlock s k).state.code = s.code :=
  (renderBlock_sameButMix s k).proj State.code
@[simp] theorem renderBlock_faultInfo : (renderBlock s k).state.faultInfo = s.faultInfo :=
  (renderBlock_sameButMix s k).proj State.faultInfo
@[simp] theorem renderBlock_regs : (renderBlock s k).state.regs = s.regs :=
  (renderBlock_sameButMix s k).proj State.regs
@[simp] theorem renderBlock_sample : (renderBlock s k).state.sample = s.sample :=
  (renderBlock_sameButMix s k).proj State.sample
@[simp] theorem renderBlock_n : (renderBlock s k).state.n = s.n := (renderBlock_sameButMix s k).proj State.n
@[simp] theorem renderBlock_vc : (renderBlock s k).state.vc = s.vc := (renderBlock_sameButMix s k).proj State.vc
@[simp] theorem renderBlock_level : (renderBlock s k).state.level = s.level :=
  (renderBlock_sameButMix s k).proj State.level
@[simp] theorem renderBlock_table : (renderBlock s k).state.table = s.table :=
  (renderBlock_sameButMix s k).proj State.table
@[simp] theorem renderBlock_draws : (renderBlock s k).state.draws = s.draws :=
  (renderBlock_sameButMix s k).proj State.draws
@[simp] theorem renderBlock_caps : (renderBlock s k).state.caps = s.caps :=
  (renderBlock_sameButMix s k).proj State.caps

end

/-! ### Ranges of the operands and of the windows -/

theorem badTableSize_eq_false {s : State} {N : Nat} : badTableSize s N = false ↔ 2 ≤ N ∧ N ≤ s.caps.maxN := by
  simp [badTableSize, Nat.succ_le_iff]

theorem badVoiceCount_eq_false {s : State} {V : Nat} : badVoiceCount s V = false ↔ 1 ≤ V ∧ V ≤ s.caps.maxV := by
  simp [badVoiceCount, Nat.one_le_iff_ne_zero]

theorem busy_eq_false {s : State} : s.busy = false ↔ s.eng = .idle := by
  cases h : s.eng <;> simp [State.busy, Engine.running, h]

/-- What the host can see of a memory lies inside its capacity. -/
theorem ConfigInForce.lt_spaceSize {s : State} (h : ConfigInForce s) {sp : Space} {i : Nat}
    (hv : s.visible sp i = true) : i < spaceSize s.caps sp := by
  obtain ⟨-, hready⟩ := h
  cases sp <;> simp only [State.visible, Bool.and_eq_true, decide_eq_true_eq] at hv <;> simp only [spaceSize]
  case table => obtain ⟨-, hn, -⟩ := hready hv.1; omega
  case phase => obtain ⟨-, -, -, hvc, -⟩ := hready hv.1; omega
  case pinc => obtain ⟨-, -, -, hvc, -⟩ := hready hv.1; omega
  case outL => exact hv
  case outR => exact hv

/-! ### The memories stay canonical -/

theorem MemoriesCanonical.write {s : State} (h : MemoriesCanonical s) {sp : Space} {i : Nat} (w : Word)
    (hi : i < spaceSize s.caps sp) : MemoriesCanonical (s.write sp i w) := by
  intro sp'
  rw [State.write_caps, State.mem_write]
  split
  · rename_i e
    subst e
    exact Mem.wf_set _ _ i w hi (h sp')
  · exact h sp'

theorem MemoriesCanonical.tableBuild {s : State} (h : MemoriesCanonical s) {N : Nat} (hN : N ≤ s.caps.maxN) :
    MemoriesCanonical (tableBuild s N) := by
  intro sp
  cases sp with
  | table => exact Mem.wf_fill _ (tableWords N) _ ((tableWords_length N).trans_le hN) (h .table)
  | phase => exact h .phase
  | pinc => exact h .pinc
  | outL => exact h .outL
  | outR => exact h .outR

theorem MemoriesCanonical.prepare {s : State} (h : MemoriesCanonical s) (sr : Word) {count : Nat}
    (hc : count ≤ s.caps.maxV) : MemoriesCanonical (prepare s sr count) := by
  intro sp
  cases sp with
  | table => exact h .table
  | phase => exact Mem.wf_fill _ (List.replicate count 0) _ (List.length_replicate.trans_le hc) (h .phase)
  | pinc =>
    exact Mem.wf_fill _ (freshIncrements s.n s.draws sr count) _ ((freshIncrements_length _ _ _ _).trans_le hc) (h .pinc)
  | outL => exact h .outL
  | outR => exact h .outR

theorem MemoriesCanonical.mixInto {s : State} (h : MemoriesCanonical s) {f : Nat} (m : Word) (hf : f < s.caps.maxF) :
    MemoriesCanonical (mixInto s f m) :=
  (h.write (sp := .outL) _ hf).write (sp := .outR) _ hf

theorem renderVoices_memoriesCanonical {f count v : Nat} {s : State} (h : MemoriesCanonical s) (hf : f < s.caps.maxF)
    (hv : v + count ≤ s.caps.maxV) : MemoriesCanonical (renderVoices f count v s).state := by
  induction count generalizing v s with
  | zero => exact h
  | succ count ih =>
    simp only [renderVoices]
    split
    · exact h
    · rename_i w t ht
      obtain ⟨-, -, rfl⟩ := nextSample_some ht
      have hp := h.write (sp := .phase) (i := v) (advance s.n (s.read .phase v) (s.read .pinc v))
        (show v < s.caps.maxV by omega)
      exact ih (hp.mixInto _ hf) hf (show v + 1 + count ≤ s.caps.maxV by omega)

theorem renderFrames_memoriesCanonical {count f : Nat} {s : State} (h : MemoriesCanonical s)
    (hf : f + count ≤ s.caps.maxF) (hv : s.vc ≤ s.caps.maxV) : MemoriesCanonical (renderFrames count f s).state := by
  induction count generalizing f s with
  | zero => exact h
  | succ count ih =>
    have hm := renderVoices_memoriesCanonical (f := f) (count := s.vc) (v := 0) h (by omega) (by omega)
    have hs := renderVoices_sameButMix f s.vc 0 s
    simp only [renderFrames]
    split
    · rename_i t ht
      rw [ht] at hm hs
      have hcaps : t.caps = s.caps := SameButMix.proj hs State.caps
      have hvc : t.vc = s.vc := SameButMix.proj hs State.vc
      exact ih hm (by rw [hcaps]; omega) (by rw [hcaps, hvc]; exact hv)
    · rename_i t g v ht
      rw [ht] at hm
      exact hm

theorem renderBlock_memoriesCanonical {s : State} {k : Nat} (h : MemoriesCanonical s) (hk : k ≤ s.caps.maxF)
    (hv : s.vc ≤ s.caps.maxV) : MemoriesCanonical (renderBlock s k).state :=
  renderFrames_memoriesCanonical h (by omega) hv

theorem Runs.memoriesCanonical {s t : State} {i : Instr} (h : Runs s i t) (hm : MemoriesCanonical s)
    (hc : ConfigInForce s) : MemoriesCanonical t := by
  obtain ⟨-, hready⟩ := hc
  cases h with
  | init hN hV =>
    have hb := MemoriesCanonical.tableBuild (s := { s with n := s.operands.tableSize.toNat }) hm
      (badTableSize_eq_false.1 hN).2
    exact hb.prepare s.operands.sampleRate (badVoiceCount_eq_false.1 hV).2
  | prepare hr hV => exact hm.prepare s.operands.sampleRate (badVoiceCount_eq_false.1 hV).2
  | setfreq hr hv =>
    obtain ⟨-, -, -, hvc, -⟩ := hready hr
    exact hm.write (sp := .pinc) _ (lt_of_lt_of_le hv hvc)
  | next hr hv =>
    obtain ⟨-, -, -, hvc, -⟩ := hready hr
    exact hm.write (sp := .phase) _ (lt_of_lt_of_le hv hvc)
  | render hr hk | renderStopped hr hk =>
    obtain ⟨-, -, -, hvc, -⟩ := hready hr
    exact renderBlock_memoriesCanonical hm hk hvc

theorem Effect.memoriesCanonical {s t : State} (h : Effect s t) (hm : MemoriesCanonical s) (hc : ConfigInForce s) :
    MemoriesCanonical t := by
  cases h with
  | quiet => exact hm
  | accepted hw => exact hm
  | operand hw hl hu => exact hm
  | location hw hs hv => exact hm.write _ (hc.lt_spaceSize hv)
  | raised hn he => exact hm
  | ran hi hr => exact hr.memoriesCanonical hm hc

/-! ### The parameters, the fault record and the capture -/

theorem Effect.caps_eq {s t : State} (h : Effect s t) : t.caps = s.caps := by
  cases h with
  | ran hi hr => cases hr <;> simp
  | _ => simp

theorem Cause.code_bounds (c : Cause) : 1 ≤ c.code.toNat ∧ c.code.toNat ≤ 7 := by cases c <;> decide

theorem Runs.idle {s t : State} {i : Instr} (h : Runs s i t) : t.eng = .idle := by cases h <;> rfl

/-- A command leaves the fault record as it was, or that of a fault it entered (R151, R186). -/
theorem Runs.faultRecord {s t : State} {i : Instr} (h : Runs s i t) :
    (t.fault = s.fault ∧ t.code = s.code ∧ t.faultInfo = s.faultInfo) ∨
      (t.fault = true ∧ ∃ c : Cause, t.code = c.code) := by
  cases h with
  | renderStopped hr hk => exact .inr ⟨rfl, .phase, rfl⟩
  | _ => exact .inl (by simp)

theorem faultRecordConsistent_of_raised {t : State} (hi : t.eng = .idle) (hf : t.fault = true) {c : Cause}
    (hc : t.code = c.code) : FaultRecordConsistent t :=
  ⟨fun h => by simp [hf] at h, fun _ => ⟨hi, hc ▸ c.code_bounds⟩⟩

/-- Without a fault the engine's state is free. -/
theorem FaultRecordConsistent.of_safe {s t : State} (h : FaultRecordConsistent s) (hs : s.fault = false)
    (ht : t.fault = s.fault ∧ t.code = s.code ∧ t.faultInfo = s.faultInfo) : FaultRecordConsistent t := by
  obtain ⟨hf, hc, hi⟩ := ht
  exact ⟨fun _ => by rw [hc, hi]; exact h.1 hs, fun h1 => by rw [hf, hs] at h1; cases h1⟩

theorem FaultRecordConsistent.safe_of_running {s : State} (h : FaultRecordConsistent s) {w : Word} {ops : Operands}
    (he : s.eng = .run w ops) : s.fault = false := by
  by_contra hf
  have := (h.2 (by simpa using hf)).1
  rw [he] at this
  cases this

theorem Effect.faultRecordConsistent {s t : State} (h : Effect s t) (hs : FaultRecordConsistent s) :
    FaultRecordConsistent t := by
  cases h with
  | quiet => exact hs
  | accepted hw => obtain ⟨-, -, hf⟩ := hw; exact hs.of_safe hf (by simp)
  | operand hw hl hu => obtain ⟨-, -, hf⟩ := hw; exact hs.of_safe hf (by simp)
  | location hw _ hv => obtain ⟨-, -, hf⟩ := hw; exact hs.of_safe hf (by simp)
  | raised hn he => exact faultRecordConsistent_of_raised rfl rfl rfl
  | ran hi hr =>
    obtain ⟨-, ops, he⟩ := hi
    obtain hsame | ⟨hf, c, hc⟩ := hr.faultRecord
    · exact hs.of_safe (hs.safe_of_running he) hsame
    · exact faultRecordConsistent_of_raised hr.idle hf hc

theorem captureCurrent_of_idle {t : State} (h : t.eng = .idle) : CaptureCurrent t := by
  intro cmd captured he
  rw [h] at he
  cases he

theorem Effect.captureCurrent {s t : State} (h : Effect s t) (hs : CaptureCurrent s) : CaptureCurrent t := by
  cases h with
  | quiet => exact hs
  | accepted hw => intro cmd captured he; injection he with _ hr; exact hr.symm
  | operand hw hl hu => obtain ⟨-, hb, -⟩ := hw; exact captureCurrent_of_idle (busy_eq_false.1 hb)
  | location hw _ hv =>
    obtain ⟨-, hb, -⟩ := hw
    exact captureCurrent_of_idle ((State.write_eng s _ _ _).trans (busy_eq_false.1 hb))
  | raised hn he => exact captureCurrent_of_idle rfl
  | ran hi hr => exact captureCurrent_of_idle hr.idle

/-! ### The configuration in force (R14, R28) -/

/-- The two states have the same configuration: what R14 and R28 speak of, and SAMPLE. -/
def SameConfig (s t : State) : Prop :=
  t.ready = s.ready ∧ t.n = s.n ∧ t.vc = s.vc ∧ t.level = s.level ∧ t.sample = s.sample ∧ t.caps = s.caps ∧
  t.table = s.table

theorem ConfigInForce.of_same {s t : State} (h : ConfigInForce s) (hst : SameConfig s t) : ConfigInForce t := by
  obtain ⟨hready, hn, hvc, hlevel, hsample, hcaps, htable⟩ := hst
  have hread (i : Nat) : t.read .table i = s.read .table i := State.read_congr t s .table i htable
  simpa only [ConfigInForce, hready, hn, hvc, hlevel, hsample, hcaps, hread] using h

/-- The host writes every window but the table's. -/
theorem sameConfig_write {s : State} {sp : Space} {i : Nat} {w : Word} (hs : hostWrites sp = true) :
    SameConfig s (s.write sp i w) := by
  cases sp with
  | table => cases hs
  | phase | pinc | outL | outR => exact ⟨rfl, rfl, rfl, rfl, rfl, rfl, rfl⟩

theorem mixLevel_eq (count : Nat) : mixLevel count = fdiv 0x3E800000 (i2f count) := rfl

theorem Runs.configInForce {s t : State} {i : Instr} (h : Runs s i t) (hc : ConfigInForce s) : ConfigInForce t := by
  cases h with
  | init hN hV =>
    obtain ⟨h2, hmax⟩ := badTableSize_eq_false.1 hN
    obtain ⟨h1, hvmax⟩ := badVoiceCount_eq_false.1 hV
    refine ⟨fun h => Bool.noConfusion h, fun _ => ⟨h2, hmax, h1, hvmax, fun i hi => ?_, mixLevel_eq _⟩⟩
    exact (State.read_congr _ (tableBuild { s with n := s.operands.tableSize.toNat } s.operands.tableSize.toNat)
      .table i rfl).trans (read_tableBuild _ _ i hi)
  | prepare hr hV =>
    obtain ⟨h1, hvmax⟩ := badVoiceCount_eq_false.1 hV
    obtain ⟨h2, hmax, -, -, htable, -⟩ := hc.2 hr
    refine ⟨fun h => by simp [hr] at h,
      fun _ => ⟨h2, hmax, h1, hvmax, htable, mixLevel_eq _⟩⟩
  | setfreq hr hv => exact hc.of_same (by simp [SameConfig])
  | next hr hv =>
    exact ⟨fun h => by simp [hr] at h, fun _ => hc.2 hr⟩
  | render hr hk | renderStopped hr hk => exact hc.of_same (by simp [SameConfig])

theorem Effect.configInForce {s t : State} (h : Effect s t) (hc : ConfigInForce s) : ConfigInForce t := by
  cases h with
  | quiet => exact hc
  | location hw hs hv => exact hc.of_same (sameConfig_write hs)
  | accepted _ | operand _ _ _ | raised _ _ => exact hc.of_same (by simp [SameConfig])
  | ran hi hr => exact hr.configInForce hc

/-! ### The invariant -/

theorem Effect.inv {s t : State} (h : Effect s t) (hs : Inv s) : Inv t := by
  obtain ⟨hcaps, hmem, hfault, hcapture, hconfig⟩ := hs
  exact ⟨by rw [CapsLegal, h.caps_eq]; exact hcaps, h.memoriesCanonical hmem hconfig, h.faultRecordConsistent hfault,
    h.captureCurrent hcapture, h.configInForce hconfig⟩

/-- The invariant does not speak of the host. -/
theorem Inv.withHost {s : State} (h : Inv s) (p : List Event) (a : List Answer) : Inv (s.withHost p a) := h

/-- Settles O43: each part of the invariant is kept by every effect a step can have on the core. -/
theorem stepKeepsTheInvariant : Obligations.StepKeepsTheInvariant := by
  intro s t hs ht
  obtain ⟨u, p, a, hu, rfl⟩ := step_effect ht
  exact (hu.inv hs).withHost p a

/-- Settles O42: nothing is written, configured, running or faulted after reset. -/
theorem resetMeetsTheInvariant : Obligations.ResetMeetsTheInvariant :=
  ⟨by unfold CapsLegal; decide, fun sp => State.reset_mem_wf _ sp,
    ⟨fun _ => ⟨rfl, rfl⟩, fun h => by cases h⟩, captureCurrent_of_idle rfl,
    ⟨fun _ => ⟨rfl, rfl, rfl, rfl⟩, fun h => by cases h⟩⟩

/-! ### The writers of the registers (R13 to R18, R20, R21, R24)

Each lemma says of some registers that a step leaves them alone, or else which step it is. -/

theorem Effect.table_n_ready {s t : State} (h : Effect s t) :
    (t.table = s.table ∧ t.n = s.n ∧ t.ready = s.ready) ∨ EngineRuns s .init := by
  cases h with
  | quiet | accepted _ | operand _ _ _ | raised _ _ => exact .inl ⟨rfl, rfl, rfl⟩
  | location hw hs hv =>
    obtain ⟨hready, hn, -, -, -, -, htable⟩ := sameConfig_write hs
    exact .inl ⟨htable, hn, hready⟩
  | ran hi hr =>
    cases hr with
    | init _ _ => exact .inr hi
    | prepare _ _ | setfreq _ _ | next _ _ => exact .inl ⟨rfl, rfl, rfl⟩
    | render _ _ | renderStopped _ _ => exact .inl (by simp)

theorem Effect.vc_level_draws {s t : State} (h : Effect s t) :
    (t.vc = s.vc ∧ t.level = s.level ∧ t.draws = s.draws) ∨ EngineRuns s .init ∨ EngineRuns s .prepare := by
  cases h with
  | quiet | accepted _ | operand _ _ _ | location _ _ _ | raised _ _ => exact .inl (by simp)
  | ran hi hr =>
    cases hr with
    | init _ _ => exact .inr (.inl hi)
    | prepare _ _ => exact .inr (.inr hi)
    | setfreq _ _ | next _ _ | render _ _ | renderStopped _ _ => exact .inl (by simp)

theorem Effect.sample {s t : State} (h : Effect s t) : t.sample = s.sample ∨ ∃ v, EngineRuns s (.next v) := by
  cases h with
  | quiet | accepted _ | operand _ _ _ | location _ _ _ | raised _ _ => exact .inl (by simp)
  | ran hi hr =>
    cases hr with
    | next _ _ => exact .inr ⟨_, hi⟩
    | init _ _ | prepare _ _ | setfreq _ _ | render _ _ | renderStopped _ _ => exact .inl (by simp)

/-- The engine takes its step, with a word accepted, and is idle after it. -/
def EngineEnds (s t : State) : Prop := (∃ rest, EngineNext s rest) ∧ (∃ w ops, s.eng = .run w ops) ∧ t.eng = .idle

theorem Runs.engineEnds {s t : State} {i : Instr} (hi : EngineRuns s i) (h : Runs s i t) : EngineEnds s t := by
  obtain ⟨hn, ops, he⟩ := hi
  exact ⟨hn, ⟨_, ops, he⟩, h.idle⟩

theorem Effect.faultRecord {s t : State} (h : Effect s t) :
    (t.fault = s.fault ∧ t.code = s.code ∧ t.faultInfo = s.faultInfo) ∨ (EngineEnds s t ∧ t.fault = true) := by
  cases h with
  | quiet | accepted _ | operand _ _ _ | location _ _ _ => exact .inl (by simp)
  | raised hn he => exact .inr ⟨⟨hn, ⟨_, _, he⟩, rfl⟩, rfl⟩
  | ran hi hr => exact hr.faultRecord.imp_right fun ⟨hf, _⟩ => ⟨hr.engineEnds hi, hf⟩

theorem Effect.eng {s t : State} (h : Effect s t) :
    t.eng = s.eng ∨ (∃ w, HostWrites s 0x00000 w ∧ t.eng = .run w s.regs) ∨ EngineEnds s t := by
  cases h with
  | quiet | operand _ _ _ | location _ _ _ => exact .inl (by simp)
  | accepted hw => exact .inr (.inl ⟨_, hw, rfl⟩)
  | raised hn he => exact .inr (.inr ⟨hn, ⟨_, _, he⟩, rfl⟩)
  | ran hi hr => exact .inr (.inr (hr.engineEnds hi))

theorem Effect.ready_kept {s t : State} (h : Effect s t) (hs : s.ready = true) : t.ready = true := by
  cases h with
  | quiet | accepted _ | operand _ _ _ | location _ _ _ | raised _ _ => simpa using hs
  | ran hi hr => cases hr <;> simp [hs]

theorem Effect.fault_kept {s t : State} (h : Effect s t) (hs : s.fault = true) : t.fault = true := by
  obtain ⟨hf, -⟩ | ⟨-, hf⟩ := h.faultRecord
  · rw [hf, hs]
  · exact hf

/-! ### The writers of the operand registers (R17) -/

theorem Effect.regs {s t : State} (h : Effect s t) :
    t.regs = s.regs ∨ ∃ addr w, HostWrites s addr w ∧ t.regs = writtenRegs s.regs addr w := by
  cases h with
  | operand hw _ _ => exact .inr ⟨_, _, hw, rfl⟩
  | quiet | accepted _ | location _ _ _ | raised _ _ => exact .inl (by simp)
  | ran hi hr => cases hr <;> exact .inl (by simp)

/-- A field of the operand registers that follows the host's writes to one address has no other writer. -/
theorem Effect.operand_writer {s t : State} (h : Effect s t) (field : Operands → Word) (a : Nat)
    (hfield : ∀ r addr w, field (writtenRegs r addr w) = if addr = a then w else field r)
    (hne : field t.regs ≠ field s.regs) : HostWrites s a (field t.regs) := by
  obtain hr | ⟨addr, w, hw, hr⟩ := h.regs
  · exact absurd (congrArg field hr) hne
  · rw [hr, hfield] at hne ⊢
    split at hne
    · rename_i ha
      rw [if_pos ha, ← ha]
      exact hw
    · exact absurd rfl hne

theorem writtenRegs_sampleRate (r : Operands) (addr : Nat) (w : Word) :
    (writtenRegs r addr w).sampleRate = if addr = 0x0000C then w else r.sampleRate := by
  grind [writtenRegs]

theorem writtenRegs_voiceCount (r : Operands) (addr : Nat) (w : Word) :
    (writtenRegs r addr w).voiceCount = if addr = 0x00010 then w else r.voiceCount := by
  grind [writtenRegs]

theorem writtenRegs_tableSize (r : Operands) (addr : Nat) (w : Word) :
    (writtenRegs r addr w).tableSize = if addr = 0x00014 then w else r.tableSize := by
  grind [writtenRegs]

theorem writtenRegs_freq (r : Operands) (addr : Nat) (w : Word) :
    (writtenRegs r addr w).freq = if addr = 0x00018 then w else r.freq := by
  grind [writtenRegs]

/-! ### The writers of the words of memory (R11, R16) -/

/-- The words of memory a command may write in this state. -/
def MayWrite (s : State) : Instr → Space → Nat → Prop
  | .init, sp, _ => sp = .table ∨ sp = .phase ∨ sp = .pinc
  | .prepare, sp, _ => sp = .phase ∨ sp = .pinc
  | .setfreq v, sp, i => sp = .pinc ∧ i = v
  | .next v, sp, i => sp = .phase ∧ i = v
  | .render k, sp, i => (sp = .phase ∧ i < s.vc) ∨ ((sp = .outL ∨ sp = .outR) ∧ i < k)

theorem renderBlock_read_of_not_mayWrite {s : State} {k : Nat} {sp : Space} {j : Nat}
    (hw : ¬ MayWrite s (.render k) sp j) : (renderBlock s k).state.read sp j = s.read sp j := by
  simp only [MayWrite, not_or, not_and, not_lt] at hw
  exact renderBlock_read_other s k sp j hw.1 (fun ho => hw.2 ho)

theorem Runs.read_of_not_mayWrite {s t : State} {i : Instr} (h : Runs s i t) {sp : Space} {j : Nat}
    (hw : ¬ MayWrite s i sp j) : t.read sp j = s.read sp j := by
  cases h with
  | init _ _ =>
    cases sp with
    | table | phase | pinc => exact absurd (by simp [MayWrite]) hw
    | outL | outR => rfl
  | prepare _ _ =>
    cases sp with
    | phase | pinc => exact absurd (by simp [MayWrite]) hw
    | table | outL | outR => rfl
  | @setfreq v _ _ =>
    exact State.read_write_other s _ _ _ _ (increment s.n s.operands.freq s.operands.sampleRate)
      fun e => hw (by simpa [MayWrite] using e)
  | @next v _ _ =>
    exact State.read_write_other s _ _ _ _ (advance s.n (s.read .phase v) (s.read .pinc v))
      fun e => hw (by simpa [MayWrite] using e)
  | render _ _ => rw [State.read_complete, renderBlock_read_of_not_mayWrite hw]
  | renderStopped _ _ => rw [State.read_raise, renderBlock_read_of_not_mayWrite hw]

/-- A word of memory stays, or the host writes it, or a command that may write it runs. -/
theorem Effect.read {s t : State} (h : Effect s t) (sp : Space) (i : Nat) :
    t.read sp i = s.read sp i ∨ HostWrites s (windowAddr sp i) (t.read sp i) ∨
      ∃ c, EngineRuns s c ∧ MayWrite s c sp i := by
  cases h with
  | quiet => exact .inl rfl
  | accepted _ => exact .inl (State.read_accept ..)
  | operand _ _ _ => exact .inl (rfl)
  | raised _ _ => exact .inl (State.read_raise ..)
  | @location sp' j w hw hs hv =>
    by_cases he : (sp, i) = (sp', j)
    · obtain ⟨rfl, rfl⟩ := Prod.mk.inj he
      exact .inr (.inl (by rwa [State.read_write_same]))
    · exact .inl (State.read_write_other s _ _ _ _ _ he)
  | @ran c _ hi hr =>
    by_cases hw : MayWrite s c sp i
    · exact .inr (.inr ⟨c, hi, hw⟩)
    · exact .inl (hr.read_of_not_mayWrite hw)

theorem Effect.phase_writers {s t : State} (h : Effect s t) (v : Nat) (hne : t.read .phase v ≠ s.read .phase v) :
    EngineRuns s .init ∨ EngineRuns s .prepare ∨ EngineRuns s (.next v) ∨ (v < s.vc ∧ ∃ k, EngineRuns s (.render k)) ∨
      HostWrites s (0x20000 + 8 * v) (t.read .phase v) := by
  obtain hr | hr | ⟨c, hc, hw⟩ := h.read .phase v
  · exact absurd hr hne
  · exact .inr (.inr (.inr (.inr hr)))
  · cases c with
    | init => exact .inl hc
    | prepare => exact .inr (.inl hc)
    | setfreq u => exact absurd hw.1 (by decide)
    | next u => obtain ⟨-, rfl⟩ := hw; exact .inr (.inr (.inl hc))
    | render k => exact .inr (.inr (.inr (.inl ⟨by simpa [MayWrite] using hw, k, hc⟩)))

theorem Effect.pinc_writers {s t : State} (h : Effect s t) (v : Nat) (hne : t.read .pinc v ≠ s.read .pinc v) :
    EngineRuns s .init ∨ EngineRuns s .prepare ∨ EngineRuns s (.setfreq v) ∨
      HostWrites s (0x20004 + 8 * v) (t.read .pinc v) := by
  obtain hr | hr | ⟨c, hc, hw⟩ := h.read .pinc v
  · exact absurd hr hne
  · exact .inr (.inr (.inr hr))
  · cases c with
    | init => exact .inl hc
    | prepare => exact .inr (.inl hc)
    | setfreq u => obtain ⟨-, rfl⟩ := hw; exact .inr (.inr (.inl hc))
    | next u => exact absurd hw.1 (by decide)
    | render k => simp [MayWrite] at hw

/-- Of the commands only a RENDER of more than `f` frames writes frame `f`. -/
theorem Effect.out_writers {s t : State} (h : Effect s t) {sp : Space} (hsp : sp = .outL ∨ sp = .outR) (f : Nat)
    (hne : t.read sp f ≠ s.read sp f) :
    (∃ k, f < k ∧ EngineRuns s (.render k)) ∨ HostWrites s (windowAddr sp f) (t.read sp f) := by
  obtain hr | hr | ⟨c, hc, hw⟩ := h.read sp f
  · exact absurd hr hne
  · exact .inr hr
  · obtain ⟨k, rfl, hf⟩ : ∃ k, c = .render k ∧ f < k := by
      cases c <;> obtain rfl | rfl := hsp <;> simp [MayWrite] at hw ⊢
      all_goals exact hw
    exact .inl ⟨k, hf, hc⟩

/-- Settles O44: of every effect a step can have on the core, what it leaves alone. -/
theorem eachRegisterHasItsWriters : Obligations.EachRegisterHasItsWriters := by
  intro s t ht
  obtain ⟨u, p, a, hu, rfl⟩ := step_effect ht
  simp only [State.withHost_read]
  refine ⟨fun hne => ?_, fun hne => ?_, hu.sample.resolve_left, fun hne => ?_, hu.ready_kept, hu.fault_kept,
    hu.operand_writer _ _ writtenRegs_sampleRate, hu.operand_writer _ _ writtenRegs_voiceCount,
    hu.operand_writer _ _ writtenRegs_tableSize, hu.operand_writer _ _ writtenRegs_freq,
    hu.phase_writers, hu.pinc_writers, hu.out_writers (.inl rfl), hu.out_writers (.inr rfl),
    hu.eng.resolve_left, hu.caps_eq⟩
  · exact hu.table_n_ready.resolve_left fun ⟨h1, h2, h3⟩ => by tauto
  · exact hu.vc_level_draws.resolve_left fun ⟨h1, h2, h3⟩ => by tauto
  · obtain ⟨⟨hn, hr, hi⟩, hf⟩ := hu.faultRecord.resolve_left fun ⟨h1, h2, h3⟩ => by tauto
    exact ⟨hn, hr, hf, hi⟩

/-! ### NEXT and its voice (R11, R119, R226) -/

theorem exec_next_inDomain {s : State} {v : Nat} (hr : s.ready = true) (hv : v < s.vc)
    (hd : inDomain s.n (s.read .phase v) = true) :
    exec (.next v) s = .next { s.write .phase v (advance s.n (s.read .phase v) (s.read .pinc v)) with
      sample := sampleAt s (s.read .phase v) }.complete := by
  simp [exec, execNext, hr, not_le.2 hv, nextSample_eq, hd]

theorem exec_next_not_inDomain {s : State} {v : Nat} (hr : s.ready = true) (hv : v < s.vc)
    (hd : inDomain s.n (s.read .phase v) = false) :
    exec (.next v) s = .next (s.raise .phase (infoPhase 0 v)) := by
  simp [exec, execNext, hr, not_le.2 hv, nextSample_eq, hd]

/-- A sample reads nothing but the table (R103, R112). -/
theorem sampleAt_congr {s s' : State} (hn : s.n = s'.n) (ht : ∀ i, s.read .table i = s'.read .table i) (p : Word) :
    sampleAt s p = sampleAt s' p := by
  simp only [sampleAt, lookup, hn, ht]

/-- Settles O31: both states take the same branch of NEXT, and in it use the same words. -/
theorem nextDependsOnItsOwnVoiceAlone : Obligations.NextDependsOnItsOwnVoiceAlone := by
  intro s s' t t' v hr hr' hv hv' hn htable hphase hpinc hsample ht ht'
  cases hd : inDomain s.n (s.read .phase v) with
  | true =>
    rw [exec_next_inDomain hr hv hd] at ht
    rw [exec_next_inDomain hr' hv' (by rw [← hn, ← hphase, hd])] at ht'
    injection ht with ht
    injection ht' with ht'
    subst ht ht'
    refine ⟨?_, ?_, fun u hu => ⟨?_, rfl⟩⟩
    · exact (sampleAt_congr hn htable _).trans (congrArg (sampleAt s') hphase)
    · calc _ = advance s.n (s.read .phase v) (s.read .pinc v) := State.read_write_same s .phase v _
        _ = advance s'.n (s'.read .phase v) (s'.read .pinc v) := by rw [hn, hphase, hpinc]
        _ = _ := (State.read_write_same s' .phase v _).symm
    · exact State.read_write_other s .phase .phase v u _ fun e => hu (Prod.mk.inj e).2
  | false =>
    rw [exec_next_not_inDomain hr hv hd] at ht
    rw [exec_next_not_inDomain hr' hv' (by rw [← hn, ← hphase, hd])] at ht'
    injection ht with ht
    injection ht' with ht'
    subst ht ht'
    exact ⟨hsample, hphase, fun u _ => ⟨rfl, rfl⟩⟩

/-! ### What the host reads (R20, R160, R195) -/

/-- The STATUS word bit by bit (R20). -/
theorem status_getLsbD (s : State) (i : Nat) :
    s.status.getLsbD i =
      if i = 0 then s.busy else if i = 1 then s.ready else if i = 2 then s.fault
      else decide (8 ≤ i) && s.code.getLsbD (i - 8) := by
  simp only [State.status, BitVec.getLsbD_append, BitVec.getLsbD_ofBool]
  grind

theorem status_getLsbD_of_three_le (s : State) {i : Nat} (h : 3 ≤ i) :
    s.status.getLsbD i = (decide (8 ≤ i) && s.code.getLsbD (i - 8)) := by
  rw [status_getLsbD, if_neg (by omega), if_neg (by omega), if_neg (by omega)]

theorem status_extract_three (s : State) : s.status.extractLsb' 3 5 = 0 := by
  refine BitVec.eq_of_getLsbD_eq fun j hj => ?_
  rw [BitVec.getLsbD_extractLsb', status_getLsbD_of_three_le s (by omega)]
  simp
  omega

theorem status_extract_eight (s : State) : s.status.extractLsb' 8 8 = s.code := by
  refine BitVec.eq_of_getLsbD_eq fun j hj => ?_
  rw [BitVec.getLsbD_extractLsb', status_getLsbD_of_three_le s (by omega)]
  simp [hj]

theorem status_extract_sixteen (s : State) : s.status.extractLsb' 16 16 = 0 := by
  refine BitVec.eq_of_getLsbD_eq fun j hj => ?_
  rw [BitVec.getLsbD_extractLsb', status_getLsbD_of_three_le s (by omega), BitVec.getLsbD_of_ge s.code _ (by omega)]
  simp

/-- Settles O21: the fields of STATUS one by one, and the register at each address of the block. -/
theorem registerBlockReads : Obligations.RegisterBlockReads := by
  intro s
  refine ⟨⟨status_getLsbD s 0, status_getLsbD s 1, status_getLsbD s 2, status_extract_three s, status_extract_eight s,
    status_extract_sixteen s, status_getLsbD s 0, status_getLsbD s 2⟩, fun he => ?_⟩
  have hb : s.busy = false := busy_eq_false.2 he
  refine ⟨?_, ?_, ?_, ?_, ?_, ?_, ?_, ?_, ?_, ?_⟩ <;> (rw [busRead, hb]; rfl)

/-- Settles O41: the reads of the register block at the values reset gives; the windows are closed without READY. -/
theorem resetValuesAsTheHostReadsThem : Obligations.ResetValuesAsTheHostReadsThem := by
  obtain ⟨hstatus, hinfo, hrate, hvoices, hsize, hfreq, hsample, hlevel, hn, hvc⟩ :=
    (registerBlockReads State.reset).2 rfl
  exact ⟨rfl, hstatus, hinfo, hrate, hvoices, hsize, hfreq, hsample, hlevel, hn, hvc, rfl, rfl⟩

end Sys2Proof.Machine
end

section
/-! PROOFS. Bus transactions (spec/20_memory.md): what a read answers at a place, what an accepted write stores there
(O15), which transactions are refused (O16, O17), and that every step has a next state (O7). -/

namespace Sys2Proof.Machine

/-! ### The address map (R44) -/

theorem addrOk_eq_true {a : Nat} : addrOk a = true ↔ a % 4 = 0 ∧ a ≤ 0x7FFFF := by
  rw [addrOk, Bool.and_eq_true, decide_eq_true_eq, decide_eq_true_eq]

/-- The three reserved ranges, the last of which goes on beyond the address space. -/
theorem place_reserved {addr : Nat}
    (h : 0x0002C ≤ addr ∧ addr ≤ 0x0FFFF ∨ 0x30000 ≤ addr ∧ addr ≤ 0x3FFFF ∨ 0x60000 ≤ addr) :
    place addr = .reserved := by
  unfold place
  iterate 11 rw [if_neg (by omega)]
  obtain h | h | h := h
  · rw [if_pos (by omega)]
  · iterate 3 rw [if_neg (by omega)]
    rw [if_pos (by omega)]
  · iterate 6 rw [if_neg (by omega)]

/-- Two aligned addresses of one place are one address, unless nothing stands there. -/
theorem place_injective {a b : Nat} (ha : a % 4 = 0) (hb : b % 4 = 0) (h : place b = place a)
    (hr : place a ≠ .reserved) : b = a := by
  cases hp : place a with
  | reserved => exact absurd hp hr
  | window sp i => exact (place_window hb (h.trans hp)).trans (place_window ha hp).symm
  | _ => exact (place_register (h.trans hp) rfl).trans (place_register hp rfl).symm

/-! ### What a read answers (R160) -/

/-- The answer to a read of a place, once neither its address nor a running command refuses it. -/
def answerAt (s : State) : Place → Answer
  | .cmd => .err
  | .status => .okWord s.status
  | .faultInfo => .okWord s.faultInfo
  | .sampleRate => .okWord s.regs.sampleRate
  | .voiceCount => .okWord s.regs.voiceCount
  | .tableSize => .okWord s.regs.tableSize
  | .freq => .okWord s.regs.freq
  | .sample => .okWord s.sample
  | .level => .okWord s.level
  | .cfgN => .okWord (Word.ofNat s.n)
  | .cfgVc => .okWord (Word.ofNat s.vc)
  | .window sp i => if s.visible sp i then .okWord (s.read sp i) else .err
  | .reserved => .err

theorem busRead_eq (s : State) (addr : Nat) :
    busRead s addr =
      if !addrOk addr then .err else if s.busy && addr != 0x00004 then .err else answerAt s (place addr) := rfl

theorem busRead_of_not_addrOk (s : State) {addr : Nat} (h : addrOk addr = false) : busRead s addr = .err := by
  rw [busRead_eq, h]; rfl

/-- A place whose read is refused is refused at every address. -/
theorem busRead_err {s : State} {addr : Nat} (h : answerAt s (place addr) = .err) : busRead s addr = .err := by
  rw [busRead_eq, h, ite_self, ite_self]

theorem busRead_of_idle {s : State} {addr : Nat} (hb : s.busy = false) (ha : addrOk addr = true) :
    busRead s addr = answerAt s (place addr) := by
  rw [busRead_eq, hb, ha]; rfl

/-! ### What a write stores (R164) -/

/-- `Stored s w p t`: the write of `w` to the place `p` is accepted in `s` and leaves `t`. -/
inductive Stored (s : State) (w : Word) : Place → State → Prop
  | cmd : Stored s w .cmd (s.accept w)
  | sampleRate : Stored s w .sampleRate { s with regs := { s.regs with sampleRate := w } }
  | voiceCount : Stored s w .voiceCount { s with regs := { s.regs with voiceCount := w } }
  | tableSize : Stored s w .tableSize { s with regs := { s.regs with tableSize := w } }
  | freq : Stored s w .freq { s with regs := { s.regs with freq := w } }
  | window {sp : Space} {i : Nat} (hs : hostWrites sp = true) (hv : s.visible sp i = true) :
      Stored s w (.window sp i) (s.write sp i w)

/-- A write is refused and changes nothing, or an idle core without a fault stores its word. -/
theorem busWrite_cases (s : State) (addr : Nat) (w : Word) :
    busWrite s addr w = (s, .err) ∨
    (∃ t, busWrite s addr w = (t, .ok) ∧ addrOk addr = true ∧ s.busy = false ∧ s.fault = false ∧
      Stored s w (place addr) t) := by
  rw [busWrite]
  by_cases hna : (!addrOk addr) = true
  · exact .inl (if_pos hna)
  by_cases hnb : s.busy = true
  · exact .inl ((if_neg hna).trans (if_pos hnb))
  by_cases hnf : s.fault = true
  · exact .inl ((if_neg hna).trans ((if_neg hnb).trans (if_pos hnf)))
  rw [if_neg hna, if_neg hnb, if_neg hnf]
  have ha : addrOk addr = true := by simpa using hna
  have hb : s.busy = false := Bool.eq_false_iff.2 hnb
  have hf : s.fault = false := Bool.eq_false_iff.2 hnf
  cases place addr with
  | cmd => exact .inr ⟨_, rfl, ha, hb, hf, .cmd⟩
  | sampleRate => exact .inr ⟨_, rfl, ha, hb, hf, .sampleRate⟩
  | voiceCount => exact .inr ⟨_, rfl, ha, hb, hf, .voiceCount⟩
  | tableSize => exact .inr ⟨_, rfl, ha, hb, hf, .tableSize⟩
  | freq => exact .inr ⟨_, rfl, ha, hb, hf, .freq⟩
  | window sp i =>
    by_cases hv : (hostWrites sp && s.visible sp i) = true
    · obtain ⟨hs, hi⟩ := Bool.and_eq_true_iff.1 hv
      exact .inr ⟨_, if_pos hv, ha, hb, hf, .window hs hi⟩
    · exact .inl (if_neg hv)
  | _ => exact .inl rfl

/-- An accepted transaction stores its word at an aligned address of the address space. -/
theorem stored_of_accepted {s t : State} {bits addr : Nat} {w : Word} (h : transact s (.write bits addr w) = (t, .ok)) :
    addrOk addr = true ∧ s.busy = false ∧ Stored s w (place addr) t := by
  have hbits : bits = 32 := by
    by_contra hn
    rw [transact, if_neg hn] at h
    cases h
  rw [transact, if_pos hbits] at h
  obtain he | ⟨u, hu, ha, hb, -, hst⟩ := busWrite_cases s addr w
  · rw [he] at h; cases h
  · rw [hu] at h; cases h
    exact ⟨ha, hb, hst⟩

section
variable {s t : State} {w : Word} {p : Place}

/-- The place reads as the word: only CMD stores nothing. -/
theorem Stored.answerAt_same (h : Stored s w p t) (hp : p ≠ .cmd) : answerAt t p = .okWord w := by
  cases h with
  | cmd => exact absurd rfl hp
  | @window sp i hs hv =>
    have hvis : (s.write sp i w).visible sp i = true := by cases sp <;> exact hv
    rw [answerAt, if_pos hvis, State.read_write_same]
  | _ => rfl

/-- Every other place reads as before: of STATUS a write can change BUSY alone, and that at CMD. -/
theorem Stored.answerAt_other (h : Stored s w p t) (hp : p ≠ .cmd) {q : Place} (hq : q ≠ p) :
    answerAt t q = answerAt s q := by
  cases h with
  | cmd => exact absurd rfl hp
  | sampleRate => cases q with
    | sampleRate => exact absurd rfl hq
    | _ => rfl
  | voiceCount => cases q with
    | voiceCount => exact absurd rfl hq
    | _ => rfl
  | tableSize => cases q with
    | tableSize => exact absurd rfl hq
    | _ => rfl
  | freq => cases q with
    | freq => exact absurd rfl hq
    | _ => rfl
  | @window sp i hs hv => cases q with
    | window sp' j =>
      have hne : (sp', j) ≠ (sp, i) := fun e => hq (by cases e; rfl)
      have hvis : (s.write sp i w).visible sp' j = s.visible sp' j := by
        simp only [State.visible, State.write_ready, State.write_n, State.write_vc, State.write_caps]
      rw [answerAt, answerAt, hvis, State.read_write_other _ _ _ _ _ _ hne]
    | _ => cases sp <;> rfl

theorem Stored.eng_eq (h : Stored s w p t) (hp : p ≠ .cmd) : t.eng = s.eng := by
  cases h with
  | cmd => exact absurd rfl hp
  | window hs hv => exact State.write_eng s _ _ w
  | _ => rfl

theorem Stored.idle (h : Stored s w p t) (hp : p ≠ .cmd) (hb : s.busy = false) : t.busy = false := by
  rw [State.busy, h.eng_eq hp]; exact hb

/-- No memory word changes but the addressed one. -/
theorem Stored.window_of_read_ne (h : Stored s w p t) {sp : Space} {i : Nat} (hne : t.read sp i ≠ s.read sp i) :
    p = .window sp i := by
  cases h with
  | @window sp' j hs hv =>
    by_contra hw
    exact hne (State.read_write_other s sp' sp j i w fun e => hw (by cases e; rfl))
  | _ => exact absurd (by cases sp <;> rfl) hne

theorem Stored.place_ne_reserved (h : Stored s w p t) : p ≠ .reserved := by rintro rfl; cases h

/-- The addresses the host may write: CMD, the four operand registers, and the windows. -/
theorem Stored.addr_cases {addr : Nat} (h : Stored s w p t) (hp : place addr = p) (ha : addr % 4 = 0) :
    addr = 0x00000 ∨ 0x0000C ≤ addr ∧ addr ≤ 0x00018 ∨ 0x10000 ≤ addr := by
  cases h with
  | cmd => exact .inl (place_register hp rfl)
  | @window sp i hs hv =>
    have hw := place_window ha hp
    cases sp <;> (rw [windowAddr] at hw; omega)
  | _ =>
    have hr := place_register hp rfl
    omega

end

/-- Every address but the written one reads as before; the windows and registers stand at one address each. -/
theorem busRead_other_of_stored {s t : State} {w : Word} {addr a : Nat} (h : Stored s w (place addr) t)
    (ha : addrOk addr = true) (hb : s.busy = false) (hp : place addr ≠ .cmd) (hne : a ≠ addr) :
    busRead t a = busRead s a := by
  cases hok : addrOk a with
  | false => rw [busRead_of_not_addrOk t hok, busRead_of_not_addrOk s hok]
  | true =>
    have hq : place a ≠ place addr := fun e =>
      hne (place_injective (addrOk_eq_true.1 ha).1 (addrOk_eq_true.1 hok).1 e h.place_ne_reserved)
    rw [busRead_of_idle (h.idle hp hb) hok, busRead_of_idle hb hok, h.answerAt_other hp hq]

/-- Settles O15: what `Stored` says of each place, carried to the addresses by the address map. -/
theorem acceptedWritesStoreExactlyTheirWord : Obligations.AcceptedWritesStoreExactlyTheirWord := by
  refine ⟨fun s bits addr => ?_, fun s t bits addr w h h0 => ?_, fun s t bits w h => ?_⟩
  · rw [transact]; split <;> rfl
  · obtain ⟨ha, hb, hst⟩ := stored_of_accepted h
    have hp : place addr ≠ .cmd := fun e => h0 (place_register e rfl)
    exact ⟨(busRead_of_idle (hst.idle hp hb) ha).trans (hst.answerAt_same hp),
      fun a => busRead_other_of_stored hst ha hb hp, hst.eng_eq hp, fun sp i => hst.window_of_read_ne⟩
  · obtain ⟨-, -, hst⟩ := stored_of_accepted h
    cases (show Stored s w .cmd t from hst)
    rfl

/-! ### Refused transactions (R43, R44, R160, R164) -/

theorem transact_read_err {s : State} {addr : Nat} (h : busRead s addr = .err) (bits : Nat) :
    transact s (.read bits addr) = (s, .err) := by
  rw [transact, h, ite_self]

theorem transact_write_err {s : State} {addr : Nat} {w : Word} (h : busWrite s addr w = (s, .err)) (bits : Nat) :
    transact s (.write bits addr w) = (s, .err) := by
  rw [transact, h, ite_self]

/-- A write that no place could store is refused. -/
theorem busWrite_err {s : State} {addr : Nat} {w : Word}
    (h : addrOk addr = true → ∀ t, ¬Stored s w (place addr) t) : busWrite s addr w = (s, .err) := by
  obtain he | ⟨t, -, ha, -, -, hst⟩ := busWrite_cases s addr w
  · exact he
  · exact absurd hst (h ha t)

/-- Settles O16: the width is looked at first, and an address that is no multiple of 4 is not `addrOk`. -/
theorem onlyAlignedWordTransactions : Obligations.OnlyAlignedWordTransactions := by
  rintro s bits addr w (hbits | hmod)
  · exact ⟨if_neg hbits, if_neg hbits⟩
  · have ha : addrOk addr = false := Bool.eq_false_iff.2 fun h => hmod (addrOk_eq_true.1 h).1
    exact ⟨transact_read_err (busRead_of_not_addrOk s ha) bits,
      transact_write_err (busWrite_err fun h => absurd (ha.symm.trans h) Bool.false_ne_true) bits⟩

/-- Settles O17: nothing stands at a reserved address, and no read-only register's address is one a write can store at. -/
theorem reservedAndWrongWayAccessesRefused : Obligations.ReservedAndWrongWayAccessesRefused := by
  refine fun s addr w => ⟨fun h => ?_, transact_read_err (busRead_err rfl) 32, fun h => ?_⟩
  · have hp := place_reserved h
    exact ⟨transact_read_err (busRead_err (by rw [hp]; rfl)) 32,
      transact_write_err (busWrite_err fun _ t hst => hst.place_ne_reserved hp) 32⟩
  · refine transact_write_err (busWrite_err fun ha t hst => ?_) 32
    have hw := hst.addr_cases rfl (addrOk_eq_true.1 ha).1
    omega

/-! ### Every step has a next state (R41, R205, spec/93_implementation_defined.md part 1) -/

theorem ite_answers {p : Prop} [Decidable p] {x y : Host.Outcome State Fault Refusal} (hx : ∃ t, x = .next t)
    (hy : ∃ t, y = .next t) : ∃ t, (if p then x else y) = .next t := by
  split
  · exact hx
  · exact hy

/-- A command ends in a next state: a fault of the spec is one (R186), and no arm of `exec` refuses. -/
theorem exec_answers (i : Instr) (s : State) : ∃ t, exec i s = .next t := by
  cases i with
  | init => exact ite_answers ⟨_, rfl⟩ (ite_answers ⟨_, rfl⟩ ⟨_, rfl⟩)
  | prepare => exact ite_answers ⟨_, rfl⟩ (ite_answers ⟨_, rfl⟩ ⟨_, rfl⟩)
  | setfreq v => exact ite_answers ⟨_, rfl⟩ (ite_answers ⟨_, rfl⟩ ⟨_, rfl⟩)
  | next v =>
    refine ite_answers ⟨_, rfl⟩ (ite_answers ⟨_, rfl⟩ ?_)
    cases nextSample s v with
    | none => exact ⟨_, rfl⟩
    | some r => exact ⟨_, rfl⟩
  | render k =>
    refine ite_answers ⟨_, rfl⟩ (ite_answers ⟨_, rfl⟩ ?_)
    cases renderBlock s k with
    | done t => exact ⟨_, rfl⟩
    | stopped t f v => exact ⟨_, rfl⟩

theorem engineTurn_answers (s : State) : ∃ t, engineTurn s = .next t := by
  cases he : s.eng with
  | idle => exact ⟨s, engineTurn_idle he⟩
  | run cmd ops =>
    cases hd : decode cmd with
    | ok i => rw [engineTurn_ok he hd]; exact exec_answers i s
    | error e => exact ⟨_, engineTurn_illegal he hd⟩

/-- The engine's turn leaves the host the events after it. -/
theorem step_of_engineNext {s : State} {rest : List Event} (h : EngineNext s rest) :
    step s = engineTurn { s with pending := rest } := by
  obtain ⟨hp, rfl⟩ | hp := h
  · have hs : { s with pending := [] } = s := by rw [← hp]
    rw [hs, step, turn, hp]
  · rw [step, turn, hp]

/-- Settles O7: the host's turn is the transaction's effect and answer, and the engine's turn always ends. -/
theorem stepsAnswerOneTransactionAndNeverStop : Obligations.StepsAnswerOneTransactionAndNeverStop := by
  refine ⟨fun s x rest hp => step_bus hp, fun s rest hn he => ?_, fun s => ?_⟩
  · exact (step_of_engineNext hn).trans (engineTurn_idle he)
  · match hp : s.pending with
    | [] => rw [step_of_engineNext (.inl ⟨hp, rfl⟩)]; exact engineTurn_answers _
    | .engine :: rest => rw [step_of_engineNext (.inr hp)]; exact engineTurn_answers _
    | .bus x :: rest => exact ⟨_, step_bus hp⟩

end Sys2Proof.Machine
end

section
/-! PROOFS. The encoding (spec/30_encoding.md): the decoder reads back every well-formed command (O1), every legal word is
the encoding of its command (O2), the decoder follows the masks of the opcode map (O3, O4), and an illegal word that was
accepted faults (O5). -/

namespace Sys2Proof.Machine

/-! ### The fields of an encoded word (R60) -/

@[simp] theorem fieldOpcode_encodeZ (op : BitVec 8) : fieldOpcode (encodeZ op) = op :=
  BitVec.extractLsb'_append_eq_right

@[simp] theorem fieldZeroZ_encodeZ (op : BitVec 8) : fieldZeroZ (encodeZ op) = 0 :=
  BitVec.extractLsb'_append_eq_left

@[simp] theorem fieldOpcode_encodeI (op : BitVec 8) (m : Nat) : fieldOpcode (encodeI op m) = op :=
  BitVec.extractLsb'_append_eq_right

@[simp] theorem fieldZeroI_encodeI (op : BitVec 8) (m : Nat) : fieldZeroI (encodeI op m) = 0 :=
  (BitVec.extractLsb'_append_eq_of_le (by decide)).trans BitVec.extractLsb'_append_eq_left

@[simp] theorem fieldImm_encodeI (op : BitVec 8) (m : Nat) : fieldImm (encodeI op m) = m % 65536 := by
  have himm : (encodeI op m).extractLsb' 8 16 = BitVec.ofNat 16 m :=
    (BitVec.extractLsb'_append_eq_of_le (by decide)).trans BitVec.extractLsb'_append_eq_right
  rw [fieldImm, himm, BitVec.toNat_ofNat]

theorem immOk_iff {m : Nat} : immOk m = true ↔ m < 65536 := decide_eq_true_iff

theorem immOk_fieldImm (w : Word) : immOk (fieldImm w) = true := immOk_iff.2 (w.extractLsb' 8 16).isLt

/-! ### Decoding and encoding are inverse (R60 to R64) -/

theorem decodeZ_encodeZ (i : Instr) (op : BitVec 8) : decodeZ i (encodeZ op) = .ok i := by simp [decodeZ]

theorem decodeI_encodeI (mk : Nat → Instr) (op : BitVec 8) {m : Nat} (h : immOk m = true) :
    decodeI mk (encodeI op m) = .ok (mk m) := by
  simp [decodeI, Nat.mod_eq_of_lt (immOk_iff.1 h)]

/-- Settles O1: the encoding's opcode selects the command's own format, which reads the immediate back. -/
theorem decodeInvertsEncode : Obligations.DecodeInvertsEncode := by
  intro i h
  cases i with
  | init => exact decodeZ_encodeZ .init 0x01
  | prepare => exact decodeZ_encodeZ .prepare 0x02
  | setfreq v => simpa [encode, decode] using decodeI_encodeI .setfreq 0x03 h
  | next v => simpa [encode, decode] using decodeI_encodeI .next 0x04 h
  | render k => simpa [encode, decode] using decodeI_encodeI .render 0x05 h

theorem wellFormed_of_decodeZ {i j : Instr} {w : Word} (hj : j.wellFormed = true) (h : decodeZ j w = .ok i) :
    i.wellFormed = true := by
  rw [decodeZ] at h
  split at h
  · injection h with h; exact h ▸ hj
  · cases h

theorem wellFormed_of_decodeI {i : Instr} {mk : Nat → Instr} {w : Word} (hmk : ∀ m, (mk m).wellFormed = immOk m)
    (h : decodeI mk w = .ok i) : i.wellFormed = true := by
  rw [decodeI] at h
  split at h
  · injection h with h; rw [← h, hmk, immOk_fieldImm]
  · cases h

/-- A decoded immediate comes from 16 bits (R61). -/
theorem wellFormed_of_decode {w : Word} {i : Instr} (h : decode w = .ok i) : i.wellFormed = true := by
  simp only [decode] at h
  split at h
  · exact wellFormed_of_decodeZ rfl h
  split at h
  · exact wellFormed_of_decodeZ rfl h
  split at h
  · exact wellFormed_of_decodeI (fun _ => rfl) h
  split at h
  · exact wellFormed_of_decodeI (fun _ => rfl) h
  split at h
  · exact wellFormed_of_decodeI (fun _ => rfl) h
  · cases h

/-- Settles O2: every field of a legal word is read or checked to be zero. -/
theorem legalWordsAreEncodings : Obligations.LegalWordsAreEncodings :=
  fun _ _ h => ⟨wellFormed_of_decode h, encode_of_decode h⟩

/-- The two directions together: the words that decode to a command are its encoding alone. -/
theorem decode_eq_ok_iff {w : Word} {i : Instr} : decode w = .ok i ↔ i.wellFormed = true ∧ encode i = w :=
  ⟨legalWordsAreEncodings w i, fun ⟨hw, he⟩ => he ▸ decodeInvertsEncode i hw⟩

/-! ### The masks of the opcode map (R63) -/

/-- Bits 23:8 of a word, unsigned. -/
theorem fieldImm_eq (w : Word) : fieldImm w = w.toNat / 256 % 65536 := by
  simp [fieldImm, BitVec.extractLsb'_toNat, Nat.shiftRight_eq_div_pow]

/-- The mask of format I keeps the opcode and the must-be-zero bits. -/
theorem fieldOpcode_masked (w : Word) : fieldOpcode (w &&& 0xFF0000FF) = fieldOpcode w :=
  BitVec.extractLsb'_and.trans BitVec.and_allOnes

theorem fieldZeroI_masked (w : Word) : fieldZeroI (w &&& 0xFF0000FF) = fieldZeroI w :=
  BitVec.extractLsb'_and.trans BitVec.and_allOnes

theorem fields_of_masked_eq {w : Word} {op : BitVec 8} (h : w &&& 0xFF0000FF = op.setWidth 32) :
    fieldOpcode w = op ∧ fieldZeroI w = 0 := by
  rw [← Laws.OpcodeRow.encodeI_masked op 0] at h
  constructor
  · rw [← fieldOpcode_masked, h, fieldOpcode_masked, fieldOpcode_encodeI]
  · rw [← fieldZeroI_masked, h, fieldZeroI_masked, fieldZeroI_encodeI]

/-- A word of format I is its opcode under the mask, with the immediate in bits 23:8. -/
theorem immOk_and_encodeI_eq_iff (op : BitVec 8) (w : Word) {m : Nat} :
    immOk m = true ∧ encodeI op m = w ↔ w &&& 0xFF0000FF = op.setWidth 32 ∧ m = w.toNat / 256 % 65536 := by
  rw [← fieldImm_eq]
  constructor
  · rintro ⟨hm, rfl⟩
    exact ⟨Laws.OpcodeRow.encodeI_masked op m, by rw [fieldImm_encodeI, Nat.mod_eq_of_lt (immOk_iff.1 hm)]⟩
  · rintro ⟨hw, rfl⟩
    obtain ⟨rfl, hz⟩ := fields_of_masked_eq hw
    exact ⟨immOk_fieldImm w, encodeI_fields hz⟩

/-- The full mask of a format Z word hides nothing. -/
theorem encodeZ_eq_iff (op : BitVec 8) (w : Word) : encodeZ op = w ↔ w &&& 0xFFFFFFFF = encodeZ op := by
  rw [show (0xFFFFFFFF : Word) = BitVec.allOnes 32 from rfl, BitVec.and_allOnes, eq_comm]

/-- A word is illegal exactly when it decodes to no command (R62). -/
theorem exists_decode_error_iff {w : Word} : (∃ e, decode w = .error e) ↔ ∀ i, decode w ≠ .ok i := by
  cases decode w <;> simp

theorem forall_instr {p : Instr → Prop} : (∀ i, p i) ↔
    p .init ∧ p .prepare ∧ (∀ v, p (.setfreq v)) ∧ (∀ v, p (.next v)) ∧ ∀ k, p (.render k) :=
  ⟨fun h => ⟨h _, h _, fun _ => h _, fun _ => h _, fun _ => h _⟩,
    fun ⟨hi, hp, hs, hn, hr⟩ i => by cases i with
      | init => exact hi
      | prepare => exact hp
      | setfreq v => exact hs v
      | next v => exact hn v
      | render k => exact hr k⟩

/-- Settles O3: a command's clause says when a word is its encoding, and an illegal word meets none of the five. -/
theorem decoderFollowsOpcodeMap : Obligations.DecoderFollowsOpcodeMap := by
  intro w
  have hi : decode w = .ok .init ↔ w &&& 0xFFFFFFFF = 0x00000001 :=
    decode_eq_ok_iff.trans ((and_iff_right rfl).trans (encodeZ_eq_iff 0x01 w))
  have hp : decode w = .ok .prepare ↔ w &&& 0xFFFFFFFF = 0x00000002 :=
    decode_eq_ok_iff.trans ((and_iff_right rfl).trans (encodeZ_eq_iff 0x02 w))
  have hs : ∀ v, decode w = .ok (.setfreq v) ↔ w &&& 0xFF0000FF = 0x00000003 ∧ v = w.toNat / 256 % 65536 :=
    fun _ => decode_eq_ok_iff.trans (immOk_and_encodeI_eq_iff 0x03 w)
  have hn : ∀ v, decode w = .ok (.next v) ↔ w &&& 0xFF0000FF = 0x00000004 ∧ v = w.toNat / 256 % 65536 :=
    fun _ => decode_eq_ok_iff.trans (immOk_and_encodeI_eq_iff 0x04 w)
  have hr : ∀ k, decode w = .ok (.render k) ↔ w &&& 0xFF0000FF = 0x00000005 ∧ k = w.toNat / 256 % 65536 :=
    fun _ => decode_eq_ok_iff.trans (immOk_and_encodeI_eq_iff 0x05 w)
  refine ⟨hi, hp, hs, hn, hr, ?_⟩
  rw [exists_decode_error_iff, forall_instr]
  simp only [ne_eq, hi, hp, hs, hn, hr, not_and', forall_eq]

/-- Settles O4: the nine words are evaluated. -/
theorem knownWordsDecode : Obligations.KnownWordsDecode := by
  unfold Obligations.KnownWordsDecode
  decide

/-! ### An accepted illegal word (R64, R186) -/

/-- Settles O5: the engine's turn on an illegal word is fault entry with E_OPCODE. -/
theorem illegalWordsFault : Obligations.IllegalWordsFault :=
  fun _ _ _ _ _ hn he hd => (step_of_engineNext hn).trans (engineTurn_illegal he hd)

end Sys2Proof.Machine
end

section
/-! PROOFS. Binary32 arithmetic (spec/40_numerics.md): rounding is to nearest, ties to even (O45); addition, subtraction,
multiplication and division round the exact result once (O46 to O49); the comparisons compare values (O50); a NaN result is
the canonical one (O51); and the exactness facts of R88 and R94 (O52 to O54). -/

namespace Sys2Proof.Machine

/-! ### The classes of a pattern (R80, R87) -/

theorem isInf_iff (w : Word) : isInf w = true ↔ w.toNat % 2 ^ 31 = 0x7F800000 := by
  simp only [isInf, expField_eq, sigField_eq, Bool.and_eq_true, beq_iff_eq]
  omega

theorem isNaN_iff (w : Word) : isNaN w = true ↔ 0x7F800000 < w.toNat % 2 ^ 31 := by
  simp only [isNaN, expField_eq, sigField_eq, Bool.and_eq_true, beq_iff_eq, bne_iff_ne, ne_eq]
  omega

theorem isNaN_eq_false_iff (w : Word) : isNaN w = false ↔ w.toNat % 2 ^ 31 ≤ 0x7F800000 := by
  rw [← Bool.not_eq_true, isNaN_iff, not_lt]

theorem isNaN_of_isFinite {w : Word} (h : isFinite w = true) : isNaN w = false :=
  (isNaN_eq_false_iff w).2 ((isFinite_iff w).1 h).le

theorem isInf_of_isFinite {w : Word} (h : isFinite w = true) : isInf w = false := by
  rw [← Bool.not_eq_true, isInf_iff]
  exact ((isFinite_iff w).1 h).ne

theorem isNaN_of_isInf {w : Word} (h : isInf w = true) : isNaN w = false :=
  (isNaN_eq_false_iff w).2 ((isInf_iff w).1 h).le

theorem toNat_withSign_mod (neg : Bool) {m : Nat} (h : m < 2 ^ 31) : (withSign neg m).toNat % 2 ^ 31 = m := by
  rw [toNat_withSign neg m h]
  cases neg <;> simp <;> omega

theorem isNaN_withSign (neg : Bool) {m : Nat} (h : m ≤ 0x7F800000) : isNaN (withSign neg m) = false := by
  rw [isNaN_eq_false_iff, toNat_withSign_mod neg (by omega)]
  exact h

theorem isFinite_withSign (neg : Bool) {m : Nat} (h : m < 0x7F800000) : isFinite (withSign neg m) = true := by
  rw [isFinite_iff, toNat_withSign_mod neg (by omega)]
  exact h

@[simp] theorem isNaN_roundMag (neg : Bool) (num den : Nat) : isNaN (roundMag neg num den) = false :=
  isNaN_withSign neg (roundMagBits_le num den)

/-! ### The value of a pattern (R80) -/

@[simp] theorem bitsValue_zero : bitsValue 0 = 0 := rfl

theorem natAbs_scaled (w : Word) : (scaled w).natAbs = magnitude w := by
  unfold scaled
  split <;> omega

theorem scaled_eq_zero_iff (w : Word) : scaled w = 0 ↔ magnitude w = 0 := by
  rw [← natAbs_scaled, Int.natAbs_eq_zero]

theorem magnitude_eq_zero_iff (w : Word) : magnitude w = 0 ↔ w.toNat % 2 ^ 31 = 0 := by
  rw [magnitude_eq_bitsValue, ← bitsValue_zero]
  exact bitsValue_strictMono.injective.eq_iff

theorem isZero_iff (w : Word) : isZero w = true ↔ scaled w = 0 := by
  rw [scaled_eq_zero_iff, isZero, beq_iff_eq]

theorem isZero_eq_false_iff (w : Word) : isZero w = false ↔ scaled w ≠ 0 := by
  rw [← Bool.not_eq_true, isZero_iff]

theorem scaled_ne_zero_of_isInf {w : Word} (h : isInf w = true) : scaled w ≠ 0 := by
  rw [ne_eq, scaled_eq_zero_iff, magnitude_eq_zero_iff, (isInf_iff w).1 h]
  decide

theorem isZero_of_isInf {w : Word} (h : isInf w = true) : isZero w = false :=
  (isZero_eq_false_iff w).2 (scaled_ne_zero_of_isInf h)

theorem eq_zero_of_scaled_eq_zero {w : Word} (h : scaled w = 0) : w = zero (signBit w) := by
  have hm : w.toNat % 2 ^ 31 = 0 := (magnitude_eq_zero_iff w).1 ((scaled_eq_zero_iff w).1 h)
  rw [zero, ← hm, withSign_signBit]

@[simp] theorem zero_true : zero true = 0x80000000 := rfl

@[simp] theorem zero_false : zero false = 0x00000000 := rfl

@[simp] theorem scaled_zero (neg : Bool) : scaled (zero neg) = 0 := by cases neg <;> decide

@[simp] theorem isFinite_zero (neg : Bool) : isFinite (zero neg) = true := by cases neg <;> decide

theorem scaled_mul_scaled (a b : Word) :
    scaled a * scaled b =
      if signBit a != signBit b then -((magnitude a * magnitude b : Nat) : Int) else (magnitude a * magnitude b : Nat) := by
  unfold scaled
  cases signBit a <;> cases signBit b <;> simp

theorem scaled_roundMag (neg : Bool) (num den : Nat) :
    scaled (roundMag neg num den) =
      if neg then -(bitsValue (roundMagBits num den) : Int) else bitsValue (roundMagBits num den) := by
  rw [scaled, signBit_roundMag, magnitude_roundMag]

/-! ### Rounding to an integer is to nearest -/

/-- How far the value `z` is from the number `x / den`, times `den`. -/
def gap (x : Int) (den : Nat) (z : Int) : Nat := (x - z * den).natAbs

theorem gap_mul_pow (x : Int) (den k : Nat) (z : Int) : gap x (den * 2 ^ k) z = gap x den (z * 2 ^ k) := by
  unfold gap
  push_cast
  ring_nf

theorem gap_neg (x : Int) (den : Nat) (z : Int) : gap (-x) den z = gap x den (-z) := by
  unfold gap
  rw [← Int.natAbs_neg]
  ring_nf

/-- At a tie the integer rounded to is even. -/
theorem roundHalfEven_even_of_tie {num den q : Nat} (h : 0 < den) (ht : 2 * num = 2 * (q * den) + den) :
    roundHalfEven num den % 2 = 0 := by
  rw [roundHalfEven_tie num den q h ht]
  omega

theorem two_mul_gap_roundHalfEven_le (num : Nat) {den : Nat} (h : 0 < den) :
    2 * gap num den (roundHalfEven num den) ≤ den := by
  obtain ⟨hlo, hhi⟩ := roundHalfEven_near num den h
  unfold gap
  zify at hlo hhi
  omega

/-- A rounded integer a half away is even, whether it is the integer above the number or the one below. -/
theorem roundHalfEven_even_of_gap {num den : Nat} (h : 0 < den) (hg : 2 * gap num den (roundHalfEven num den) = den) :
    roundHalfEven num den % 2 = 0 := by
  have htie := fun q => roundHalfEven_even_of_tie (num := num) (q := q) h
  generalize roundHalfEven num den = r at *
  obtain hbelow | habove : 2 * num = 2 * (r * den) + den ∨ 2 * num + den = 2 * (r * den) := by
    unfold gap at hg
    zify
    omega
  · exact htie r hbelow
  · obtain ⟨q, rfl⟩ := Nat.exists_eq_succ_of_ne_zero (n := r) (by rintro rfl; omega)
    exact htie q (by rw [Nat.succ_mul q] at habove; omega)

/-- No integer is nearer than the rounded one, which is even when another is as near: the rounded integer is within a half,
and any other is at least 1 away from it. -/
theorem roundHalfEven_nearest (num : Nat) {den : Nat} (h : 0 < den) (j : Int) :
    gap num den (roundHalfEven num den) ≤ gap num den j ∧
    (gap num den (roundHalfEven num den) = gap num den j → j ≠ roundHalfEven num den →
      roundHalfEven num den % 2 = 0) := by
  have hhalf := two_mul_gap_roundHalfEven_le num h
  have heven := roundHalfEven_even_of_gap (num := num) h
  generalize roundHalfEven num den = r at *
  obtain rfl | hne := eq_or_ne j r
  · exact ⟨le_rfl, fun _ hne => absurd rfl hne⟩
  · have hfar : den ≤ ((j - r) * den).natAbs := by
      rw [Int.natAbs_mul, Int.natAbs_natCast]
      exact Nat.le_mul_of_pos_left den (Int.natAbs_pos.2 (sub_ne_zero.2 hne))
    have hother : den ≤ gap num den r + gap num den j := by
      rw [sub_mul] at hfar
      unfold gap
      omega
    exact ⟨by omega, fun e _ => heven (by omega)⟩

/-! ### Rounding to binary32 is to nearest (R81) -/

/-- The value of a significand `q` at spacing `2 ^ k`, also of one that carries into the next exponent. -/
theorem bitsValue_sig {k q : Nat} (hq : q ≤ 2 ^ 24) (hk : k ≠ 0 → 2 ^ 23 ≤ q) :
    bitsValue (k * 2 ^ 23 + q) = q * 2 ^ k := by
  unfold bitsValue
  obtain hlt | hge := Nat.lt_or_ge q (2 ^ 23)
  · obtain rfl : k = 0 := by omega
    rw [if_pos (by omega)]
    simp
  · rw [if_neg (by omega)]
    obtain hlt | rfl := Nat.lt_or_eq_of_le hq
    · rw [show (k * 2 ^ 23 + q) / 2 ^ 23 - 1 = k by omega, show 2 ^ 23 + (k * 2 ^ 23 + q) % 2 ^ 23 = q by omega]
    · rw [show (k * 2 ^ 23 + 2 ^ 24) / 2 ^ 23 - 1 = k + 1 by omega, show (k * 2 ^ 23 + 2 ^ 24) % 2 ^ 23 = 0 by omega,
        pow_succ]
      ring

/-- The magnitude bits of a rounding before the infinity bounds them. -/
def unboundedBits (num den : Nat) : Nat :=
  spacingLog num den * 2 ^ 23 + roundHalfEven num (den * 2 ^ spacingLog num den)

theorem bitsValue_unboundedBits (num : Nat) {den : Nat} (h : 0 < den) :
    bitsValue (unboundedBits num den) =
      roundHalfEven num (den * 2 ^ spacingLog num den) * 2 ^ spacingLog num den :=
  bitsValue_sig (roundedSig_bounds num den h).1 (roundedSig_bounds num den h).2

/-- A number that is spaced `2 ^ k` lies in the binade of that spacing, or above it. -/
theorem le_of_spacingLog_ne_zero {num den : Nat} (h : 0 < den) (hk : spacingLog num den ≠ 0) :
    2 ^ 23 * 2 ^ spacingLog num den * den ≤ num := by
  rw [← Nat.le_div_iff_mul_le h, ← pow_add]
  have h0 : num / den ≠ 0 := fun e => hk (by rw [spacingLog, e]; rfl)
  refine le_trans (Nat.pow_le_pow_right two_pos ?_) (Nat.log2_self_le h0)
  unfold spacingLog at hk ⊢
  omega

/-- A value in or above the binade of a spacing is a multiple of it. -/
theorem pow_dvd_bitsValue {k m : Nat} (hm : 2 ^ 23 * 2 ^ k ≤ bitsValue m) : 2 ^ k ∣ bitsValue m := by
  unfold bitsValue at *
  split at hm
  · have : 2 ^ k < 2 ^ 1 := by omega
    obtain rfl : k = 0 := by have := (Nat.pow_lt_pow_iff_right one_lt_two).1 this; omega
    simp
  · have hlt : 2 ^ (23 + k) < 2 ^ (24 + (m / 2 ^ 23 - 1)) := by
      rw [pow_add, pow_add]
      exact lt_of_le_of_lt hm (Nat.mul_lt_mul_of_pos_right (by omega) (by positivity))
    have := (Nat.pow_lt_pow_iff_right one_lt_two).1 hlt
    rw [if_neg ‹_›]
    exact Dvd.dvd.mul_left (pow_dvd_pow 2 (by omega)) _

/-- No value of magnitude bits, of either sign, is nearer than the rounded one, whose bits are even when another is as near.
A multiple of the spacing is no nearer by `roundHalfEven_nearest`; any other value lies below the binade, whose least value
is between it and the number and is such a multiple. -/
theorem unboundedBits_nearest (num : Nat) {den m : Nat} (h : 0 < den) {z : Int} (hz : z.natAbs = bitsValue m) :
    gap num den (bitsValue (unboundedBits num den)) ≤ gap num den z ∧
    (gap num den (bitsValue (unboundedBits num den)) = gap num den z → z ≠ bitsValue (unboundedBits num den) →
      unboundedBits num den % 2 = 0) := by
  have hnear := fun j => roundHalfEven_nearest num (den := den * 2 ^ spacingLog num den) (by positivity) j
  have hle := le_of_spacingLog_ne_zero (num := num) h
  simp only [gap_mul_pow] at hnear
  rw [bitsValue_unboundedBits num h, unboundedBits]
  generalize spacingLog num den = k at *
  generalize roundHalfEven num (den * 2 ^ k) = r at *
  push_cast
  by_cases hd : (2 ^ k : Int) ∣ z
  · obtain ⟨j, rfl⟩ := hd
    rw [mul_comm _ j]
    refine ⟨(hnear j).1, fun e hne => ?_⟩
    have := (hnear j).2 e (fun hj => hne (by rw [hj]))
    omega
  · have hlow : z.natAbs < 2 ^ 23 * 2 ^ k := by
      by_contra hge
      rw [hz, not_lt] at hge
      refine hd (Int.natAbs_dvd_natAbs.1 ?_)
      rw [hz, Int.natAbs_pow]
      exact pow_dvd_bitsValue hge
    have hk : k ≠ 0 := by rintro rfl; simp at hd
    have hlt : gap num den (2 ^ 23 * 2 ^ k) < gap num den z := by
      have h1 : z < 2 ^ 23 * 2 ^ k := lt_of_le_of_lt Int.le_natAbs (by exact_mod_cast hlow)
      have h2 : z * den < 2 ^ 23 * 2 ^ k * den := Int.mul_lt_mul_of_pos_right h1 (by omega)
      have h3 : (2 ^ 23 * 2 ^ k * den : Int) ≤ num := by exact_mod_cast hle hk
      unfold gap
      omega
    have := (hnear (2 ^ 23)).1
    exact ⟨by omega, fun e => by omega⟩

theorem bitsValue_infinity : bitsValue 0x7F800000 = 2 ^ 25 * 2 ^ 252 := by decide +kernel

theorem bitsValue_largest : bitsValue 0x7F7FFFFF = (2 ^ 25 - 2) * 2 ^ 252 := by decide +kernel

theorem overflow_threshold : 2 ^ 277 - 2 ^ 252 = (2 ^ 25 - 1) * 2 ^ 252 := by decide +kernel

theorem roundMagBits_of_overflow {num den : Nat} (h : 0 < den) (ho : (2 ^ 277 - 2 ^ 252) * den ≤ num) :
    roundMagBits num den = 0x7F800000 := by
  have hthr : roundMagBits (2 ^ 277 - 2 ^ 252) 1 = 0x7F800000 := by decide +kernel
  refine le_antisymm (roundMagBits_le num den) ?_
  rw [← hthr]
  exact roundMagBits_mono _ 1 num den one_pos h (by rwa [Nat.mul_one])

/-- Below the threshold the largest finite value is nearer than what the infinity's bits would be, or any above. -/
theorem unboundedBits_of_not_overflow {num den : Nat} (h : 0 < den) (ho : num < (2 ^ 277 - 2 ^ 252) * den) :
    unboundedBits num den < 0x7F800000 := by
  by_contra hge
  have hnear := (unboundedBits_nearest num (m := 0x7F7FFFFF) h (Int.natAbs_natCast _)).1
  have hv := bitsValue_strictMono.monotone (not_lt.1 hge)
  rw [overflow_threshold] at ho
  rw [bitsValue_infinity] at hv
  rw [bitsValue_largest] at hnear
  generalize bitsValue (unboundedBits num den) = v at *
  have hmul := Nat.mul_le_mul_right den hv
  unfold gap at hnear
  push_cast at hnear ho hmul
  omega

theorem roundMagBits_of_not_overflow {num den : Nat} (h : 0 < den) (ho : num < (2 ^ 277 - 2 ^ 252) * den) :
    roundMagBits num den = unboundedBits num den :=
  min_eq_left (unboundedBits_of_not_overflow h ho).le

theorem sigField_roundMag_mod_two (neg : Bool) (num den : Nat) :
    sigField (roundMag neg num den) % 2 = roundMagBits num den % 2 := by
  have hle := roundMagBits_le num den
  have hmod := toNat_withSign_mod neg (m := roundMagBits num den) (by omega)
  rw [sigField_eq, roundMag]
  omega

/-- What `IsRounded` asks of a finite word, in terms of `gap`. -/
def IsNearest (x : Int) (den : Nat) (w : Word) : Prop :=
  ∀ u : Word, isFinite u = true →
    gap x den (scaled w) ≤ gap x den (scaled u) ∧
    (gap x den (scaled w) = gap x den (scaled u) → scaled u ≠ scaled w → sigField w % 2 = 0)

theorem isNearest_roundMag (neg : Bool) {num den : Nat} (h : 0 < den) (ho : num < (2 ^ 277 - 2 ^ 252) * den) :
    IsNearest (if neg then -(num : Int) else num) den (roundMag neg num den) := by
  intro u _
  have hu := (natAbs_scaled u).trans (magnitude_eq_bitsValue u)
  rw [sigField_roundMag_mod_two, scaled_roundMag, roundMagBits_of_not_overflow h ho]
  cases neg
  case false => exact unboundedBits_nearest num h hu
  case true =>
    rw [if_pos rfl, if_pos rfl, gap_neg, gap_neg, neg_neg]
    obtain ⟨hle, heven⟩ := unboundedBits_nearest num h ((Int.natAbs_neg _).trans hu)
    exact ⟨hle, fun e hne => heven e fun hz => hne (neg_eq_iff_eq_neg.1 hz)⟩

theorem isRounded_roundMag (neg : Bool) (num : Nat) {den : Nat} (h : 0 < den) :
    IsRounded (if neg then -(num : Int) else num) den (roundMag neg num den) := by
  have habs : (if neg then -(num : Int) else num).natAbs = num := by cases neg <;> simp
  unfold IsRounded
  rw [habs]
  obtain ho | ho := Nat.lt_or_ge num ((2 ^ 277 - 2 ^ 252) * den)
  · rw [if_neg (not_le.2 ho)]
    refine ⟨?_, isNearest_roundMag neg h ho⟩
    rw [roundMag, roundMagBits_of_not_overflow h ho]
    exact isFinite_withSign neg (unboundedBits_of_not_overflow h ho)
  · rw [if_pos ho, roundMag, roundMagBits_of_overflow h ho, infinity]
    have hpos : 0 < num := lt_of_lt_of_le (Nat.mul_pos (by decide +kernel) h) ho
    have hsign : decide ((if neg then -(num : Int) else num) < 0) = neg := by cases neg <;> simp [hpos]
    rw [hsign]

/-- Settles O45: no finite value is nearer than the rounded one (`unboundedBits_nearest`). -/
theorem roundingIsToNearestEven : Obligations.RoundingIsToNearestEven :=
  fun neg num den h => ⟨isRounded_roundMag neg num h, signBit_roundMag neg num den⟩

theorem isRounded_roundInt (x : Int) : IsRounded x 1 (roundInt x) := by
  have h := isRounded_roundMag (decide (x < 0)) x.natAbs one_pos
  have hx : (if decide (x < 0) then -(x.natAbs : Int) else x.natAbs) = x := by
    simp only [decide_eq_true_eq]
    split <;> omega
  rwa [hx] at h

/-! ### Addition and subtraction (R82, R83) -/

theorem fadd_of_isNaN {a b : Word} (h : isNaN a = true ∨ isNaN b = true) : fadd a b = qNaN := by
  rw [fadd, if_pos (by simpa using h)]

theorem fadd_infinities {a b : Word} (ha : isInf a = true) (hb : isInf b = true) (hs : signBit a ≠ signBit b) :
    fadd a b = qNaN := by
  simp [fadd, ha, hb, hs, isNaN_of_isInf]

theorem fadd_infinity_left {a b : Word} (ha : isInf a = true) (hb : isNaN b = false)
    (hs : isInf b = true → signBit a = signBit b) : fadd a b = a := by
  rw [fadd, if_neg (by simp [hb, isNaN_of_isInf ha]), if_pos ha, if_neg (by simpa using hs)]

theorem fadd_infinity_right {a b : Word} (hb : isInf b = true) (ha : isFinite a = true) : fadd a b = b := by
  simp [fadd, isNaN_of_isFinite ha, isInf_of_isFinite ha, isNaN_of_isInf hb, hb]

theorem fadd_of_isFinite {a b : Word} (ha : isFinite a = true) (hb : isFinite b = true) :
    fadd a b =
      if scaled a + scaled b = 0 then zero (signBit a && signBit b) else roundInt (scaled a + scaled b) := by
  simp [fadd, isNaN_of_isFinite, isInf_of_isFinite, ha, hb]

/-- A zero sum under two sign bits is a sum of zeros: neither addend is above 0. -/
theorem signs_of_sum_eq_zero {a b : Word} (h : scaled a + scaled b = 0) :
    (signBit a && signBit b) = true ↔ a = 0x80000000 ∧ b = 0x80000000 := by
  constructor
  · intro hs
    obtain ⟨ha, hb⟩ := (Bool.and_eq_true _ _).mp hs
    have hneg : scaled a ≤ 0 ∧ scaled b ≤ 0 := by unfold scaled; rw [ha, hb]; simp
    have hza := eq_zero_of_scaled_eq_zero (w := a) (by omega)
    have hzb := eq_zero_of_scaled_eq_zero (w := b) (by omega)
    rw [ha] at hza
    rw [hb] at hzb
    exact ⟨hza, hzb⟩
  · rintro ⟨rfl, rfl⟩
    decide

theorem fadd_of_sum_eq_zero {a b : Word} (ha : isFinite a = true) (hb : isFinite b = true) (h : scaled a + scaled b = 0) :
    fadd a b = if a = 0x80000000 ∧ b = 0x80000000 then 0x80000000 else 0x00000000 := by
  rw [fadd_of_isFinite ha hb, if_pos h]
  cases hs : signBit a && signBit b
  · rw [if_neg (by rw [← signs_of_sum_eq_zero h, hs]; decide), zero_false]
  · rw [if_pos ((signs_of_sum_eq_zero h).1 hs), zero_true]

/-- Settles O46: the branches of fadd, one lemma each. -/
theorem additionIsCorrectlyRounded : Obligations.AdditionIsCorrectlyRounded := by
  refine fun a b => ⟨fadd_of_isNaN, fadd_infinities, fadd_infinity_left, fadd_infinity_right, fun ha hb => ⟨fun h => ?_,
    fadd_of_sum_eq_zero ha hb⟩⟩
  rw [fadd_of_isFinite ha hb, if_neg h]
  exact isRounded_roundInt _

theorem toNat_neg_mod (w : Word) : (w ^^^ 0x80000000).toNat % 2 ^ 31 = w.toNat % 2 ^ 31 := by
  rw [BitVec.toNat_xor, Nat.xor_mod_two_pow]
  simp

theorem signBit_neg (w : Word) : signBit (w ^^^ 0x80000000) = !signBit w := by
  simp [signBit]

theorem isFinite_neg (w : Word) : isFinite (w ^^^ 0x80000000) = isFinite w := by
  rw [Bool.eq_iff_iff, isFinite_iff, isFinite_iff, toNat_neg_mod]

theorem scaled_neg (w : Word) : scaled (w ^^^ 0x80000000) = -scaled w := by
  unfold scaled
  rw [signBit_neg, magnitude_eq_bitsValue, toNat_neg_mod, ← magnitude_eq_bitsValue]
  cases signBit w <;> simp

theorem fsub_of_not_isNaN (a : Word) {b : Word} (h : isNaN b = false) : fsub a b = fadd a (b ^^^ 0x80000000) := by
  simp [fsub, h]

theorem fsub_self {a : Word} (h : isFinite a = true) : fsub a a = 0x00000000 := by
  rw [fsub_of_not_isNaN a (isNaN_of_isFinite h), fadd_of_isFinite h ((isFinite_neg a).trans h),
    if_pos (by rw [scaled_neg]; omega), signBit_neg, Bool.and_not_self, zero_false]

/-- Settles O47: a value and its negative have opposite signs and a zero sum. -/
theorem subtractionIsAdditionOfTheNegative : Obligations.SubtractionIsAdditionOfTheNegative :=
  ⟨fun _ _ h => if_pos h, fun a _ => fsub_of_not_isNaN a, fun _ => fsub_self, by decide⟩

/-! ### Multiplication and division (R84, R85) -/

theorem fmul_of_isNaN {a b : Word}
    (h : isNaN a = true ∨ isNaN b = true ∨ (scaled a = 0 ∧ isInf b = true) ∨ (isInf a = true ∧ scaled b = 0)) :
    fmul a b = qNaN := by
  rw [fmul, if_pos]
  simpa only [Bool.or_eq_true, Bool.and_eq_true, isZero_iff, or_assoc] using h

theorem fmul_infinity {a b : Word} (ha : isNaN a = false) (hb : isNaN b = false)
    (h : isInf a = true ∧ scaled b ≠ 0 ∨ isInf b = true ∧ scaled a ≠ 0) :
    fmul a b = infinity (signBit a != signBit b) := by
  obtain ⟨hi, hz⟩ | ⟨hi, hz⟩ := h
  · simp [fmul, ha, hb, hi, (isZero_eq_false_iff b).2 hz, isZero_of_isInf hi]
  · simp [fmul, ha, hb, hi, (isZero_eq_false_iff a).2 hz, isZero_of_isInf hi]

theorem fmul_of_isFinite {a b : Word} (ha : isFinite a = true) (hb : isFinite b = true) :
    fmul a b = roundMag (signBit a != signBit b) (magnitude a * magnitude b) unitOne := by
  simp [fmul, isNaN_of_isFinite, isInf_of_isFinite, ha, hb]

theorem unitOne_pos : 0 < unitOne := Nat.pow_pos two_pos

theorem roundMagBits_zero {den : Nat} (h : 0 < den) : roundMagBits 0 den = 0 := by
  simpa using roundMagBits_exact 0 den h (by omega)

theorem scaled_roundMag_zero (neg : Bool) {den : Nat} (h : 0 < den) : scaled (roundMag neg 0 den) = 0 := by
  rw [scaled_roundMag, roundMagBits_zero h]
  simp

/-- Settles O48: the branches of fmul, one lemma each. -/
theorem multiplicationIsCorrectlyRounded : Obligations.MultiplicationIsCorrectlyRounded := by
  refine fun a b => ⟨fmul_of_isNaN, fmul_infinity, fun ha hb => ?_⟩
  rw [fmul_of_isFinite ha hb]
  refine ⟨signBit_roundMag _ _ _, fun hz => ?_, ?_⟩
  · have hprod : magnitude a * magnitude b = 0 := by
      rw [Nat.mul_eq_zero, ← scaled_eq_zero_iff, ← scaled_eq_zero_iff]
      exact hz
    rw [hprod]
    exact scaled_roundMag_zero _ unitOne_pos
  · rw [scaled_mul_scaled]
    exact isRounded_roundMag _ _ unitOne_pos

theorem fdiv_of_isNaN {a b : Word}
    (h : isNaN a = true ∨ isNaN b = true ∨ (scaled a = 0 ∧ scaled b = 0) ∨ (isInf a = true ∧ isInf b = true)) :
    fdiv a b = qNaN := by
  rw [fdiv, if_pos]
  simpa only [Bool.or_eq_true, Bool.and_eq_true, isZero_iff, or_assoc] using h

theorem fdiv_infinity_left {a b : Word} (ha : isInf a = true) (hb : isFinite b = true) :
    fdiv a b = infinity (signBit a != signBit b) := by
  simp [fdiv, ha, isNaN_of_isInf ha, isZero_of_isInf ha, isNaN_of_isFinite hb, isInf_of_isFinite hb]

theorem fdiv_by_zero {a b : Word} (ha : isFinite a = true) (hz : scaled a ≠ 0) (hb : scaled b = 0) :
    fdiv a b = infinity (signBit a != signBit b) := by
  have hb' : isFinite b = true := by
    rw [eq_zero_of_scaled_eq_zero hb]
    exact isFinite_zero _
  simp [fdiv, isNaN_of_isFinite, isInf_of_isFinite, ha, hb', (isZero_eq_false_iff a).2 hz, (isZero_iff b).2 hb]

theorem fdiv_infinity_right {a b : Word} (ha : isFinite a = true) (hb : isInf b = true) :
    fdiv a b = zero (signBit a != signBit b) := by
  simp [fdiv, hb, isNaN_of_isInf hb, isZero_of_isInf hb, isNaN_of_isFinite ha, isInf_of_isFinite ha]

theorem fdiv_of_isFinite {a b : Word} (ha : isFinite a = true) (hb : isFinite b = true) (hz : scaled b ≠ 0) :
    fdiv a b = roundMag (signBit a != signBit b) (magnitude a * unitOne) (magnitude b) := by
  simp [fdiv, isNaN_of_isFinite, isInf_of_isFinite, ha, hb, (isZero_eq_false_iff b).2 hz]

/-- The dividend in units of the quotient, under the sign of the quotient. -/
theorem scaled_mul_sign (a b : Word) :
    scaled a * 2 ^ 149 * (if signBit b then -1 else 1) =
      if signBit a != signBit b then -((magnitude a * unitOne : Nat) : Int) else (magnitude a * unitOne : Nat) := by
  unfold scaled unitOne
  cases signBit a <;> cases signBit b <;> simp

/-- Settles O49: the branches of fdiv, one lemma each. -/
theorem divisionIsCorrectlyRounded : Obligations.DivisionIsCorrectlyRounded := by
  refine fun a b => ⟨fdiv_of_isNaN, fdiv_infinity_left, fdiv_by_zero, fdiv_infinity_right, fun ha hb hz => ?_⟩
  have hpos : 0 < magnitude b := Nat.pos_of_ne_zero (fun h => hz ((scaled_eq_zero_iff b).2 h))
  rw [fdiv_of_isFinite ha hb hz, scaled_mul_sign]
  exact ⟨signBit_roundMag _ _ _, isRounded_roundMag _ _ hpos⟩

/-! ### Comparisons (R86) -/

theorem magnitude_lt_infinity {w : Word} (h : isFinite w = true) : magnitude w < 2 ^ 25 * 2 ^ 252 := by
  rw [magnitude_eq_bitsValue, ← bitsValue_infinity]
  exact bitsValue_strictMono ((isFinite_iff w).1 h)

theorem magnitude_le_infinity {w : Word} (h : isNaN w = false) : magnitude w ≤ 2 ^ 25 * 2 ^ 252 := by
  rw [magnitude_eq_bitsValue, ← bitsValue_infinity]
  exact bitsValue_strictMono.monotone ((isNaN_eq_false_iff w).1 h)

theorem scaled_posInfinity : scaled 0x7F800000 = 2 ^ 25 * 2 ^ 252 := by decide +kernel

theorem scaled_negInfinity : scaled 0xFF800000 = -(2 ^ 25 * 2 ^ 252) := by decide +kernel

theorem fge_iff (a b : Word) : fge a b = true ↔ isNaN a = false ∧ isNaN b = false ∧ scaled b ≤ scaled a := by
  simp [fge, and_assoc]

theorem fgt_of_not_isNaN {a b : Word} (ha : isNaN a = false) (hb : isNaN b = false) :
    fgt a b = decide (scaled b < scaled a) := by
  simp [fgt, ha, hb]

theorem fge_of_not_isNaN {a b : Word} (ha : isNaN a = false) (hb : isNaN b = false) :
    fge a b = decide (scaled b ≤ scaled a) := by
  simp [fge, ha, hb]

theorem comparisons_of_isNaN {a b : Word} (h : isNaN a = true ∨ isNaN b = true) : fgt a b = false ∧ fge a b = false := by
  obtain h | h := h <;> simp [fgt, fge, h]

/-- Settles O50: a finite magnitude is below the infinity's, and one that is no NaN's at most it. -/
theorem comparisonsCompareValues : Obligations.ComparisonsCompareValues := by
  have hp : isNaN 0x7F800000 = false := by decide
  have hn : isNaN 0xFF800000 = false := by decide
  refine fun a b => ⟨rfl, comparisons_of_isNaN, fun ha hb => ?_, fun ha => ?_, fun ha => ?_, by decide +kernel⟩
  · have ha := isNaN_of_isFinite ha
    have hb := isNaN_of_isFinite hb
    rw [fgt_of_not_isNaN ha hb, fge_of_not_isNaN ha hb, decide_eq_true_iff, decide_eq_true_iff]
    exact ⟨Iff.rfl, Iff.rfl⟩
  · have hlt := magnitude_lt_infinity ha
    have ha := isNaN_of_isFinite ha
    rw [fgt_of_not_isNaN hp ha, fgt_of_not_isNaN ha hn, fge_of_not_isNaN ha hp, fge_of_not_isNaN hn ha,
      scaled_posInfinity, scaled_negInfinity]
    rw [← natAbs_scaled] at hlt
    simp only [decide_eq_true_iff, decide_eq_false_iff_not]
    omega
  · have hle := magnitude_le_infinity ha
    rw [fgt_of_not_isNaN ha hp, fge_of_not_isNaN hp ha, fgt_of_not_isNaN hn ha, fge_of_not_isNaN ha hn,
      scaled_posInfinity, scaled_negInfinity]
    rw [← natAbs_scaled] at hle
    simp only [decide_eq_true_iff, decide_eq_false_iff_not]
    omega

/-! ### A NaN result is canonical (R90) -/

theorem isNaN_infinity (neg : Bool) : isNaN (infinity neg) = false := isNaN_withSign neg le_rfl

theorem isNaN_zero (neg : Bool) : isNaN (zero neg) = false := isNaN_of_isFinite (isFinite_zero neg)

/-- The word is the canonical NaN if it is a NaN. -/
def CanonicalIfNaN (w : Word) : Prop := isNaN w = true → w = qNaN

theorem canonicalIfNaN_qNaN : CanonicalIfNaN qNaN := fun _ => rfl

theorem canonicalIfNaN_of_not_isNaN {w : Word} (h : isNaN w = false) : CanonicalIfNaN w :=
  fun h' => absurd (h.symm.trans h') Bool.false_ne_true

theorem canonicalIfNaN_ite {c : Prop} [Decidable c] {v w : Word} (hv : c → CanonicalIfNaN v)
    (hw : ¬c → CanonicalIfNaN w) : CanonicalIfNaN (if c then v else w) := by
  split
  · exact hv ‹_›
  · exact hw ‹_›

theorem fadd_canonicalIfNaN (a b : Word) : CanonicalIfNaN (fadd a b) := by
  refine canonicalIfNaN_ite (fun _ => canonicalIfNaN_qNaN) fun _ => ?_
  refine canonicalIfNaN_ite (fun ha => ?_) fun _ => ?_
  · exact canonicalIfNaN_ite (fun _ => canonicalIfNaN_qNaN) fun _ => canonicalIfNaN_of_not_isNaN (isNaN_of_isInf ha)
  refine canonicalIfNaN_ite (fun hb => canonicalIfNaN_of_not_isNaN (isNaN_of_isInf hb)) fun _ => ?_
  exact canonicalIfNaN_ite (fun _ => canonicalIfNaN_of_not_isNaN (isNaN_zero _)) fun _ =>
    canonicalIfNaN_of_not_isNaN (isNaN_roundMag _ _ _)

theorem fsub_canonicalIfNaN (a b : Word) : CanonicalIfNaN (fsub a b) :=
  canonicalIfNaN_ite (fun _ => canonicalIfNaN_qNaN) fun _ => fadd_canonicalIfNaN _ _

theorem fmul_canonicalIfNaN (a b : Word) : CanonicalIfNaN (fmul a b) := by
  refine canonicalIfNaN_ite (fun _ => canonicalIfNaN_qNaN) fun _ => ?_
  exact canonicalIfNaN_ite (fun _ => canonicalIfNaN_of_not_isNaN (isNaN_infinity _)) fun _ =>
    canonicalIfNaN_of_not_isNaN (isNaN_roundMag _ _ _)

theorem fdiv_canonicalIfNaN (a b : Word) : CanonicalIfNaN (fdiv a b) := by
  refine canonicalIfNaN_ite (fun _ => canonicalIfNaN_qNaN) fun _ => ?_
  refine canonicalIfNaN_ite (fun _ => canonicalIfNaN_of_not_isNaN (isNaN_infinity _)) fun _ => ?_
  exact canonicalIfNaN_ite (fun _ => canonicalIfNaN_of_not_isNaN (isNaN_zero _)) fun _ =>
    canonicalIfNaN_of_not_isNaN (isNaN_roundMag _ _ _)

/-- Settles O51: every branch of a primitive is the canonical NaN, an infinity, a zero or a rounding. -/
theorem naNResultsAreCanonical : Obligations.NaNResultsAreCanonical :=
  fun a b => ⟨fadd_canonicalIfNaN a b, fsub_canonicalIfNaN a b, fmul_canonicalIfNaN a b, fdiv_canonicalIfNaN a b⟩

/-! ### What is representable is kept (R88, R94) -/

/-- The magnitudes of finite values: at most 24 bits at a spacing up to the largest. -/
def Representable (x : Nat) : Prop := ∃ s e : Nat, s < 2 ^ 24 ∧ e ≤ 253 ∧ x = s * 2 ^ e

/-- Normalised by doubling the significand until it has 24 bits or the spacing is the least. -/
theorem exists_bitsValue_eq {s e : Nat} (hs : s < 2 ^ 24) (he : e ≤ 253) :
    ∃ m < 0x7F800000, bitsValue m = s * 2 ^ e := by
  induction e generalizing s with
  | zero => exact ⟨0 * 2 ^ 23 + s, by omega, bitsValue_sig hs.le (absurd rfl)⟩
  | succ e ih =>
    obtain hlt | hge := Nat.lt_or_ge s (2 ^ 23)
    · obtain ⟨m, hm, hv⟩ := ih (s := s * 2) (by omega) (by omega)
      exact ⟨m, hm, by rw [hv, pow_succ]; ring⟩
    · exact ⟨(e + 1) * 2 ^ 23 + s, by omega, bitsValue_sig hs.le fun _ => hge⟩

theorem Representable.roundMag_exact {x : Nat} (hx : Representable x) (neg : Bool) {den : Nat} (h : 0 < den) :
    isFinite (roundMag neg (x * den) den) = true ∧
    scaled (roundMag neg (x * den) den) = if neg then -(x : Int) else x := by
  obtain ⟨s, e, hs, he, rfl⟩ := hx
  obtain ⟨m, hm, hv⟩ := exists_bitsValue_eq hs he
  have hbits : roundMagBits (s * 2 ^ e * den) den = m := by rw [← hv, roundMagBits_exact m den h hm.le]
  rw [scaled_roundMag, hbits, hv, roundMag, hbits]
  exact ⟨isFinite_withSign neg hm, rfl⟩

theorem representable_magnitude {w : Word} (h : isFinite w = true) : Representable (magnitude w) := by
  have hlt := (isFinite_iff w).1 h
  rw [magnitude_eq_bitsValue]
  generalize w.toNat % 2 ^ 31 = m at *
  unfold bitsValue
  split
  · exact ⟨m, 0, by omega, by omega, by rw [pow_zero, mul_one]⟩
  · exact ⟨2 ^ 23 + m % 2 ^ 23, m / 2 ^ 23 - 1, by omega, by omega, rfl⟩

/-- Settles O52: an integer up to 2^24 has a significand of 24 bits at the spacing of 1.0, and 2^24 itself at the next. -/
theorem integerConversionIsExact : Obligations.IntegerConversionIsExact := by
  intro k hk
  have hrep : Representable (k * unitOne) := by
    obtain hlt | rfl := Nat.lt_or_eq_of_le hk
    · exact ⟨k, 149, hlt, by omega, rfl⟩
    · exact ⟨2 ^ 23, 150, by omega, by omega, by decide +kernel⟩
  have h := hrep.roundMag_exact false one_pos
  rw [mul_one] at h
  exact ⟨h.1, by rw [i2f, h.2]; simp [unitOne], by rintro rfl; decide⟩

/-- A representable sum is exact. -/
theorem fadd_exact {a b : Word} (ha : isFinite a = true) (hb : isFinite b = true)
    (h : Representable (scaled a + scaled b).natAbs) :
    isFinite (fadd a b) = true ∧ scaled (fadd a b) = scaled a + scaled b := by
  rw [fadd_of_isFinite ha hb]
  split
  next h0 => exact ⟨isFinite_zero _, by rw [scaled_zero, h0]⟩
  next =>
    have hr := h.roundMag_exact (decide (scaled a + scaled b < 0)) one_pos
    rw [mul_one] at hr
    refine ⟨hr.1, hr.2.trans ?_⟩
    simp only [decide_eq_true_eq]
    split <;> omega

theorem fsub_exact {a b : Word} (ha : isFinite a = true) (hb : isFinite b = true)
    (h : Representable (scaled a - scaled b).natAbs) :
    isFinite (fsub a b) = true ∧ scaled (fsub a b) = scaled a - scaled b := by
  rw [sub_eq_add_neg, ← scaled_neg] at h ⊢
  rw [fsub_of_not_isNaN a (isNaN_of_isFinite hb)]
  exact fadd_exact ha ((isFinite_neg b).trans hb) h

/-- What a representable magnitude is above a multiple of 1.0 is representable: at a spacing up to that of 1.0 it is less
of the same spacing, and at a wider one it is 0. -/
theorem Representable.mod_unitOne {x : Nat} (h : Representable x) : Representable (x % unitOne) := by
  obtain ⟨s, e, hs, he, rfl⟩ := h
  unfold unitOne
  obtain hle | hge := Nat.le_total e 149
  · refine ⟨s % 2 ^ (149 - e), e, lt_of_le_of_lt (Nat.mod_le _ _) hs, he, ?_⟩
    rw [← Nat.mul_mod_mul_right, ← pow_add, Nat.sub_add_cancel hle]
  · refine ⟨0, 0, by omega, by omega, ?_⟩
    rw [zero_mul, Nat.mod_eq_zero_of_dvd (Dvd.dvd.mul_left (pow_dvd_pow 2 hge) s)]

/-- Settles O53: the difference is the remainder of the magnitude by 1.0. -/
theorem fractionIsExact : Obligations.FractionIsExact := by
  intro a ha hge hfloor
  have hnonneg : 0 ≤ scaled a := ((fge_iff _ _).1 hge).2.2
  obtain ⟨hk, hkv, -⟩ := integerConversionIsExact (ffloorU a) hfloor
  have hrem : scaled a - scaled (i2f (ffloorU a)) = (magnitude a % unitOne : Nat) := by
    have hdiv := Nat.div_add_mod' (magnitude a) unitOne
    have habs := natAbs_scaled a
    have hu : unitOne = 2 ^ 149 := rfl
    rw [hkv, ffloorU]
    rw [hu] at *
    omega
  have hexact := fsub_exact ha hk (by rw [hrem, Int.natAbs_natCast]; exact (representable_magnitude ha).mod_unitOne)
  have hlt := Nat.mod_lt (magnitude a) unitOne_pos
  refine ⟨by rw [hexact.2, hkv], hexact.1, by rw [hexact.2, hrem]; exact Int.natCast_nonneg _, ?_, fun h0 hne => ?_⟩
  · rw [hexact.2, hrem]
    exact_mod_cast hlt
  · rw [fsub_of_not_isNaN a (isNaN_of_isFinite hk), fadd_of_sum_eq_zero ha ((isFinite_neg _).trans hk), if_neg]
    · exact fun h => hne h.1
    · rw [scaled_neg, hkv, h0]
      omega

/-- A quarter of a zero or of a magnitude that is spaced at least four units is representable. -/
theorem exists_quarter {a : Word} (ha : isFinite a = true) (h : scaled a = 0 ∨ 2 ^ 25 ≤ magnitude a) :
    ∃ x, Representable x ∧ magnitude a = 4 * x := by
  obtain h | h := h
  · exact ⟨0, ⟨0, 0, by omega, by omega, rfl⟩, (scaled_eq_zero_iff a).1 h⟩
  · obtain ⟨s, e, hs, he, hm⟩ := representable_magnitude ha
    rw [hm] at h
    obtain ⟨e, rfl⟩ : ∃ e', e = e' + 2 := by
      refine ⟨e - 2, ?_⟩
      by_contra hlt
      obtain rfl | rfl : e = 0 ∨ e = 1 := by omega
      all_goals omega
    exact ⟨s * 2 ^ e, ⟨s, e, hs, by omega, rfl⟩, by rw [hm, pow_add]; ring⟩

theorem fmul_quarter_exact {a : Word} (ha : isFinite a = true) (h : scaled a = 0 ∨ 2 ^ 25 ≤ magnitude a) :
    isFinite (fmul a 0x3E800000) = true ∧ 4 * scaled (fmul a 0x3E800000) = scaled a := by
  obtain ⟨x, hx, hm⟩ := exists_quarter ha h
  have hq : magnitude 0x3E800000 * 4 = unitOne := by decide +kernel
  have hs : signBit 0x3E800000 = false := by decide
  have hprod : magnitude a * magnitude 0x3E800000 = x * unitOne := by rw [hm, ← hq]; ring
  rw [fmul_of_isFinite ha (by decide), hprod, hs, Bool.bne_false]
  have hr := hx.roundMag_exact (signBit a) unitOne_pos
  refine ⟨hr.1, ?_⟩
  rw [hr.2, scaled, hm]
  cases signBit a <;> simp

/-- Rounding keeps a finite word. -/
theorem roundMag_magnitude {w : Word} (h : isFinite w = true) : roundMag (signBit w) (magnitude w) 1 = w := by
  have hb := roundMagBits_exact (w.toNat % 2 ^ 31) 1 one_pos ((isFinite_iff w).1 h).le
  rw [mul_one, ← magnitude_eq_bitsValue] at hb
  rw [roundMag, hb, withSign_signBit]

theorem scaled_lt_zero_iff {w : Word} (h : scaled w ≠ 0) : scaled w < 0 ↔ signBit w = true := by
  unfold scaled at *
  cases hs : signBit w
  · simp
  · simp only [hs, if_true, iff_true] at *
    omega

theorem zero_fadd {a : Word} (hn : isNaN a = false) (hz : a ≠ 0x80000000) : fadd 0x00000000 a = a := by
  have hzero : isFinite 0x00000000 = true := by decide
  have hs0 : scaled 0x00000000 = 0 := by decide
  cases hf : isFinite a
  · refine fadd_infinity_right ?_ hzero
    have h1 := (isNaN_eq_false_iff a).1 hn
    have h2 := mt (isFinite_iff a).2 (by simp [hf])
    exact (isInf_iff a).2 (by omega)
  · rw [fadd_of_isFinite hzero hf, hs0, zero_add]
    split
    next h0 =>
      have := eq_zero_of_scaled_eq_zero h0
      cases hs : signBit a <;> rw [hs] at this
      · exact this.symm
      · exact absurd this hz
    next h0 =>
      rw [roundInt, natAbs_scaled, show decide (scaled a < 0) = signBit a by simp [scaled_lt_zero_iff h0]]
      exact roundMag_magnitude hf

/-- Settles O54: the product with 0.25 is a quarter of the magnitude, and a sum with +0 rounds the addend itself. -/
theorem quarterScalingAndZeroAddAreExact : Obligations.QuarterScalingAndZeroAddAreExact :=
  ⟨fun _ => fmul_quarter_exact, fun _ => zero_fadd, by decide⟩

end Sys2Proof.Machine
end

section
/-! PROOFS. The wave table (spec/41_wavetable.md): its exact zeros (O55), the antisymmetry of its halves (O56), and the
distance of its entries from the real sine (O57), by the sine's alternating Taylor series, bounds of the model's π and the
half spacing of a rounding. -/

namespace Sys2Proof.Machine

/-! ### The sine's Taylor series -/

/-- The magnitude of the n-th term of the sine's Taylor series at `x`. -/
noncomputable def sineTerm (x : ℝ) (n : ℕ) : ℝ := x ^ (2 * n + 1) / (2 * n + 1).factorial

theorem sineTerm_zero (x : ℝ) : sineTerm x 0 = x := by simp [sineTerm]

theorem sineTerm_succ (x : ℝ) (n : ℕ) :
    sineTerm x (n + 1) = sineTerm x n * (x ^ 2 / (2 * (n + 1) * (2 * (n + 1) + 1) : ℕ)) := by
  rw [sineTerm, sineTerm, div_mul_div_comm, ← pow_add, ← Nat.cast_mul,
    show (2 * (n + 1) + 1).factorial = (2 * n + 1).factorial * (2 * (n + 1) * (2 * (n + 1) + 1)) by
      rw [show 2 * (n + 1) + 1 = (2 * n + 1) + 1 + 1 by ring, Nat.factorial_succ, Nat.factorial_succ]; ring]
  rfl

/-- Up to 2 the terms fall from the first on. -/
theorem sineTerm_antitone {x : ℝ} (h0 : 0 ≤ x) (h2 : x ≤ 2) : Antitone (sineTerm x) := by
  refine antitone_nat_of_succ_le fun n => ?_
  rw [sineTerm_succ]
  refine mul_le_of_le_one_right (div_nonneg (pow_nonneg h0 _) (Nat.cast_nonneg _)) ?_
  refine div_le_one_of_le₀ ?_ (Nat.cast_nonneg _)
  have hc : (4 : ℝ) ≤ (2 * (n + 1) * (2 * (n + 1) + 1) : ℕ) := by exact_mod_cast (by nlinarith)
  nlinarith

theorem hasSum_sineTerm (x : ℝ) : HasSum (fun n => (-1) ^ n * sineTerm x n) (Real.sin x) := by
  simpa only [sineTerm, mul_div_assoc] using Real.hasSum_sin x

/-! ### The tail of the series that the model evaluates -/

theorem sineTail_succ_snd (a b last j : ℕ) :
    (sineTail a b last (j + 1)).2 = 2 * (last - j) * (2 * (last - j) + 1) * (b ^ 2 * (sineTail a b last j).2) :=
  Nat.mul_assoc ..

theorem sineTail_succ_fst (a b last j : ℕ) :
    (sineTail a b last (j + 1)).1 = (sineTail a b last (j + 1)).2 - a ^ 2 * (sineTail a b last j).1 := rfl

/-- x times the whole tail, at x = a / b: the Taylor polynomial up to the term of number `last`. -/
noncomputable def sinePoly (a b last : ℕ) : ℝ :=
  ((a * (sineTail a b last last).1 : ℕ) : ℝ) / (b * (sineTail a b last last).2 : ℕ)

section
variable {a b last j : ℕ} (hb : 0 < b) (ha : a ≤ 2 * b)
include hb ha

/-- For x = a / b up to 2 each tail lies from 1/3 to 1: x² is at most 4 and what divides it at least 6, so that the
subtraction is never cut off at 0. -/
theorem sineTail_bounds (hj : j ≤ last) :
    0 < (sineTail a b last j).2 ∧ (sineTail a b last j).1 ≤ (sineTail a b last j).2 ∧
      (sineTail a b last j).2 ≤ 3 * (sineTail a b last j).1 := by
  induction j with
  | zero => exact ⟨one_pos, le_rfl, Nat.le_mul_of_pos_left 1 three_pos⟩
  | succ j ih =>
    obtain ⟨hpos, hle, -⟩ := ih (by omega)
    rw [sineTail_succ_fst, sineTail_succ_snd]
    have hc : 6 ≤ 2 * (last - j) * (2 * (last - j) + 1) := by
      have : 1 ≤ last - j := by omega
      nlinarith
    have hu : 0 < b ^ 2 * (sineTail a b last j).2 := by positivity
    have hden := Nat.mul_le_mul_right (b ^ 2 * (sineTail a b last j).2) hc
    have hsub : a ^ 2 * (sineTail a b last j).1 ≤ 4 * (b ^ 2 * (sineTail a b last j).2) := by
      calc a ^ 2 * (sineTail a b last j).1 ≤ (2 * b) ^ 2 * (sineTail a b last j).2 :=
            Nat.mul_le_mul (Nat.pow_le_pow_left ha 2) hle
        _ = _ := by ring
    omega

/-- A tail stands, against the term it follows, for the terms of the series from there up to the last. -/
theorem sineTerm_mul_sineTail (hj : j ≤ last) :
    (-1) ^ (last - j) * sineTerm (a / b) (last - j) * ((sineTail a b last j).1 / (sineTail a b last j).2) =
      ∑ n ∈ Finset.Ico (last - j) (last + 1), (-1) ^ n * sineTerm (a / b) n := by
  induction j with
  | zero => simp [sineTail]
  | succ j ih =>
    obtain ⟨i, hi⟩ : ∃ i, last - j = i + 1 := ⟨last - j - 1, by omega⟩
    obtain ⟨hpos, -, -⟩ := sineTail_bounds hb ha (j := j) (last := last) (by omega)
    obtain ⟨hpos', -, h3'⟩ := sineTail_bounds hb ha hj
    have hsub : a ^ 2 * (sineTail a b last j).1 ≤ (sineTail a b last (j + 1)).2 := by
      rw [sineTail_succ_fst] at h3'
      omega
    have hi' : last - (j + 1) = i := by omega
    rw [hi', Finset.sum_eq_sum_Ico_succ_bot (by omega), ← hi, ← ih (by omega), hi, sineTerm_succ, sineTail_succ_fst,
      Nat.cast_sub hsub, sineTail_succ_snd, hi]
    have hbR : (b : ℝ) ≠ 0 := by exact_mod_cast hb.ne'
    have htR : ((sineTail a b last j).2 : ℝ) ≠ 0 := by exact_mod_cast hpos.ne'
    push_cast
    field_simp
    ring

theorem sinePoly_eq_sum (last : ℕ) :
    sinePoly a b last = ∑ n ∈ Finset.range (last + 1), (-1) ^ n * sineTerm (a / b) n := by
  have h := sineTerm_mul_sineTail hb ha (le_refl last)
  rw [Nat.sub_self, pow_zero, one_mul, sineTerm_zero, div_mul_div_comm] at h
  rw [Finset.range_eq_Ico, ← h, sinePoly]
  push_cast
  rfl

theorem ratio_mem : (0 : ℝ) ≤ a / b ∧ (a / b : ℝ) ≤ 2 := by
  exact ⟨by positivity, (div_le_iff₀ (by exact_mod_cast hb)).2 (by exact_mod_cast ha)⟩

/-- A polynomial whose last term is added is at least the sine. -/
theorem sin_le_sinePoly (k : ℕ) : Real.sin (a / b) ≤ sinePoly a b (2 * k) := by
  obtain ⟨h0, h2⟩ := ratio_mem hb ha
  rw [sinePoly_eq_sum hb ha]
  exact (sineTerm_antitone h0 h2).tendsto_le_alternating_series (hasSum_sineTerm _).tendsto_sum_nat k

/-- A polynomial whose last term is subtracted is at most the sine. -/
theorem sinePoly_le_sin (k : ℕ) : sinePoly a b (2 * k + 1) ≤ Real.sin (a / b) := by
  obtain ⟨h0, h2⟩ := ratio_mem hb ha
  rw [sinePoly_eq_sum hb ha]
  exact (sineTerm_antitone h0 h2).alternating_series_le_tendsto (hasSum_sineTerm _).tendsto_sum_nat (k + 1)

/-- A polynomial is off by at most the term that comes after its last. -/
theorem abs_sinePoly_sub_sin_le (last : ℕ) : |sinePoly a b last - Real.sin (a / b)| ≤ sineTerm (a / b) (last + 1) := by
  obtain ⟨h0, h2⟩ := ratio_mem hb ha
  have h := alternating_series_error_bound _ (sineTerm_antitone h0 h2) (Real.hasSum_sinh _).summable (last + 1)
  rwa [← sinePoly_eq_sum hb ha, (hasSum_sineTerm _).tsum_eq, abs_sub_comm] at h

/-- The polynomial is at least a third of its argument, as the whole tail is at least 1/3. -/
theorem ratio_le_three_mul_sinePoly (last : ℕ) : (a / b : ℝ) ≤ 3 * sinePoly a b last := by
  obtain ⟨hpos, -, hthird⟩ := sineTail_bounds hb ha (le_refl last)
  have hb' : (0 : ℝ) < b := by exact_mod_cast hb
  have hpos' : (0 : ℝ) < (sineTail a b last last).2 := by exact_mod_cast hpos
  rw [sinePoly, Nat.cast_mul, Nat.cast_mul, mul_div_mul_comm, mul_left_comm]
  refine le_mul_of_one_le_right (by positivity) ?_
  rw [← mul_div_assoc, le_div_iff₀ hpos', one_mul]
  exact_mod_cast hthird

end

/-! ### The model's π -/

/-- π against a number of which only the sine of its sixth is known: sin(π / 6) is 1/2, and the sine rises there. -/
theorem sin_sixth_iff {x : ℝ} (h0 : 0 ≤ x) (h6 : x ≤ 6) :
    (Real.sin (x / 6) ≤ 1 / 2 ↔ x ≤ Real.pi) ∧ (1 / 2 ≤ Real.sin (x / 6) ↔ Real.pi ≤ x) := by
  have hpi := Real.pi_gt_three
  have hx : x / 6 ∈ Set.Icc (-(Real.pi / 2)) (Real.pi / 2) := ⟨by linarith, by linarith⟩
  have hp : Real.pi / 6 ∈ Set.Icc (-(Real.pi / 2)) (Real.pi / 2) := ⟨by linarith, by linarith⟩
  rw [← Real.sin_pi_div_six, Real.strictMonoOn_sin.le_iff_le hx hp, Real.strictMonoOn_sin.le_iff_le hp hx,
    div_le_div_iff_of_pos_right (by norm_num), div_le_div_iff_of_pos_right (by norm_num)]
  exact ⟨Iff.rfl, Iff.rfl⟩

section
variable {a b : ℕ} (hb : 0 < b) (ha : a ≤ 6 * b)
include hb ha

theorem sixth_ratio : (0 : ℝ) ≤ a / b ∧ (a / b : ℝ) ≤ 6 ∧ (a / b / 6 : ℝ) = a / (6 * b : ℕ) := by
  refine ⟨by positivity, (div_le_iff₀ (by exact_mod_cast hb)).2 (by exact_mod_cast ha), ?_⟩
  rw [div_div, mul_comm]
  push_cast
  rfl

theorem ratio_le_pi (k : ℕ)
    (h : a * (sineTail a (6 * b) (2 * k) (2 * k)).1 * 2 ≤ 6 * b * (sineTail a (6 * b) (2 * k) (2 * k)).2) :
    (a / b : ℝ) ≤ Real.pi := by
  obtain ⟨h0, h6, hx⟩ := sixth_ratio hb ha
  obtain ⟨hden, -, -⟩ := sineTail_bounds (a := a) (b := 6 * b) (by omega) (by omega) (le_refl (2 * k))
  rw [← (sin_sixth_iff h0 h6).1, hx]
  refine (sin_le_sinePoly (by omega) (by omega) k).trans ?_
  rw [sinePoly, div_le_div_iff₀ (by exact_mod_cast (by positivity)) two_pos, one_mul]
  exact_mod_cast h

theorem pi_le_ratio (k : ℕ)
    (h : 6 * b * (sineTail a (6 * b) (2 * k + 1) (2 * k + 1)).2 ≤
      a * (sineTail a (6 * b) (2 * k + 1) (2 * k + 1)).1 * 2) : Real.pi ≤ a / b := by
  obtain ⟨h0, h6, hx⟩ := sixth_ratio hb ha
  obtain ⟨hden, -, -⟩ := sineTail_bounds (a := a) (b := 6 * b) (by omega) (by omega) (le_refl (2 * k + 1))
  rw [← (sin_sixth_iff h0 h6).2, hx]
  refine le_trans ?_ (sinePoly_le_sin (by omega) (by omega) k)
  rw [sinePoly, div_le_div_iff₀ two_pos (by exact_mod_cast (by positivity)), one_mul]
  exact_mod_cast h

end

/-- The model's π is π rounded down to its unit. -/
theorem piNum_bounds : (piNum / constUnit : ℝ) ≤ Real.pi ∧ Real.pi ≤ (piNum + 1 : ℕ) / constUnit :=
  ⟨ratio_le_pi (by decide +kernel) (by decide +kernel) 8 (by decide +kernel),
    pi_le_ratio (by decide +kernel) (by decide +kernel) 8 (by decide +kernel)⟩

/-! ### Rounding to binary32 within half a spacing -/

section
variable {num den : ℕ} (h : 0 < den)
include h

/-- A number is below 2^24 of its spacings. -/
theorem lt_pow_spacingLog : num < 2 ^ 24 * 2 ^ spacingLog num den * den := by
  rw [← Nat.div_lt_iff_lt_mul h, ← pow_add]
  refine lt_of_lt_of_le (Nat.lt_log2_self (n := num / den)) (Nat.pow_le_pow_right two_pos ?_)
  unfold spacingLog
  omega

/-- The rounded value is within half a spacing. -/
theorem bitsValue_unboundedBits_near :
    |(bitsValue (unboundedBits num den) : ℝ) - num / den| ≤ 2 ^ spacingLog num den / 2 := by
  obtain ⟨hlo, hhi⟩ := roundHalfEven_near num (den * 2 ^ spacingLog num den) (by positivity)
  rw [bitsValue_unboundedBits num h]
  generalize roundHalfEven num (den * 2 ^ spacingLog num den) = q at *
  generalize spacingLog num den = k at *
  have hd : (0 : ℝ) < den := by exact_mod_cast h
  have hlo : (2 * (q * (den * 2 ^ k)) : ℝ) ≤ 2 * num + den * 2 ^ k := by exact_mod_cast hlo
  have hhi : (2 * num : ℝ) ≤ 2 * (q * (den * 2 ^ k)) + den * 2 ^ k := by exact_mod_cast hhi
  have hv : (num : ℝ) = num / den * den := by field_simp
  push_cast
  rw [hv] at hlo hhi
  rw [abs_le]
  constructor <;> nlinarith

end

/-- The values at the rounded word are spaced at least as wide as the multiples it was rounded to: the spacing is the next
one where the significand carries into the exponent. -/
theorem pow_spacingLog_le_spacing (neg : Bool) {num den : ℕ} (h : 0 < den) (ho : num < (2 ^ 277 - 2 ^ 252) * den) :
    2 ^ spacingLog num den ≤ spacing (roundMag neg num den) := by
  have hle := roundMagBits_le num den
  have hmod := toNat_withSign_mod neg (m := roundMagBits num den) (by omega)
  have hsig := (roundedSig_bounds num den h).2
  refine Nat.pow_le_pow_right two_pos ?_
  rw [expField_eq, roundMag]
  rw [roundMagBits_of_not_overflow h ho] at *
  unfold unboundedBits at *
  omega

/-! ### A sign flipped -/

theorem withSign_true {m : ℕ} (h : m < 2 ^ 31) : withSign true m = withSign false m ^^^ 0x80000000 := by
  rw [← withSign_signBit (withSign false m ^^^ 0x80000000), signBit_neg, toNat_neg_mod, toNat_withSign_mod false h,
    signBit_withSign false m h]
  rfl

theorem roundMag_true (num den : ℕ) : roundMag true num den = roundMag false num den ^^^ 0x80000000 :=
  withSign_true (lt_of_le_of_lt (roundMagBits_le num den) (by norm_num))

theorem spacing_neg (w : Word) : spacing (w ^^^ 0x80000000) = spacing w := by
  have h := toNat_neg_mod w
  rw [spacing, spacing, expField_eq, expField_eq]
  congr 2
  omega

/-! ### Words that follow a real number -/

/-- What `TableFollowsTheRealSine` asks of an entry, for a real number in place of the sine. -/
def Follows (w : Word) (y : ℝ) : Prop :=
  isFinite w = true ∧ magnitude w ≤ 2 ^ 149 ∧
  |(scaled w : ℝ) - 2 ^ 149 * y| ≤ (spacing w : ℝ) * (1 / 2 + 1 / 2 ^ 60) ∧
  |(scaled w : ℝ) / 2 ^ 149 - y| ≤ 1 / 2 ^ 25 + 1 / 2 ^ 60

theorem follows_zero : Follows 0x00000000 0 := by
  have h0 : scaled 0x00000000 = 0 := scaled_zero false
  refine ⟨isFinite_zero false, by decide +kernel, ?_, ?_⟩
  · rw [h0]; simp; positivity
  · rw [h0]; norm_num

theorem Follows.neg {w : Word} {y : ℝ} (h : Follows w y) : Follows (w ^^^ 0x80000000) (-y) := by
  obtain ⟨hfin, hmag, hspace, habs⟩ := h
  refine ⟨(isFinite_neg w).trans hfin, ?_, ?_, ?_⟩
  · rwa [← natAbs_scaled, scaled_neg, Int.natAbs_neg, natAbs_scaled]
  · rwa [spacing_neg, scaled_neg, Int.cast_neg, mul_neg, neg_sub_neg, abs_sub_comm]
  · rwa [scaled_neg, Int.cast_neg, neg_div, neg_sub_neg, abs_sub_comm]

theorem bitsValue_one : bitsValue 0x3F800000 = 2 ^ 149 := by decide +kernel

section
variable {num den : ℕ} (h : 0 < den)
include h

/-- Up to a little above 1.0 nothing rounds to more than 1.0. -/
theorem roundMagBits_le_one (hnum : num ≤ (2 ^ 149 + 2 ^ 60) * den) : roundMagBits num den ≤ 0x3F800000 :=
  calc roundMagBits num den ≤ roundMagBits (2 ^ 149 + 2 ^ 60) 1 :=
        roundMagBits_mono _ _ _ 1 h one_pos (by rwa [Nat.mul_one])
    _ = 0x3F800000 := by decide +kernel

/-- Below 1.0 the spacing is at most 2^-24. -/
theorem pow_spacingLog_le_of_lt_one (hnum : num < 2 ^ 149 * den) : 2 ^ spacingLog num den ≤ 2 ^ 125 := by
  refine Nat.pow_le_pow_right two_pos ?_
  by_contra! hk
  have hle := (le_of_spacingLog_ne_zero (num := num) h (by omega)).trans_lt hnum
  have hpow : 2 ^ (23 + spacingLog num den) < 2 ^ 149 := by
    rw [pow_add]
    exact Nat.lt_of_mul_lt_mul_right hle
  have := (Nat.pow_lt_pow_iff_right one_lt_two).1 hpow
  omega

section
variable {y : ℝ} (hy : y ≤ 1) (hnear : |(num / den : ℝ) - 2 ^ 149 * y| ≤ (num / den : ℝ) / 2 ^ 90)
include hy hnear

theorem le_of_near : num ≤ (2 ^ 149 + 2 ^ 60) * den := by
  have hv : (num / den : ℝ) ≤ 2 ^ 149 + 2 ^ 60 := by
    have := (abs_le.1 hnear).2
    norm_num at this ⊢
    linarith
  exact_mod_cast (div_le_iff₀ (by exact_mod_cast h)).1 hv

theorem not_overflow_of_near : num < (2 ^ 277 - 2 ^ 252) * den :=
  lt_of_le_of_lt (le_of_near h hy hnear) (Nat.mul_lt_mul_of_pos_right (by decide +kernel) h)

/-- Half a spacing of rounding, and what the number itself was off. -/
theorem abs_roundMagBits_sub_le :
    |(bitsValue (roundMagBits num den) : ℝ) - 2 ^ 149 * y| ≤ 2 ^ spacingLog num den / 2 + (num / den : ℝ) / 2 ^ 90 := by
  rw [roundMagBits_of_not_overflow h (not_overflow_of_near h hy hnear)]
  exact (abs_sub_le _ _ _).trans (add_le_add (bitsValue_unboundedBits_near h) hnear)

/-- The number is below 2^24 spacings, so that 2^-90 of it is far below 2^-60 of a spacing. -/
theorem abs_roundMagBits_sub_le_spacing :
    |(bitsValue (roundMagBits num den) : ℝ) - 2 ^ 149 * y| ≤
      (spacing (roundMag false num den) : ℝ) * (1 / 2 + 1 / 2 ^ 60) := by
  have hspace : (2 ^ spacingLog num den : ℝ) ≤ spacing (roundMag false num den) := by
    exact_mod_cast pow_spacingLog_le_spacing false h (not_overflow_of_near h hy hnear)
  have hlt : (num / den : ℝ) ≤ 2 ^ 24 * 2 ^ spacingLog num den :=
    (div_le_iff₀ (by exact_mod_cast h)).2 (by exact_mod_cast (lt_pow_spacingLog h).le)
  refine (abs_roundMagBits_sub_le h hy hnear).trans ?_
  norm_num at *
  linarith

/-- Below 1.0 the spacing is at most 2^-24; from 1.0 on the number rounds to 1.0, and `y` is between the two. -/
theorem abs_roundMagBits_sub_le_below_one :
    |(bitsValue (roundMagBits num den) : ℝ) - 2 ^ 149 * y| ≤ (1 / 2 ^ 25 + 1 / 2 ^ 60) * 2 ^ 149 := by
  obtain hlt | hge := Nat.lt_or_ge num (2 ^ 149 * den)
  · have hk : (2 ^ spacingLog num den : ℝ) ≤ 2 ^ 125 := by exact_mod_cast pow_spacingLog_le_of_lt_one h hlt
    have hv : (num / den : ℝ) ≤ 2 ^ 149 := (div_le_iff₀ (by exact_mod_cast h)).2 (by exact_mod_cast hlt.le)
    refine (abs_roundMagBits_sub_le h hy hnear).trans ?_
    norm_num at *
    linarith
  · have hv : (2 ^ 149 : ℝ) ≤ num / den := (le_div_iff₀ (by exact_mod_cast h)).2 (by exact_mod_cast hge)
    have hone := le_antisymm (roundMagBits_le_one h (le_of_near h hy hnear))
      (le_roundMagBits_of_le num den _ h (by decide) (by rwa [bitsValue_one]))
    rw [hone, bitsValue_one, abs_le]
    rw [abs_le] at hnear
    push_cast
    norm_num at *
    constructor <;> linarith

/-- A rational that is within 2^-90 of itself of a real number up to 1 rounds to a word that follows it. -/
theorem follows_roundMag : Follows (roundMag false num den) y := by
  have hone := roundMagBits_le_one h (le_of_near h hy hnear)
  have hscaled : (scaled (roundMag false num den) : ℝ) = bitsValue (roundMagBits num den) := by
    rw [scaled_roundMag]; simp
  have hunit : ∀ x : ℝ, x / 2 ^ 149 - y = (x - 2 ^ 149 * y) / 2 ^ 149 := fun x => by field_simp
  refine ⟨isFinite_withSign false (by omega), ?_, ?_, ?_⟩
  · rw [magnitude_roundMag, ← bitsValue_one]
    exact bitsValue_strictMono.monotone hone
  · rw [hscaled]
    exact abs_roundMagBits_sub_le_spacing h hy hnear
  · rw [hscaled, hunit, abs_div, abs_of_pos (a := (2 : ℝ) ^ 149) (by positivity), div_le_iff₀ (by positivity)]
    exact abs_roundMagBits_sub_le_below_one h hy hnear

end

end

/-! ### The word of a sine -/

theorem sineWord_true (p m : ℕ) : sineWord true p m = sineWord false p m ^^^ 0x80000000 := roundMag_true _ _

/-- The first term that the model's polynomial leaves out. -/
theorem sineTerm_seventeen_le {x : ℝ} (h0 : 0 ≤ x) (h2 : x ≤ 2) : sineTerm x 17 ≤ x / 2 ^ 97 := by
  have hpow := mul_le_mul_of_nonneg_left (pow_le_pow_left₀ h0 h2 34) h0
  have hfac : (2 : ℝ) ^ 34 * 2 ^ 97 ≤ Nat.factorial 35 := by exact_mod_cast (by decide +kernel)
  rw [sineTerm, show 2 * 17 + 1 = 34 + 1 by rfl, pow_succ', div_le_div_iff₀ (by positivity) (by positivity)]
  nlinarith

/-- The model's π puts the argument off by at most 2^-128 of itself. -/
theorem abs_arg_sub_le (p m : ℕ) :
    |((piNum * p : ℕ) : ℝ) / (constUnit * m : ℕ) - Real.pi * p / m| ≤
      ((piNum * p : ℕ) : ℝ) / (constUnit * m : ℕ) / 2 ^ 128 := by
  obtain ⟨hlo, hhi⟩ := piNum_bounds
  have hpm : (0 : ℝ) ≤ p / m := by positivity
  have hone : (1 : ℝ) ≤ piNum / constUnit := by
    rw [le_div_iff₀ (by exact_mod_cast (by decide +kernel))]
    exact_mod_cast (by decide +kernel)
  have hunit : ((piNum + 1 : ℕ) : ℝ) / constUnit = piNum / constUnit + 1 / 2 ^ 128 := by
    rw [constUnit]
    push_cast
    ring
  have hx : ((piNum * p : ℕ) : ℝ) / (constUnit * m : ℕ) = piNum / constUnit * (p / m) := by
    rw [div_mul_div_comm]
    push_cast
    rfl
  rw [hunit] at hhi
  rw [hx, mul_div_assoc, ← sub_mul, abs_mul, abs_of_nonneg hpm, mul_div_right_comm]
  refine mul_le_mul_of_nonneg_right ?_ hpm
  rw [abs_le]
  constructor <;> linarith

section
variable {p m : ℕ} (hm : 0 < m) (hp : 2 * p ≤ m)
include hm hp

theorem sineWord_arg : 0 < constUnit * m ∧ piNum * p ≤ 2 * (constUnit * m) := by
  have hconst : 0 < constUnit := by decide +kernel
  have hnum : piNum ≤ 4 * constUnit := by decide +kernel
  refine ⟨Nat.mul_pos hconst hm, ?_⟩
  calc piNum * p ≤ 4 * constUnit * p := Nat.mul_le_mul_right p hnum
    _ = 2 * constUnit * (2 * p) := by ring
    _ ≤ 2 * constUnit * m := Nat.mul_le_mul_left _ hp
    _ = _ := Nat.mul_assoc ..

/-- Polynomial and π together are off by at most 2^-96 of the argument, which is at most three times the polynomial. -/
theorem follows_sineWord : Follows (sineWord false p m) (Real.sin (Real.pi * p / m)) := by
  obtain ⟨hb, ha⟩ := sineWord_arg hm hp
  have harg := (Real.abs_sin_sub_sin_le _ _).trans (abs_arg_sub_le p m)
  have hy := Real.sin_le_one (Real.pi * p / m)
  rw [sineWord]
  generalize piNum * p = a at *
  generalize constUnit * m = b at *
  generalize Real.sin (Real.pi * p / m) = y at *
  obtain ⟨hden, -, -⟩ := sineTail_bounds hb ha (le_refl sineSteps)
  obtain ⟨h0, h2⟩ := ratio_mem hb ha
  have hpoly := (abs_sinePoly_sub_sin_le hb ha sineSteps).trans (sineTerm_seventeen_le h0 h2)
  have hthird := ratio_le_three_mul_sinePoly hb ha sineSteps
  have herr := (abs_sub_le _ _ _).trans (add_le_add hpoly harg)
  have hv : ((a * (sineTail a b sineSteps sineSteps).1 * unitOne : ℕ) : ℝ) /
      (b * (sineTail a b sineSteps sineSteps).2 : ℕ) = 2 ^ 149 * sinePoly a b sineSteps := by
    rw [sinePoly, Nat.cast_mul _ unitOne, unitOne, mul_div_right_comm, mul_comm, Nat.cast_pow, Nat.cast_ofNat]
  refine follows_roundMag (Nat.mul_pos hb hden) hy ?_
  rw [hv, ← mul_sub, abs_mul, abs_of_pos (by positivity), mul_div_assoc]
  refine mul_le_mul_of_nonneg_left (herr.trans ?_) (by positivity)
  linarith

/-- The least argument of any table is far above what rounds to zero. -/
theorem sineWord_ne_zero (h0 : 0 < p) (h14 : m ≤ 2 ^ 14) : sineWord false p m ≠ 0x00000000 := by
  obtain ⟨hb, ha⟩ := sineWord_arg hm hp
  have hab : constUnit * m ≤ 2 ^ 14 * (piNum * p) := by
    calc constUnit * m ≤ piNum * 2 ^ 14 := Nat.mul_le_mul (by decide +kernel) h14
      _ ≤ piNum * 2 ^ 14 * p := Nat.le_mul_of_pos_right _ h0
      _ = _ := by ring
  rw [sineWord]
  generalize piNum * p = a at *
  generalize constUnit * m = b at *
  obtain ⟨hden, -, hthird⟩ := sineTail_bounds hb ha (le_refl sineSteps)
  have hle : b * (sineTail a b sineSteps sineSteps).2 ≤ a * (sineTail a b sineSteps sineSteps).1 * unitOne :=
    calc b * (sineTail a b sineSteps sineSteps).2 ≤ 2 ^ 14 * a * (3 * (sineTail a b sineSteps sineSteps).1) :=
          Nat.mul_le_mul hab hthird
      _ = a * (sineTail a b sineSteps sineSteps).1 * (2 ^ 14 * 3) := by ring
      _ ≤ _ := Nat.mul_le_mul_left _ (by decide +kernel)
  have hbits := le_roundMagBits_of_le (m := 1) _ _ (Nat.mul_pos hb hden) (by decide) ((Nat.one_mul _).trans_le hle)
  intro hzero
  have hmag := (magnitude_eq_zero_iff _).2 (congrArg (BitVec.toNat · % 2 ^ 31) hzero)
  rw [magnitude_roundMag] at hmag
  exact absurd (bitsValue_strictMono hbits) (by omega)

end

/-! ### The entries of a table (R100, R101, R102) -/

theorem tableEntry_eq_zero {N i : ℕ} (h : i = 0 ∨ i = N - 1 ∨ 2 * i = N - 1) : tableEntry N i = 0x00000000 := by
  unfold tableEntry
  exact if_pos (by simpa [or_assoc] using h)

/-- Settles O55: the three zeros are `tableEntry_eq_zero`. -/
theorem tableHasItsExactZeros : Obligations.TableHasItsExactZeros := fun _ _ =>
  ⟨tableEntry_eq_zero (.inl rfl), tableEntry_eq_zero (.inr (.inl rfl)), fun _ h => tableEntry_eq_zero (.inr (.inr h))⟩

/-- The argument, in m-ths of π, that the first quarter of the cycle has for entry `i` of the first half. -/
def quarterArg (i m : ℕ) : ℕ := if 4 * i ≤ m then 2 * i else m - 2 * i

theorem sineWord_quarterArg (neg : Bool) (i m : ℕ) : sineWord neg (quarterArg i m) m =
    if 4 * i ≤ m then sineWord neg (2 * i) m else sineWord neg (m - 2 * i) m := apply_ite (sineWord neg · m) ..

section
variable {N i : ℕ} (h0 : 0 < i) (h2 : 2 * i < N - 1)
include h0 h2

theorem quarterArg_bounds : 0 < quarterArg i (N - 1) ∧ 2 * quarterArg i (N - 1) ≤ N - 1 := by
  unfold quarterArg
  split <;> omega

/-- Both arguments have the sine of the entry: in the second quarter sin(π − x) = sin x. -/
theorem sin_quarterArg :
    Real.sin (Real.pi * quarterArg i (N - 1) / (N - 1 : ℕ)) = Real.sin (2 * Real.pi * i / (N - 1 : ℕ)) := by
  have hm : ((N - 1 : ℕ) : ℝ) ≠ 0 := by exact_mod_cast (by omega)
  unfold quarterArg
  split
  · push_cast
    ring_nf
  · rw [← Real.sin_pi_sub, Nat.cast_sub h2.le]
    congr 1
    push_cast
    field_simp
    ring

theorem tableEntry_first_half : tableEntry N i = sineWord false (quarterArg i (N - 1)) (N - 1) := by
  rw [tableEntry, if_neg (by simp; omega), if_pos h2, sineWord_quarterArg]

/-- The second half of a table is the first with the sign bit flipped: it is at the same argument. -/
theorem tableEntry_mirror : tableEntry N (N - 1 - i) = tableEntry N i ^^^ 0x80000000 := by
  rw [tableEntry_first_half h0 h2, ← sineWord_true, tableEntry, if_neg (by simp; omega), if_neg (by omega),
    show N - 1 - (N - 1 - i) = i by omega, sineWord_quarterArg]

theorem tableEntry_mirror_ne_zero : tableEntry N (N - 1 - i) ≠ 0x00000000 := by
  intro hz
  have hsign : signBit (tableEntry N (N - 1 - i)) = true := by
    rw [tableEntry_mirror h0 h2, signBit_neg, tableEntry_first_half h0 h2, sineWord, signBit_roundMag]
    rfl
  rw [hz] at hsign
  exact absurd hsign (by decide)

theorem tableEntry_ne_zero (hN : N ≤ 16384) : tableEntry N i ≠ 0x00000000 := by
  obtain ⟨hpos, hle⟩ := quarterArg_bounds h0 h2
  rw [tableEntry_first_half h0 h2]
  exact sineWord_ne_zero (by omega) hle hpos (by omega)

theorem follows_tableEntry_first_half : Follows (tableEntry N i) (Real.sin (2 * Real.pi * i / (N - 1 : ℕ))) := by
  rw [tableEntry_first_half h0 h2, ← sin_quarterArg h0 h2]
  exact follows_sineWord (by omega) (quarterArg_bounds h0 h2).2

end

/-- What an inner entry of a table is: in the first half, the middle one of an odd size, or the mirror of one in the first
half. -/
theorem inner_index_cases {N i : ℕ} (h0 : 0 < i) (h1 : i < N - 1) :
    2 * i < N - 1 ∨ 2 * i = N - 1 ∨ ∃ j, 0 < j ∧ 2 * j < N - 1 ∧ i = N - 1 - j := by
  obtain h | h | h := Nat.lt_trichotomy (2 * i) (N - 1)
  · exact .inl h
  · exact .inr (.inl h)
  · exact .inr (.inr ⟨N - 1 - i, by omega, by omega, by omega⟩)

/-- Settles O56, by the half in which the index lies; the mirror of the middle entry is itself. -/
theorem tableIsAntisymmetric : Obligations.TableIsAntisymmetric := by
  intro N i _ hN h0 h1
  obtain h | h | ⟨j, hj, hj2, rfl⟩ := inner_index_cases h0 h1
  · rw [if_neg (tableEntry_ne_zero h0 h hN), tableEntry_mirror h0 h]
  · rw [tableEntry_eq_zero (i := i) (.inr (.inr h)), if_pos rfl]
    exact tableEntry_eq_zero (.inr (.inr (by omega)))
  · have hback : tableEntry N j = tableEntry N (N - 1 - j) ^^^ 0x80000000 := by
      rw [tableEntry_mirror hj hj2, BitVec.xor_assoc, BitVec.xor_self, BitVec.xor_zero]
    rw [show N - 1 - (N - 1 - j) = j by omega, if_neg (tableEntry_mirror_ne_zero hj hj2), hback]

/-- Settles O57: in the first half by `follows_sineWord`, in the second by sin(2π − x) = −sin x. -/
theorem tableFollowsTheRealSine : Obligations.TableFollowsTheRealSine := by
  intro N i hN _ hi
  have hm : ((N - 1 : ℕ) : ℝ) ≠ 0 := by exact_mod_cast (by omega)
  rw [← Nat.cast_pred (by omega : 0 < N)]
  change Follows (tableEntry N i) (Real.sin (2 * Real.pi * i / (N - 1 : ℕ)))
  obtain rfl | h0 := Nat.eq_zero_or_pos i
  · rw [tableEntry_eq_zero (.inl rfl)]
    simpa using follows_zero
  obtain rfl | h1 := eq_or_ne i (N - 1)
  · rw [tableEntry_eq_zero (.inr (.inl rfl)), mul_div_cancel_right₀ _ hm, Real.sin_two_pi]
    exact follows_zero
  obtain h | h | ⟨j, hj, hj2, rfl⟩ := inner_index_cases h0 (by omega : i < N - 1)
  · exact follows_tableEntry_first_half h0 h
  · have hpi : 2 * Real.pi * i / (N - 1 : ℕ) = Real.pi := by
      rw [← h] at hm ⊢
      push_cast at *
      field_simp
    rw [tableEntry_eq_zero (.inr (.inr h)), hpi, Real.sin_pi]
    exact follows_zero
  · have hsin : Real.sin (2 * Real.pi * (N - 1 - j : ℕ) / (N - 1 : ℕ)) = -Real.sin (2 * Real.pi * j / (N - 1 : ℕ)) := by
      rw [← Real.sin_two_pi_sub, Nat.cast_sub (by omega)]
      congr 1
      field_simp
    rw [hsin, tableEntry_mirror hj hj2]
    exact (follows_tableEntry_first_half hj hj2).neg

end Sys2Proof.Machine
end

section
/-! PROOFS. One voice (spec/42_oscillator.md): the lookup domain (O28), a phase that stays in [0, n] (O29, O30), and from it a
RENDER that never faults (O34); what SETFREQ (O25, O26) and NEXT (O27) make of the state. -/

namespace Sys2Proof.Machine

/-! ### Comparisons and conversions as inequalities between values (R86, R88) -/

theorem fge_iff_of_isFinite {a b : Word} (ha : isFinite a = true) (hb : isFinite b = true) :
    fge a b = true ↔ scaled b ≤ scaled a := by
  rw [fge_of_not_isNaN (isNaN_of_isFinite ha) (isNaN_of_isFinite hb), decide_eq_true_iff]

theorem fgt_iff_of_isFinite {a b : Word} (ha : isFinite a = true) (hb : isFinite b = true) :
    fgt a b = true ↔ scaled b < scaled a := by
  rw [fgt_of_not_isNaN (isNaN_of_isFinite ha) (isNaN_of_isFinite hb), decide_eq_true_iff]

theorem fge_zero_iff {a : Word} (ha : isFinite a = true) : fge a 0 = true ↔ 0 ≤ scaled a :=
  fge_iff_of_isFinite ha (isFinite_zero false)

theorem isFinite_i2f {k : Nat} (h : k ≤ 2 ^ 24) : isFinite (i2f k) = true := (integerConversionIsExact k h).1

theorem scaled_i2f {k : Nat} (h : k ≤ 2 ^ 24) : scaled (i2f k) = k * 2 ^ 149 := (integerConversionIsExact k h).2.1

theorem inDomain_iff {n : Nat} (hn : n ≤ 16384) (p : Word) :
    inDomain n p = true ↔ isFinite p = true ∧ 0 ≤ scaled p ∧ scaled p < (n + 1) * 2 ^ 149 := by
  rw [inDomain, Bool.and_eq_true, Bool.and_eq_true, and_assoc]
  refine and_congr_right fun hp => and_congr (fge_zero_iff hp) ?_
  rw [flt, fgt_iff_of_isFinite (isFinite_i2f (by omega)) hp, scaled_i2f (by omega), Nat.cast_succ]

theorem inRange_iff {n : Nat} (hn : n ≤ 16384) (x : Word) :
    InRange n x ↔ isFinite x = true ∧ 0 ≤ scaled x ∧ scaled x ≤ n * 2 ^ 149 := by
  refine and_congr_right fun hx => and_congr (fge_zero_iff hx) ?_
  rw [fge_iff_of_isFinite (isFinite_i2f (by omega)) hx, scaled_i2f (by omega)]

/-- The integer part of a value that is at least 0 is its floor (R89). -/
theorem ffloorU_bounds {p : Word} (h : 0 ≤ scaled p) :
    (ffloorU p : Int) * 2 ^ 149 ≤ scaled p ∧ scaled p < (ffloorU p + 1) * 2 ^ 149 := by
  have habs := natAbs_scaled p
  have hdiv := Nat.div_add_mod' (magnitude p) (2 ^ 149)
  have hmod := Nat.mod_lt (magnitude p) (y := 2 ^ 149) (by norm_num)
  rw [ffloorU, unitOne]
  omega

/-- Settles O28: the bounds of the domain as values, and the floor below n + 1. -/
theorem lookupDomainIsZeroToN : Obligations.LookupDomainIsZeroToN := by
  refine fun n p hn => ⟨inDomain_iff hn p, fun hd => ?_⟩
  obtain ⟨-, h0, hlt⟩ := (inDomain_iff hn p).1 hd
  have hfloor := ffloorU_bounds h0
  exact ⟨by omega, hfloor⟩

/-! ### A phase in range stays in range (R114) -/

/-- Rounding is monotone and keeps a finite value, so that it takes a sum between 0 and that value to neither side. -/
theorem fadd_between {a b c : Word} (ha : isFinite a = true) (hb : isFinite b = true) (hc : isFinite c = true)
    (h0 : 0 ≤ scaled a + scaled b) (h1 : scaled a + scaled b ≤ scaled c) :
    isFinite (fadd a b) = true ∧ 0 ≤ scaled (fadd a b) ∧ scaled (fadd a b) ≤ scaled c := by
  have hmag : (magnitude c : Int) = scaled c := by rw [← natAbs_scaled]; omega
  have hbits : roundMagBits (scaled a + scaled b).natAbs 1 ≤ c.toNat % 2 ^ 31 := by
    refine roundMagBits_le_of_le _ _ _ one_pos ((isFinite_iff c).1 hc).le ?_
    rw [mul_one, ← magnitude_eq_bitsValue]
    omega
  rw [fadd_of_isFinite ha hb]
  split
  next => exact ⟨isFinite_zero _, by rw [scaled_zero], by rw [scaled_zero]; omega⟩
  next =>
    rw [roundInt, decide_eq_false (not_lt.2 h0), scaled_roundMag, if_neg Bool.false_ne_true, ← hmag,
      magnitude_eq_bitsValue]
    exact ⟨isFinite_withSign false (hbits.trans_lt ((isFinite_iff c).1 hc)), Int.natCast_nonneg _,
      Int.ofNat_le.2 (bitsValue_strictMono.monotone hbits)⟩

theorem InRange.inDomain {n : Nat} (hn : n ≤ 16384) {p : Word} (hp : InRange n p) : inDomain n p = true := by
  obtain ⟨hf, h0, h1⟩ := (inRange_iff hn p).1 hp
  exact (inDomain_iff hn p).2 ⟨hf, h0, by omega⟩

/-- The sum is at most 2 × n, which is finite; where it is above n, what is above n is at most n. -/
theorem InRange.advance {n : Nat} (hn : n ≤ 16384) {p pinc : Word} (hp : InRange n p) (hi : InRange n pinc) :
    InRange n (advance n p pinc) := by
  obtain ⟨hpf, hp0, hp1⟩ := (inRange_iff hn p).1 hp
  obtain ⟨hif, hi0, hi1⟩ := (inRange_iff hn pinc).1 hi
  have hnf : isFinite (i2f n) = true := isFinite_i2f (by omega)
  have hnv : scaled (i2f n) = n * 2 ^ 149 := scaled_i2f (by omega)
  have h2v : scaled (i2f (2 * n)) = (2 * n : Nat) * 2 ^ 149 := scaled_i2f (by omega)
  obtain ⟨hqf, hq0, hq1⟩ := fadd_between hpf hif (isFinite_i2f (k := 2 * n) (by omega)) (by omega) (by omega)
  rw [inRange_iff hn, Machine.advance]
  split
  next hgt =>
    have hlt := (fgt_iff_of_isFinite hqf hnf).1 hgt
    rw [fsub_of_not_isNaN _ (isNaN_of_isFinite hnf), ← hnv]
    exact fadd_between hqf ((isFinite_neg _).trans hnf) hnf (by rw [scaled_neg]; omega) (by rw [scaled_neg]; omega)
  next hle =>
    rw [fgt_iff_of_isFinite hqf hnf, hnv] at hle
    exact ⟨hqf, hq0, by omega⟩

/-- Settles O29: by the bounds of one addition and of one subtraction. -/
theorem phaseStaysInRange : Obligations.PhaseStaysInRange :=
  fun _ _ _ _ hn hp hi => ⟨hp.inDomain hn, hp.advance hn hi⟩

/-! ### A RENDER over voices in range (R114, R135) -/

/-- The phases and increments of the voice set are in [0, n], and n is no larger than a table can be (R5). -/
structure VoicesInRange (s : State) : Prop where
  n_le : s.n ≤ 16384
  voices : ∀ v, v < s.vc → InRange s.n (s.read .phase v) ∧ InRange s.n (s.read .pinc v)

theorem VoicesInRange.write_phase {s : State} (h : VoicesInRange s) (v : Nat) {p : Word} (hp : InRange s.n p) :
    VoicesInRange (s.write .phase v p) := by
  refine ⟨h.n_le, fun u hu => ?_⟩
  obtain ⟨hphase, hpinc⟩ := h.voices u hu
  rw [State.write_n, State.read_write_other s .phase .pinc v u p (by simp)]
  refine ⟨?_, hpinc⟩
  obtain rfl | hne := eq_or_ne u v
  · rwa [State.read_write_same]
  · rwa [State.read_write_other s .phase .phase v u p (by simp [hne])]

theorem VoicesInRange.mixInto {s : State} (h : VoicesInRange s) (f : Nat) (m : Word) : VoicesInRange (mixInto s f m) := by
  refine ⟨h.n_le, fun u hu => ?_⟩
  rw [mixInto_n, read_mixInto, read_mixInto, if_neg (by simp), if_neg (by simp)]
  exact h.voices u hu

theorem VoicesInRange.complete {s : State} (h : VoicesInRange s) : VoicesInRange s.complete :=
  ⟨h.n_le, h.voices⟩

theorem VoicesInRange.renderVoices (f : Nat) {count v : Nat} {s : State} (h : VoicesInRange s) (hv : v + count ≤ s.vc) :
    ∃ t, renderVoices f count v s = .done t ∧ VoicesInRange t := by
  induction count generalizing v s with
  | zero => exact ⟨s, rfl, h⟩
  | succ count ih =>
    obtain ⟨hphase, hpinc⟩ := h.voices v (by omega)
    rw [Machine.renderVoices, nextSample_eq, if_pos (hphase.inDomain h.n_le)]
    exact ih ((h.write_phase v (hphase.advance h.n_le hpinc)).mixInto f _) (by rw [mixInto_vc, State.write_vc]; omega)

theorem VoicesInRange.renderFrames {count f : Nat} {s : State} (h : VoicesInRange s) :
    ∃ t, renderFrames count f s = .done t ∧ VoicesInRange t := by
  induction count generalizing f s with
  | zero => exact ⟨s, rfl, h⟩
  | succ count ih =>
    obtain ⟨t, hdone, ht⟩ := h.renderVoices f (Nat.zero_add s.vc).le
    rw [Machine.renderFrames, hdone]
    exact ih ht

theorem exec_render_done {s t : State} {k : Nat} (hr : s.ready = true) (hk : k ≤ s.caps.maxF)
    (h : renderBlock s k = .done t) : exec (.render k) s = .next t.complete := by
  simp [exec, execRender, hr, not_lt.2 hk, h]

/-- Settles O34: every sample of the block is made in range, by induction on the voices of a frame and on the frames. -/
theorem renderOfVoicesInRangeNeverFaults : Obligations.RenderOfVoicesInRangeNeverFaults := by
  intro s k hr hk _ hn hvoices
  obtain ⟨t, hdone, ht⟩ := VoicesInRange.renderFrames (count := k) (f := 0) ⟨hn, hvoices⟩
  have hfault := renderBlock_fault s k
  rw [renderBlock, hdone] at hfault
  exact ⟨t.complete, exec_render_done hr hk hdone, hfault, ht.complete.voices⟩

/-! ### SETFREQ (R116, R118) -/

theorem sameStatusAndHost_refl (s : State) : SameStatusAndHost s s := ⟨rfl, rfl, rfl, rfl, rfl, rfl, rfl⟩

theorem exec_setfreq_ready {s : State} {v : Nat} (hr : s.ready = true) (hv : v < s.vc) :
    exec (.setfreq v) s = .next (setFrequency s v s.operands.freq s.operands.sampleRate).complete := by
  simp [exec, execSetfreq, hr, not_le.2 hv]

/-- Settles O25: the increment is the one word written. -/
theorem setfreqWritesTheIncrement : Obligations.SetfreqWritesTheIncrement := by
  intro s v hr hv
  refine ⟨_, exec_setfreq_ready hr hv, State.read_write_same s .pinc v _, rfl, fun sp i hne => ?_, rfl, rfl, rfl, rfl, rfl,
    rfl, sameStatusAndHost_refl s⟩
  exact State.read_write_other s .pinc sp v i _ hne

theorem Mem.set_set_same (m : Mem) (i : Nat) (x w : Word) : (m.set i x).set i w = m.set i w := by
  induction m with
  | nil => simp [Mem.set]
  | cons c rest ih =>
    obtain ⟨k, y⟩ := c
    simp only [Mem.set]
    split_ifs with hk hlt
    · simp [Mem.set]
    · simp [Mem.set]
    · simp [Mem.set, hk, hlt, ih]

theorem State.write_write_same (s : State) (sp : Space) (i : Nat) (x w : Word) :
    (s.write sp i x).write sp i w = s.write sp i w := by
  cases sp <;> simp [State.write, State.setMem, State.mem, Mem.set_set_same]

theorem setFrequency_setFrequency (s : State) (v : Nat) (f sr f' sr' : Word) :
    setFrequency (setFrequency s v f' sr') v f sr = setFrequency s v f sr :=
  State.write_write_same s .pinc v _ _

@[simp] theorem setFrequency_operands (s : State) (v : Nat) (f sr : Word) :
    (setFrequency s v f sr).operands = s.operands := rfl

/-- Settles O26: the second write puts the same word where the first did. -/
theorem setfreqTwiceIsSetfreqOnce : Obligations.SetfreqTwiceIsSetfreqOnce := by
  intro s t v hr hv h
  rw [exec_setfreq_ready hr hv] at h
  injection h with h
  subst h
  have hagain : exec (.setfreq v) (setFrequency s v s.operands.freq s.operands.sampleRate) = _ :=
    exec_setfreq_ready hr hv
  rw [setFrequency_operands, setFrequency_setFrequency] at hagain
  exact hagain

/-! ### NEXT (R110, R112, R113, R119) -/

theorem lookup_inside {s : State} {i : Nat} (h : i + 2 ≤ s.n) : lookup s i = (s.read .table i, s.read .table (i + 1)) :=
  if_pos h

theorem lookup_last {s : State} {i : Nat} (h : i + 1 = s.n) :
    lookup s i = (s.read .table (s.n - 1), s.read .table 0) := by
  rw [lookup, if_neg (by omega), if_pos h]

theorem lookup_wrapped {s : State} {i : Nat} (h : s.n ≤ i) : lookup s i = (s.read .table 0, s.read .table 1) := by
  rw [lookup, if_neg (by omega), if_neg (by omega)]

theorem advance_of_fgt {n : Nat} {p pinc : Word} (h : fgt (fadd p pinc) (i2f n) = true) :
    advance n p pinc = fsub (fadd p pinc) (i2f n) := if_pos h

theorem advance_of_not_fgt {n : Nat} {p pinc : Word} (h : fgt (fadd p pinc) (i2f n) = false) :
    advance n p pinc = fadd p pinc := if_neg (by simp [h])

/-- Settles O27: the cases of the lookup and of the wrap, one lemma each. -/
theorem nextProducesOneSample : Obligations.NextProducesOneSample := by
  intro s v hr hv hd
  have hphase := State.read_write_same s .phase v (advance s.n (s.read .phase v) (s.read .pinc v))
  refine ⟨_, (lookup s (ffloorU (s.read .phase v))).1, (lookup s (ffloorU (s.read .phase v))).2, _,
    exec_next_inDomain hr hv hd, fun h => ?_, fun h => ?_, fun h => ?_, rfl, rfl, fun h => ?_, fun h => ?_, rfl,
    fun sp i hne => ?_, rfl, rfl, rfl, rfl, rfl, sameStatusAndHost_refl s⟩
  · rw [lookup_inside h]; exact ⟨rfl, rfl⟩
  · rw [lookup_last h]; exact ⟨rfl, rfl⟩
  · rw [lookup_wrapped h]; exact ⟨rfl, rfl⟩
  · exact hphase.trans (advance_of_fgt h)
  · exact hphase.trans (advance_of_not_fgt h)
  · exact State.read_write_other s .phase sp v i _ hne

/-! ### A phase of exactly n (R114) -/

theorem ffloorU_i2f {k : Nat} (h : k ≤ 2 ^ 24) : ffloorU (i2f k) = k := by
  have hv := scaled_i2f h
  have hb := ffloorU_bounds (p := i2f k) (by omega)
  omega

theorem zero_fmul_of_isFinite {a : Word} (ha : isFinite a = true) : fmul 0x00000000 a = zero (signBit a) := by
  have hf : isFinite 0x00000000 = true := isFinite_zero false
  have h0 : magnitude 0x00000000 = 0 := by decide
  have hs : signBit 0x00000000 = false := by decide
  rw [fmul_of_isFinite hf ha, h0, Nat.zero_mul, roundMag, roundMagBits_zero unitOne_pos, hs,
    Bool.false_bne, zero]

theorem isFinite_fsub_zero {a : Word} (ha : isFinite a = true) : isFinite (fsub a 0x00000000) = true := by
  have hf : isFinite 0x00000000 = true := isFinite_zero false
  have h0 : scaled 0x00000000 = 0 := scaled_zero false
  refine (fsub_exact ha hf ?_).1
  rw [h0, sub_zero, natAbs_scaled]
  exact representable_magnitude ha

/-- At a phase that is an integer a sample is the entry found there, where that is +0 and its neighbour is finite. -/
theorem interpolate_integer_phase {k : Nat} (hk : k ≤ 2 ^ 24) {a1 : Word} (h1 : isFinite a1 = true) :
    interpolate (i2f k) k 0x00000000 a1 = 0x00000000 := by
  rw [interpolate, fsub_self (isFinite_i2f hk), zero_fmul_of_isFinite (isFinite_fsub_zero h1)]
  cases signBit (fsub a1 0x00000000) <;> decide

/-- Settles O30: a phase of n is not above n, and its lookup is the wrapped one. -/
theorem phaseExactlyNSoundsSilent : Obligations.PhaseExactlyNSoundsSilent := by
  intro n _ hn
  have hf : isFinite (i2f n) = true := isFinite_i2f (by omega)
  have hv : scaled (i2f n) = n * 2 ^ 149 := scaled_i2f (by omega)
  have hfloor : ffloorU (i2f n) = n := ffloorU_i2f (by omega)
  refine ⟨fun p pinc hq => ?_, (inDomain_iff hn _).2 ⟨hf, by omega, by omega⟩, hfloor, fun s hs h0 h1 => ?_⟩
  · rw [← hq]
    refine advance_of_not_fgt ?_
    rw [hq, fgt_of_not_isNaN (isNaN_of_isFinite hf) (isNaN_of_isFinite hf), decide_eq_false (lt_irrefl _)]
  · rw [sampleAt, hfloor, lookup_wrapped hs.le, h0]
    exact interpolate_integer_phase (by omega) h1

end Sys2Proof.Machine
end

section
/-! PROOFS. The tuning formula (spec/43_mixer.md R131 to R133): Tune is bounded and monotone (O58) and follows equal
temperament (O59), by the exponential's Taylor series and bounds of the model's ln 2; and the increments it gives at a sample
rate of at least 2048 are inside (0, n) (O39). -/

namespace Sys2Proof.Machine

/-! ### The exponential's Taylor series -/

theorem expTail_succ_fst (a b last j : ℕ) :
    (expTail a b last (j + 1)).1 = (last - j) * b * (expTail a b last j).2 + a * (expTail a b last j).1 := rfl

theorem expTail_succ_snd (a b last j : ℕ) :
    (expTail a b last (j + 1)).2 = (last - j) * b * (expTail a b last j).2 := rfl

/-- The whole tail at x = a / b: the Taylor polynomial up to the term of number `last`. -/
noncomputable def expPoly (a b last : ℕ) : ℝ := (expTail a b last last).1 / (expTail a b last last).2

section
variable {a b last j : ℕ} (hb : 0 < b)
include hb

theorem expTail_snd_pos (hj : j ≤ last) : 0 < (expTail a b last j).2 := by
  induction j with
  | zero => exact one_pos
  | succ j ih =>
    have hlast : 0 < last - j := by omega
    exact Nat.mul_pos (Nat.mul_pos hlast hb) (ih (by omega))

/-- A tail stands, against the term it follows, for the terms of the series from there up to the last. -/
theorem pow_div_factorial_mul_expTail (hj : j ≤ last) :
    (a / b : ℝ) ^ (last - j) / (last - j).factorial * ((expTail a b last j).1 / (expTail a b last j).2) =
      ∑ n ∈ Finset.Ico (last - j) (last + 1), (a / b : ℝ) ^ n / n.factorial := by
  induction j with
  | zero => simp [expTail]
  | succ j ih =>
    obtain ⟨i, hi⟩ : ∃ i, last - j = i + 1 := ⟨last - j - 1, by omega⟩
    have hpos : ((expTail a b last j).2 : ℝ) ≠ 0 := by exact_mod_cast (expTail_snd_pos hb (by omega)).ne'
    have hbR : (b : ℝ) ≠ 0 := by exact_mod_cast hb.ne'
    rw [show last - (j + 1) = i by omega, Finset.sum_eq_sum_Ico_succ_bot (by omega), ← hi, ← ih (by omega),
      expTail_succ_fst, expTail_succ_snd, hi, Nat.factorial_succ, pow_succ]
    push_cast
    field_simp

theorem expPoly_eq_sum (last : ℕ) :
    expPoly a b last = ∑ n ∈ Finset.range (last + 1), (a / b : ℝ) ^ n / n.factorial := by
  have h := pow_div_factorial_mul_expTail (a := a) hb (le_refl last)
  rwa [Nat.sub_self, pow_zero, Nat.factorial_zero, Nat.cast_one, div_one, one_mul, ← Finset.range_eq_Ico] at h

/-- Every term that is left out is positive. -/
theorem expPoly_le_exp (last : ℕ) : expPoly a b last ≤ Real.exp (a / b) := by
  rw [expPoly_eq_sum hb]
  exact Real.sum_le_exp_of_nonneg (by positivity) _

theorem one_le_expPoly (last : ℕ) : 1 ≤ expPoly a b last := by
  rw [expPoly_eq_sum hb, Finset.sum_range_succ']
  simp only [pow_zero, Nat.factorial_zero, Nat.cast_one, div_one, le_add_iff_nonneg_left]
  exact Finset.sum_nonneg fun _ _ => by positivity

theorem expPoly_mono {a' : ℕ} (h : a ≤ a') (last : ℕ) : expPoly a b last ≤ expPoly a' b last := by
  rw [expPoly_eq_sum hb, expPoly_eq_sum hb]
  gcongr

/-- Up to 1 the polynomial is off by less than twice the largest that its first term left out can be. -/
theorem exp_le_expPoly (ha : a ≤ b) (last : ℕ) :
    Real.exp (a / b) ≤ expPoly a b last + 2 / (last + 1).factorial := by
  have h0 : (0 : ℝ) ≤ a / b := by positivity
  have h1 : (a / b : ℝ) ≤ 1 := div_le_one_of_le₀ (by exact_mod_cast ha) (by positivity)
  refine (Real.exp_bound' h0 h1 (Nat.succ_pos last)).trans ?_
  rw [expPoly_eq_sum hb]
  refine add_le_add_right ?_ _
  have hpow : (a / b : ℝ) ^ (last + 1) ≤ 1 := pow_le_one₀ h0 h1
  rw [Nat.succ_eq_add_one, div_le_div_iff₀ (by positivity) (by positivity)]
  calc (a / b : ℝ) ^ (last + 1) * ((last + 1 : ℕ) + 1) * (last + 1).factorial
      ≤ 1 * (2 * (last + 1 : ℕ)) * (last + 1).factorial := by
        gcongr
        push_cast
        linarith [Nat.cast_nonneg (α := ℝ) last]
    _ = 2 * ((last + 1).factorial * (last + 1 : ℕ)) := by ring

end

/-! ### The model's ln 2 -/

/-- The model's ln 2 is ln 2 rounded down to its unit. -/
theorem ln2Num_bounds : (ln2Num / constUnit : ℝ) ≤ Real.log 2 ∧ Real.log 2 ≤ (ln2Num + 1 : ℕ) / constUnit := by
  have hb : 0 < constUnit := by decide +kernel
  constructor
  · rw [Real.le_log_iff_exp_le two_pos]
    refine (exp_le_expPoly hb (by decide +kernel) 40).trans ?_
    have hden := expTail_snd_pos (a := ln2Num) hb (le_refl 40)
    rw [expPoly, div_add_div _ _ (by exact_mod_cast hden.ne') (by positivity), div_le_iff₀ (by positivity)]
    exact_mod_cast (by decide +kernel)
  · rw [Real.log_le_iff_le_exp two_pos]
    refine le_trans ?_ (expPoly_le_exp hb 40)
    rw [expPoly, le_div_iff₀ (by exact_mod_cast expTail_snd_pos hb le_rfl)]
    exact_mod_cast (by decide +kernel)

/-! ### The notes (R131) -/

theorem scaled_of_toNat_lt {w : Word} (h : w.toNat < 2 ^ 31) : scaled w = bitsValue w.toNat := by
  rw [scaled, signBit_eq, decide_eq_false (by omega), if_neg Bool.false_ne_true, magnitude_eq_bitsValue,
    Nat.mod_eq_of_lt h]

theorem toNat_lt_of_scaled_pos {w : Word} (h : 0 < scaled w) : w.toNat < 2 ^ 31 := by
  by_contra hge
  rw [scaled, signBit_eq, decide_eq_true (by omega), if_pos rfl] at h
  omega

theorem isFinite_of_toNat_lt {w : Word} (h : w.toNat < 0x7F800000) : isFinite w = true :=
  (isFinite_iff w).2 (by omega)

theorem fgt_iff (a b : Word) : fgt a b = true ↔ isNaN a = false ∧ isNaN b = false ∧ scaled b < scaled a := by
  simp [fgt, and_assoc]

/-- NOTES is a run of consecutive patterns. -/
theorem isNote_iff (x : Word) : IsNote x ↔ 0x42400000 ≤ x.toNat ∧ x.toNat < 0x42A80000 := by
  have hlo : scaled 0x42400000 = bitsValue 0x42400000 := scaled_of_toNat_lt (by decide)
  have hhi : scaled 0x42A80000 = bitsValue 0x42A80000 := scaled_of_toNat_lt (by decide)
  have hmono := bitsValue_strictMono
  have hflo : isFinite 0x42400000 = true := by decide
  have hfhi : isFinite 0x42A80000 = true := by decide
  constructor
  · rintro ⟨h1, h2⟩
    obtain ⟨-, -, h1⟩ := (fge_iff _ _).1 h1
    obtain ⟨-, -, h2⟩ := (fgt_iff _ _).1 h2
    have hlt : x.toNat < 2 ^ 31 := toNat_lt_of_scaled_pos (lt_of_lt_of_le (by decide +kernel) h1)
    rw [scaled_of_toNat_lt hlt] at h1 h2
    rw [hlo] at h1
    rw [hhi] at h2
    exact ⟨hmono.le_iff_le.1 (by exact_mod_cast h1), hmono.lt_iff_lt.1 (by exact_mod_cast h2)⟩
  · rintro ⟨h1, h2⟩
    have hf : isFinite x = true := isFinite_of_toNat_lt (by omega)
    have hx := scaled_of_toNat_lt (w := x) (by omega)
    rw [IsNote, flt, fge_iff_of_isFinite hf hflo, fgt_iff_of_isFinite hfhi hf, hx, hlo, hhi]
    exact ⟨by exact_mod_cast hmono.monotone h1, by exact_mod_cast hmono h2⟩

/-- What NOTEGEN delivers is a note. -/
theorem isNote_note (k : ℕ) : IsNote (note k) := by
  have hmod := Nat.mod_lt (Config.noteDraw k) (y := 0x680000) (by norm_num)
  rw [isNote_iff, note, BitVec.toNat_ofNat, Nat.mod_eq_of_lt (by omega)]
  omega

/-- The notes are multiples of 2^-18, and lie from 48 up to, and without, 84. -/
theorem IsNote.noteUnits_bounds {x : Word} (h : IsNote x) :
    scaled x = noteUnits x * 2 ^ 131 ∧ 48 * 2 ^ 18 ≤ noteUnits x ∧ noteUnits x ≤ 84 * 2 ^ 18 := by
  obtain ⟨h1, h2⟩ := (isNote_iff x).1 h
  have hlo : 48 * 2 ^ 18 * 2 ^ 131 ≤ bitsValue x.toNat :=
    le_trans (by decide +kernel) (bitsValue_strictMono.monotone h1)
  have hhi : bitsValue x.toNat ≤ 84 * 2 ^ 18 * 2 ^ 131 :=
    le_trans (bitsValue_strictMono.monotone h2.le) (by decide +kernel)
  have hmag : magnitude x = bitsValue x.toNat := by
    rw [magnitude_eq_bitsValue, Nat.mod_eq_of_lt (by omega)]
  have hdvd : 2 ^ 131 ∣ bitsValue x.toNat := pow_dvd_bitsValue (le_trans (by decide +kernel) hlo)
  rw [scaled_of_toNat_lt (by omega), noteUnits, hmag]
  refine ⟨?_, (Nat.le_div_iff_mul_le (by positivity)).2 hlo, Nat.div_le_of_le_mul (by rwa [Nat.mul_comm])⟩
  exact_mod_cast (Nat.div_mul_cancel hdvd).symm

/-! ### Tune as a function of the position above 45 (R132) -/

/-- An octave in the units of `noteUnits`. -/
def octave : ℕ := 12 * 2 ^ 18

/-- The position of a note above 45, in the units of `noteUnits`. -/
def notePos (x : Word) : ℕ := noteUnits x - 45 * 2 ^ 18

/-- The exponential's tail of a position inside its octave. -/
def tuneTail (y : ℕ) : ℕ × ℕ := expTail (ln2Num * (y % octave)) (constUnit * octave) expSteps expSteps

/-- The frequency at a position, in units of 2^-149, is this over the tail's denominator. -/
def tuneNum (y : ℕ) : ℕ := 110 * 2 ^ (y / octave) * (tuneTail y).1 * unitOne

/-- The magnitude bits of the frequency at a position. -/
def tuneBits (y : ℕ) : ℕ := roundMagBits (tuneNum y) (tuneTail y).2

theorem tune_eq (x : Word) : tune x = roundMag false (tuneNum (notePos x)) (tuneTail (notePos x)).2 := rfl

/-- The frequency at a position before it is rounded. -/
noncomputable def tuneValue (y : ℕ) : ℝ :=
  110 * 2 ^ (y / octave) * expPoly (ln2Num * (y % octave)) (constUnit * octave) expSteps

theorem octave_pos : 0 < octave := by decide

theorem tuneArg_pos : 0 < constUnit * octave := by decide +kernel

theorem tuneTail_snd_pos (y : ℕ) : 0 < (tuneTail y).2 := expTail_snd_pos tuneArg_pos le_rfl

theorem tuneNum_div (y : ℕ) : (tuneNum y : ℝ) / (tuneTail y).2 = 2 ^ 149 * tuneValue y := by
  rw [tuneNum, tuneValue, expPoly, unitOne, tuneTail]
  push_cast
  ring

/-- Inside an octave the polynomial is at most 2, because the model's ln 2 is no more than ln 2. -/
theorem expPoly_octave_le_two {r : ℕ} (h : r ≤ octave) : expPoly (ln2Num * r) (constUnit * octave) expSteps ≤ 2 := by
  refine (expPoly_mono tuneArg_pos (Nat.mul_le_mul_left ln2Num h) _).trans ((expPoly_le_exp tuneArg_pos _).trans ?_)
  rw [← Real.le_log_iff_exp_le two_pos, Nat.cast_mul, Nat.cast_mul,
    mul_div_mul_right _ _ (by exact_mod_cast octave_pos.ne')]
  exact ln2Num_bounds.1

/-- Inside an octave the polynomial rises, and the next octave begins at twice the power of two. -/
theorem tuneValue_monotone : Monotone tuneValue := by
  intro y z h
  unfold tuneValue
  obtain heq | hlt := (Nat.div_le_div_right (c := octave) h).eq_or_lt
  · have hmod : y % octave ≤ z % octave := by
      have hy := Nat.div_add_mod y octave
      have hz := Nat.div_add_mod z octave
      rw [heq] at hy
      omega
    rw [heq]
    exact mul_le_mul_of_nonneg_left (expPoly_mono tuneArg_pos (Nat.mul_le_mul_left _ hmod) _) (by positivity)
  · have htwo := expPoly_octave_le_two (Nat.mod_lt y octave_pos).le
    have hone := one_le_expPoly (a := ln2Num * (z % octave)) tuneArg_pos expSteps
    calc _ ≤ 110 * 2 ^ (y / octave) * (2 : ℝ) := by gcongr
      _ = 110 * 2 ^ (y / octave + 1) * 1 := by ring
      _ ≤ _ := by
        gcongr
        · exact one_le_two
        · exact hlt

theorem tuneBits_monotone : Monotone tuneBits := by
  intro y z h
  have hy : (0 : ℝ) < (tuneTail y).2 := by exact_mod_cast tuneTail_snd_pos y
  have hz : (0 : ℝ) < (tuneTail z).2 := by exact_mod_cast tuneTail_snd_pos z
  have hval := mul_le_mul_of_nonneg_left (tuneValue_monotone h) (by positivity : (0 : ℝ) ≤ 2 ^ 149)
  rw [← tuneNum_div, ← tuneNum_div, div_le_div_iff₀ hy hz] at hval
  exact roundMagBits_mono _ _ _ _ (tuneTail_snd_pos y) (tuneTail_snd_pos z) (by exact_mod_cast hval)

theorem tuneBits_lowest : tuneBits (3 * 2 ^ 18) = 0x4302D013 := by decide +kernel

theorem tuneBits_highest : tuneBits (39 * 2 ^ 18) = 0x4482D013 := by decide +kernel

theorem IsNote.notePos_bounds {x : Word} (h : IsNote x) : 3 * 2 ^ 18 ≤ notePos x ∧ notePos x ≤ 39 * 2 ^ 18 := by
  obtain ⟨-, h1, h2⟩ := h.noteUnits_bounds
  unfold notePos
  omega

/-- The least and the greatest frequency are those of the ends of NOTES. -/
theorem IsNote.tuneBits_bounds {x : Word} (h : IsNote x) :
    0x4302D013 ≤ tuneBits (notePos x) ∧ tuneBits (notePos x) ≤ 0x4482D013 := by
  obtain ⟨h1, h2⟩ := h.notePos_bounds
  exact ⟨tuneBits_lowest ▸ tuneBits_monotone h1, tuneBits_highest ▸ tuneBits_monotone h2⟩

theorem scaled_tune (x : Word) : scaled (tune x) = bitsValue (tuneBits (notePos x)) := by
  rw [tune_eq, scaled_roundMag, if_neg Bool.false_ne_true, tuneBits]

theorem IsNote.isFinite_tune {x : Word} (h : IsNote x) : isFinite (tune x) = true := by
  obtain ⟨-, h2⟩ := h.tuneBits_bounds
  exact isFinite_withSign false (h2.trans_lt (by decide))

theorem IsNote.scaled_tune_bounds {x : Word} (h : IsNote x) :
    scaled 0x4302D013 ≤ scaled (tune x) ∧ scaled (tune x) ≤ scaled 0x4482D013 := by
  obtain ⟨h1, h2⟩ := h.tuneBits_bounds
  rw [scaled_tune, scaled_of_toNat_lt (w := 0x4302D013) (by decide), scaled_of_toNat_lt (w := 0x4482D013) (by decide)]
  exact ⟨Int.ofNat_le.2 (bitsValue_strictMono.monotone h1), Int.ofNat_le.2 (bitsValue_strictMono.monotone h2)⟩

theorem notePos_mono {x y : Word} (hx : IsNote x) (hy : IsNote y) (h : scaled x ≤ scaled y) : notePos x ≤ notePos y := by
  rw [hx.noteUnits_bounds.1, hy.noteUnits_bounds.1] at h
  unfold notePos
  omega

/-- Settles O58: Tune is a monotone rounding of a monotone value, evaluated at both ends of NOTES. -/
theorem tuneIsBoundedAndMonotone : Obligations.TuneIsBoundedAndMonotone := by
  refine ⟨fun x hx => ?_, fun x y hx hy hge => ?_⟩
  · obtain ⟨hlo, hhi⟩ := hx.scaled_tune_bounds
    rw [fge_iff_of_isFinite hx.isFinite_tune (by decide), fge_iff_of_isFinite (by decide) hx.isFinite_tune]
    exact ⟨hx.isFinite_tune, hlo, hhi⟩
  · obtain ⟨-, -, hle⟩ := (fge_iff _ _).1 hge
    rw [fge_iff_of_isFinite hy.isFinite_tune hx.isFinite_tune, scaled_tune, scaled_tune]
    exact Int.ofNat_le.2 (bitsValue_strictMono.monotone (tuneBits_monotone (notePos_mono hx hy hle)))

/-! ### Tune against equal temperament (R132) -/

/-- A rational that is within 2^-90 of itself of a real number rounds to within half a spacing and 2^-60 of it. -/
theorem abs_scaled_roundMag_sub_le {num den : ℕ} {z : ℝ} (h : 0 < den) (ho : num < (2 ^ 277 - 2 ^ 252) * den)
    (hnear : |(num / den : ℝ) - z| ≤ (num / den : ℝ) / 2 ^ 90) :
    |(scaled (roundMag false num den) : ℝ) - z| ≤ (spacing (roundMag false num den) : ℝ) * (1 / 2 + 1 / 2 ^ 60) := by
  have hspace : (2 ^ spacingLog num den : ℝ) ≤ spacing (roundMag false num den) := by
    exact_mod_cast pow_spacingLog_le_spacing false h ho
  have hlt : (num / den : ℝ) ≤ 2 ^ 24 * 2 ^ spacingLog num den :=
    (div_le_iff₀ (by exact_mod_cast h)).2 (by exact_mod_cast (lt_pow_spacingLog h).le)
  have hround := bitsValue_unboundedBits_near (num := num) h
  rw [scaled_roundMag, if_neg Bool.false_ne_true, Int.cast_natCast, roundMagBits_of_not_overflow h ho]
  refine (abs_sub_le _ _ _).trans ((add_le_add hround hnear).trans ?_)
  norm_num at *
  linarith

/-- The exponential rises by no more than its upper value times the distance. -/
theorem exp_sub_exp_le (u v : ℝ) : Real.exp u - Real.exp v ≤ Real.exp u * (u - v) := by
  have h := mul_le_mul_of_nonneg_left (Real.add_one_le_exp (v - u)) (Real.exp_pos u).le
  rw [← Real.exp_add, add_sub_cancel] at h
  linarith

section
variable {r : ℕ} (h : r ≤ octave)
include h

/-- The model's ln 2 puts the argument below its real value, by at most 2^-128. -/
theorem tuneArg_near :
    ((ln2Num * r : ℕ) / (constUnit * octave : ℕ) : ℝ) ≤ Real.log 2 * (r / octave) ∧
    Real.log 2 * (r / octave) - ((ln2Num * r : ℕ) / (constUnit * octave : ℕ) : ℝ) ≤ 1 / 2 ^ 128 := by
  obtain ⟨hlo, hhi⟩ := ln2Num_bounds
  have hr0 : (0 : ℝ) ≤ r / octave := by positivity
  have hr1 : (r / octave : ℝ) ≤ 1 := div_le_one_of_le₀ (by exact_mod_cast h) (by positivity)
  have hx : ((ln2Num * r : ℕ) / (constUnit * octave : ℕ) : ℝ) = ln2Num / constUnit * (r / octave) := by
    rw [div_mul_div_comm]
    push_cast
    rfl
  have hunit : ((ln2Num + 1 : ℕ) : ℝ) / constUnit = ln2Num / constUnit + 1 / 2 ^ 128 := by
    rw [constUnit]
    push_cast
    ring
  rw [hunit] at hhi
  rw [hx, ← sub_mul]
  refine ⟨mul_le_mul_of_nonneg_right hlo hr0, ?_⟩
  calc _ ≤ (1 / 2 ^ 128 : ℝ) * 1 := mul_le_mul (by linarith) hr1 hr0 (by positivity)
    _ = _ := mul_one _

theorem abs_expPoly_sub_rpow_le :
    |expPoly (ln2Num * r) (constUnit * octave) expSteps - (2 : ℝ) ^ (r / octave : ℝ)| ≤ 1 / 2 ^ 90 := by
  obtain ⟨harg, hdist⟩ := tuneArg_near h
  have hle : ln2Num * r ≤ constUnit * octave := Nat.mul_le_mul (by decide +kernel) h
  have hpoly := expPoly_le_exp (a := ln2Num * r) tuneArg_pos expSteps
  have hrest := exp_le_expPoly tuneArg_pos hle expSteps
  have hfac : (2 : ℝ) / (expSteps + 1).factorial ≤ 1 / 2 ^ 91 := by
    rw [div_le_div_iff₀ (by positivity) (by positivity)]
    exact_mod_cast (by decide +kernel)
  have htwo : (2 : ℝ) ^ (r / octave : ℝ) ≤ 2 := by
    calc (2 : ℝ) ^ (r / octave : ℝ) ≤ 2 ^ (1 : ℝ) := Real.rpow_le_rpow_of_exponent_le one_le_two
          (div_le_one_of_le₀ (by exact_mod_cast h) (by positivity))
      _ = 2 := Real.rpow_one 2
  have hrise := (exp_sub_exp_le _ _).trans (mul_le_mul_of_nonneg_left hdist (Real.exp_pos _).le)
  have hmono := Real.exp_le_exp.2 harg
  rw [← Real.rpow_def_of_pos two_pos] at hrise hmono
  rw [abs_le]
  norm_num at *
  constructor <;> linarith

end

theorem abs_tuneValue_sub_le (y : ℕ) :
    |tuneValue y - 110 * (2 : ℝ) ^ (y / octave : ℝ)| ≤ tuneValue y / 2 ^ 90 := by
  have hone := one_le_expPoly (a := ln2Num * (y % octave)) tuneArg_pos expSteps
  have hnear := abs_expPoly_sub_rpow_le (Nat.mod_lt y octave_pos).le
  have hpow : (2 : ℝ) ^ (y / octave : ℝ) = 2 ^ (y / octave) * (2 : ℝ) ^ ((y % octave : ℕ) / octave : ℝ) := by
    have hoct : (octave : ℝ) ≠ 0 := by exact_mod_cast octave_pos.ne'
    have hy : (y : ℝ) = octave * (y / octave : ℕ) + (y % octave : ℕ) := by exact_mod_cast (Nat.div_add_mod y octave).symm
    rw [← Real.rpow_natCast, ← Real.rpow_add two_pos]
    congr 1
    rw [hy]
    field_simp
  rw [tuneValue, hpow, ← mul_assoc, ← mul_sub, abs_mul, abs_of_pos (by positivity), mul_div_assoc]
  refine mul_le_mul_of_nonneg_left (hnear.trans ?_) (by positivity)
  gcongr

/-- The tuning formula in terms of the position above 45. -/
theorem IsNote.temperament_eq {x : Word} (h : IsNote x) :
    440 * (2 : ℝ) ^ (((scaled x : ℝ) / 2 ^ 149 - 69) / 12) = 110 * (2 : ℝ) ^ (notePos x / octave : ℝ) := by
  obtain ⟨hx, hlo, -⟩ := h.noteUnits_bounds
  have hpos : notePos x + 45 * 2 ^ 18 = noteUnits x := by
    unfold notePos
    omega
  have hexp : ((scaled x : ℝ) / 2 ^ 149 - 69) / 12 = notePos x / octave - 2 := by
    rw [hx, octave, ← hpos]
    push_cast
    ring
  rw [hexp, Real.rpow_sub two_pos, Real.rpow_two]
  ring

/-- Settles O59: polynomial and ln 2 together are off by at most 2^-90, and the rounding by half a spacing. -/
theorem tuneFollowsEqualTemperament : Obligations.TuneFollowsEqualTemperament := by
  intro x hx
  have hden := tuneTail_snd_pos (notePos x)
  have ho : tuneNum (notePos x) < (2 ^ 277 - 2 ^ 252) * (tuneTail (notePos x)).2 := by
    by_contra hge
    have hbits := hx.tuneBits_bounds.2
    rw [tuneBits, roundMagBits_of_overflow hden (not_lt.1 hge)] at hbits
    exact absurd hbits (by decide)
  rw [hx.temperament_eq, tune_eq]
  refine abs_scaled_roundMag_sub_le hden ho ?_
  rw [tuneNum_div, ← mul_sub, abs_mul, abs_of_pos (by positivity), mul_div_assoc]
  exact mul_le_mul_of_nonneg_left (abs_tuneValue_sub_le _) (by positivity)

/-! ### The increments of notes (R133) -/

theorem Representable.exists_bits {x : ℕ} (h : Representable x) : ∃ m < 0x7F800000, bitsValue m = x := by
  obtain ⟨s, e, hs, he, rfl⟩ := h
  exact exists_bitsValue_eq hs he

/-- Rounding takes a number between two representable ones to neither side. -/
theorem roundMag_between {lo hi num den : ℕ} (h : 0 < den) (hlo : Representable lo) (hhi : Representable hi)
    (h1 : lo * den ≤ num) (h2 : num ≤ hi * den) :
    isFinite (roundMag false num den) = true ∧ (lo : ℤ) ≤ scaled (roundMag false num den) ∧
      scaled (roundMag false num den) ≤ hi := by
  obtain ⟨l, hl, rfl⟩ := hlo.exists_bits
  obtain ⟨u, hu, rfl⟩ := hhi.exists_bits
  have hle := roundMagBits_le_of_le num den u h hu.le h2
  rw [scaled_roundMag, if_neg Bool.false_ne_true]
  exact ⟨isFinite_withSign false (hle.trans_lt hu),
    Int.ofNat_le.2 (bitsValue_strictMono.monotone (le_roundMagBits_of_le num den l h hl.le h1)),
    Int.ofNat_le.2 (bitsValue_strictMono.monotone hle)⟩

theorem signBit_of_scaled_pos {w : Word} (h : 0 < scaled w) : signBit w = false := by
  rw [signBit_eq, decide_eq_false (not_le.2 (toNat_lt_of_scaled_pos h))]

section
variable {a b : Word} (ha : isFinite a = true) (hb : isFinite b = true) (ha0 : 0 < scaled a) (hb0 : 0 < scaled b)
  {lo hi : ℕ} (hlo : Representable lo) (hhi : Representable hi)
include ha hb ha0 hb0 hlo hhi

theorem fmul_between (h1 : lo * 2 ^ 149 ≤ magnitude a * magnitude b) (h2 : magnitude a * magnitude b ≤ hi * 2 ^ 149) :
    isFinite (fmul a b) = true ∧ lo ≤ scaled (fmul a b) ∧ scaled (fmul a b) ≤ hi := by
  rw [fmul_of_isFinite ha hb, signBit_of_scaled_pos ha0, signBit_of_scaled_pos hb0]
  exact roundMag_between unitOne_pos hlo hhi h1 h2

theorem fdiv_between (h1 : lo * magnitude b ≤ magnitude a * 2 ^ 149) (h2 : magnitude a * 2 ^ 149 ≤ hi * magnitude b) :
    isFinite (fdiv a b) = true ∧ lo ≤ scaled (fdiv a b) ∧ scaled (fdiv a b) ≤ hi := by
  have hpos : 0 < magnitude b := by have := natAbs_scaled b; omega
  rw [fdiv_of_isFinite ha hb hb0.ne', signBit_of_scaled_pos ha0, signBit_of_scaled_pos hb0]
  exact roundMag_between hpos hlo hhi h1 h2

end

/-- The frequency of a note is from 128 to 1536. -/
theorem IsNote.magnitude_tune_bounds {x : Word} (h : IsNote x) :
    2 ^ 156 ≤ magnitude (tune x) ∧ magnitude (tune x) ≤ 3 * 2 ^ 158 := by
  obtain ⟨h1, h2⟩ := h.tuneBits_bounds
  rw [← natAbs_scaled, scaled_tune, Int.natAbs_natCast]
  exact ⟨le_trans (by decide +kernel) (bitsValue_strictMono.monotone h1),
    (bitsValue_strictMono.monotone h2).trans (by decide +kernel)⟩

/-- The product of frequency and size is from 128 to 1536 × n, so that at a rate of at least 2048 the quotient is above
0 and at most 3/4 of n. -/
theorem increment_bounds {n : ℕ} {x rate : Word} (hn2 : 2 ≤ n) (hn : n ≤ 16384) (hx : IsNote x)
    (hr : isFinite rate = true) (hge : 2048 * 2 ^ 149 ≤ scaled rate) :
    isFinite (increment n (tune x) rate) = true ∧ 0 < scaled (increment n (tune x) rate) ∧
      4 * scaled (increment n (tune x) rate) ≤ 3 * n * 2 ^ 149 := by
  obtain ⟨htlo, hthi⟩ := hx.magnitude_tune_bounds
  have htabs := natAbs_scaled (tune x)
  have ht0 : 0 < scaled (tune x) := by
    rw [scaled_tune] at *
    omega
  have hnv : scaled (i2f n) = n * 2 ^ 149 := scaled_i2f (by omega)
  have hnmag : magnitude (i2f n) = n * 2 ^ 149 := by rw [← natAbs_scaled, hnv]; omega
  obtain ⟨hpf, hplo, hphi⟩ := fmul_between hx.isFinite_tune (isFinite_i2f (k := n) (by omega)) ht0 (by omega)
    (lo := 1 * 2 ^ 156) (hi := 3 * n * 2 ^ 158) ⟨1, 156, by omega, by omega, rfl⟩ ⟨3 * n, 158, by omega, by omega, rfl⟩
    (by rw [hnmag]; nlinarith) (by rw [hnmag]; nlinarith)
  have hpabs := natAbs_scaled (fmul (tune x) (i2f n))
  have hrabs := natAbs_scaled rate
  have hrlt := magnitude_lt_infinity hr
  obtain ⟨hf, h0, h1⟩ := fdiv_between hpf hr (by omega) (by omega)
    (lo := 1 * 2 ^ 0) (hi := 3 * n * 2 ^ 147) ⟨1, 0, by omega, by omega, rfl⟩ ⟨3 * n, 147, by omega, by omega, rfl⟩
    (by omega) (by
      calc magnitude (fmul (tune x) (i2f n)) * 2 ^ 149 ≤ 3 * n * 2 ^ 158 * 2 ^ 149 :=
            Nat.mul_le_mul_right _ (by omega)
        _ = 3 * n * 2 ^ 147 * (2048 * 2 ^ 149) := by ring
        _ ≤ _ := Nat.mul_le_mul_left _ (by omega))
  rw [increment]
  generalize fdiv (fmul (tune x) (i2f n)) rate = q at hf h0 h1 ⊢
  exact ⟨hf, by omega, by omega⟩

/-- Settles O39: three quarters of n are below n. -/
theorem freshIncrementsAreInRange : Obligations.FreshIncrementsAreInRange := by
  intro n x rate hn2 hn hx hr hge
  have hrate : scaled 0x45000000 = 2048 * 2 ^ 149 := by decide +kernel
  obtain ⟨-, -, hge⟩ := (fge_iff _ _).1 hge
  have h0f : isFinite 0x00000000 = true := isFinite_zero false
  have h0v : scaled 0x00000000 = 0 := scaled_zero false
  have hnf : isFinite (i2f n) = true := isFinite_i2f (by omega)
  obtain ⟨hf, h0, h1⟩ := increment_bounds hn2 hn hx hr (hrate ▸ hge)
  rw [increment] at hf h0 h1
  generalize fdiv (fmul (tune x) (i2f n)) rate = q at hf h0 h1 ⊢
  refine ⟨?_, ?_, (inRange_iff hn _).2 ⟨hf, h0.le, by omega⟩⟩
  · rwa [fgt_iff_of_isFinite hf h0f, h0v]
  · rw [flt, fgt_iff_of_isFinite hnf hf, scaled_i2f (by omega)]
    omega

end Sys2Proof.Machine
end

section
/-! PROOFS. The voice mixer (spec/43_mixer.md): what INIT (O23) and PREPARE (O24) make of the state; a RENDER that completes
(O32) or stops (O33), by one description of how far a block has come; equal channels (O36); and RENDERs after an INIT, which
never fault (O40). -/

namespace Sys2Proof.Machine

/-! ### INIT and PREPARE (R140, R141) -/

theorem exec_init_inRange {s : State} (hN : badTableSize s s.operands.tableSize.toNat = false)
    (hV : badVoiceCount s s.operands.voiceCount.toNat = false) :
    exec .init s = .next { prepare (tableBuild { s with n := s.operands.tableSize.toNat } s.operands.tableSize.toNat)
      s.operands.sampleRate s.operands.voiceCount.toNat with ready := true }.complete := by
  simp only [exec, execInit, hN, hV, Bool.false_eq_true, if_false]

theorem exec_prepare_inRange {s : State} (hr : s.ready = true)
    (hV : badVoiceCount s s.operands.voiceCount.toNat = false) :
    exec .prepare s = .next (prepare s s.operands.sampleRate s.operands.voiceCount.toNat).complete := by
  simp only [exec, execPrepare, hr, hV, Bool.not_true, Bool.false_eq_true, if_false]

theorem read_prepare_phase_eq (s : State) (sr : Word) (count v : Nat) :
    (prepare s sr count).read .phase v = if v < count then 0 else s.read .phase v := by
  split
  next h => exact read_prepare_phase s sr count v h
  next h => exact read_prepare_phase_above s sr count v (not_lt.1 h)

theorem read_tableBuild_eq (s : State) (N i : Nat) :
    (tableBuild s N).read .table i = if i < N then tableEntry N i else s.read .table i := by
  split
  next h => exact read_tableBuild s N i h
  next h => exact read_tableBuild_above s N i (not_lt.1 h)

/-- Every increment of a new voice set is that of a note. -/
theorem read_prepare_pinc_isNote (s : State) (sr : Word) {count v : Nat} (h : v < count) :
    ∃ x, IsNote x ∧ (prepare s sr count).read .pinc v = increment s.n (tune x) sr :=
  ⟨note (s.draws + v), isNote_note _, read_prepare_pinc s sr count v h⟩

/-- Settles O24: the clauses are what `prepare` leaves in each memory. -/
theorem prepareReplacesVoices : Obligations.PrepareReplacesVoices := by
  intro s hr hV1 hV2
  exact ⟨_, exec_prepare_inRange hr (badVoiceCount_eq_false.2 ⟨hV1, hV2⟩), rfl, rfl,
    fun v => read_prepare_phase_eq s s.operands.sampleRate _ v,
    fun v hv => read_prepare_pinc_isNote s s.operands.sampleRate hv,
    fun v hv => read_prepare_pinc_above s s.operands.sampleRate _ v hv,
    rfl, fun i => ⟨rfl, rfl, rfl⟩, rfl, rfl, rfl, sameStatusAndHost_refl s⟩

/-- Settles O23: the table is what `tableBuild` leaves, the voice set what `prepare` leaves after it. -/
theorem initBuildsTableAndVoices : Obligations.InitBuildsTableAndVoices := by
  intro s hN1 hN2 hV1 hV2
  let s' : State := { s with n := s.operands.tableSize.toNat }
  let built := tableBuild s' s.operands.tableSize.toNat
  exact ⟨_, exec_init_inRange (badTableSize_eq_false.2 ⟨hN1, hN2⟩) (badVoiceCount_eq_false.2 ⟨hV1, hV2⟩), rfl, rfl,
    rfl, rfl,
    fun i => read_tableBuild_eq s' _ i,
    fun v => read_prepare_phase_eq built s.operands.sampleRate _ v,
    fun v hv => read_prepare_pinc_isNote built s.operands.sampleRate hv,
    fun v hv => read_prepare_pinc_above built s.operands.sampleRate _ v hv,
    rfl, fun f => ⟨rfl, rfl⟩, rfl, sameStatusAndHost_refl s⟩

/-! ### Equal channels (R136) -/

/-- What every advance of a phase and every contribution keeps, a block keeps. -/
theorem renderVoices_induction {P : State → Prop} (hphase : ∀ s v w, P s → P (s.write .phase v w))
    (hmix : ∀ s f m, P s → P (mixInto s f m)) (f count v : Nat) {s : State} (h : P s) :
    P (renderVoices f count v s).state := by
  induction count generalizing v s with
  | zero => exact h
  | succ count ih =>
    rw [renderVoices]
    split
    next => exact h
    next w t ht =>
      obtain ⟨-, -, rfl⟩ := nextSample_some ht
      exact ih (v + 1) (hmix _ f _ (hphase s v _ h))

theorem renderFrames_induction {P : State → Prop} (hphase : ∀ s v w, P s → P (s.write .phase v w))
    (hmix : ∀ s f m, P s → P (mixInto s f m)) (count f : Nat) {s : State} (h : P s) :
    P (renderFrames count f s).state := by
  induction count generalizing f s with
  | zero => exact h
  | succ count ih =>
    have hv := renderVoices_induction hphase hmix f s.vc 0 h
    rw [renderFrames]
    split
    next t ht => rw [ht] at hv; exact ih (f + 1) hv
    next t g v ht => rw [ht] at hv; exact hv

/-- The channels hold equal words at a frame. -/
def ChannelsEqual (f : Nat) (s : State) : Prop := s.read .outL f = s.read .outR f

theorem ChannelsEqual.write_phase {f : Nat} (s : State) (v : Nat) (w : Word) (h : ChannelsEqual f s) :
    ChannelsEqual f (s.write .phase v w) := h

/-- Both channels are given the same contribution. -/
theorem ChannelsEqual.mixInto {f : Nat} (s : State) (g : Nat) (m : Word) (h : ChannelsEqual f s) :
    ChannelsEqual f (mixInto s g m) := by
  unfold ChannelsEqual at *
  simp only [read_mixInto, h, reduceCtorEq, or_true, true_or]

theorem ChannelsEqual.renderBlock {f : Nat} {s : State} (h : ChannelsEqual f s) (k : Nat) :
    ChannelsEqual f (renderBlock s k).state :=
  renderFrames_induction ChannelsEqual.write_phase ChannelsEqual.mixInto k 0 h

/-- Settles O36: a fault and a completion leave the output buffer as the block left it. -/
theorem equalChannelsStayEqual : Obligations.EqualChannelsStayEqual := by
  intro s t k f h ht
  have hb : ChannelsEqual f (renderBlock s k).state := ChannelsEqual.renderBlock h k
  obtain ⟨c, info, rfl⟩ | ⟨-, -, ⟨u, hu, rfl⟩ | ⟨u, g, v, hu, rfl⟩⟩ := execRender_cases ht
  · exact h
  · rw [hu] at hb; exact hb
  · rw [hu] at hb; exact hb

/-! ### How far a block has come (R135, R136, R139)

A block that began in `s` has come to frame `f` and its voice `v`, which is next: what it has made of each word. -/

/-- The phase of voice `u` by then. -/
def phaseSoFar (s : State) (f v u : Nat) : Word :=
  if u < v then phaseAt s u (f + 1) else if u < s.vc then phaseAt s u f else s.read .phase u

/-- A word of frame `g` by then, in either channel. -/
def mixedSoFar (s : State) (f v g : Nat) (before : Word) : Word :=
  if g < f then mixedWord s g before s.vc else if g = f then mixedWord s g before v else before

section
variable (s : State) (f v g u : Nat) (w : Word)

theorem phaseSoFar_next (hv : v < s.vc) : phaseSoFar s f v v = phaseAt s v f := by
  rw [phaseSoFar, if_neg (lt_irrefl v), if_pos hv]

theorem phaseSoFar_start : phaseSoFar s 0 0 u = s.read .phase u := by
  rw [phaseSoFar, if_neg (Nat.not_lt_zero u), phaseAt, ite_self]

theorem phaseSoFar_frame : phaseSoFar s f 0 u = if u < s.vc then phaseAt s u f else s.read .phase u := by
  rw [phaseSoFar, if_neg (Nat.not_lt_zero u)]

theorem phaseSoFar_nextVoice :
    phaseSoFar s f (v + 1) u = if u = v then phaseAt s v (f + 1) else phaseSoFar s f v u := by
  unfold phaseSoFar
  by_cases hu : u = v
  · rw [if_pos hu, hu, if_pos (Nat.lt_succ_self v)]
  · simp only [if_neg hu, show u < v + 1 ↔ u < v by omega]

theorem phaseSoFar_nextFrame : phaseSoFar s f s.vc u = phaseSoFar s (f + 1) 0 u := by
  rw [phaseSoFar_frame, phaseSoFar]
  by_cases hu : u < s.vc
  · rw [if_pos hu, if_pos hu]
  · rw [if_neg hu, if_neg hu, if_neg hu]

theorem mixedSoFar_frame : mixedSoFar s f 0 g w = if g < f then mixedWord s g w s.vc else w := by
  rw [mixedSoFar, mixedWord, ite_self]

theorem mixedSoFar_nextVoice :
    mixedSoFar s f (v + 1) g w =
      if g = f then fadd (mixedSoFar s f v g w) (fmul (sampleAt s (phaseAt s v f)) s.level) else mixedSoFar s f v g w := by
  unfold mixedSoFar
  by_cases hg : g = f
  · subst hg
    rw [if_neg (lt_irrefl g), if_neg (lt_irrefl g), if_pos rfl, if_pos rfl, if_pos rfl, mixedWord]
  · rw [if_neg hg, if_neg hg, if_neg hg]

theorem mixedSoFar_nextFrame : mixedSoFar s f s.vc g w = mixedSoFar s (f + 1) 0 g w := by
  rw [mixedSoFar_frame, mixedSoFar]
  by_cases hg : g = f
  · subst hg
    rw [if_neg (lt_irrefl g), if_pos rfl, if_pos (Nat.lt_succ_self g)]
  · rw [if_neg hg]
    simp only [show g < f + 1 ↔ g < f by omega]

end

/-- `Progress s f v t`: a block that began in `s` and has come to frame `f` and voice `v` is in `t`. -/
structure Progress (s : State) (f v : Nat) (t : State) : Prop where
  sameButMix : SameButMix s t
  phase : ∀ u, t.read .phase u = phaseSoFar s f v u
  outL : ∀ g, t.read .outL g = mixedSoFar s f v g (s.read .outL g)
  outR : ∀ g, t.read .outR g = mixedSoFar s f v g (s.read .outR g)

theorem SameButMix.sameStatusAndHost {s t : State} (h : SameButMix s t) : SameStatusAndHost s t :=
  ⟨h.proj State.fault, h.proj State.code, h.proj State.faultInfo, h.proj State.regs, h.proj State.caps,
    h.proj State.pending, h.proj State.answers⟩

theorem SameButMix.read_table {s t : State} (h : SameButMix s t) (i : Nat) : t.read .table i = s.read .table i :=
  h.proj (State.read · .table i)

theorem SameButMix.read_pinc {s t : State} (h : SameButMix s t) (i : Nat) : t.read .pinc i = s.read .pinc i :=
  h.proj (State.read · .pinc i)

theorem Progress.start (s : State) : Progress s 0 0 s where
  sameButMix := SameButMix.refl s
  phase u := (phaseSoFar_start s u).symm
  outL g := by rw [mixedSoFar_frame, if_neg (Nat.not_lt_zero g)]
  outR g := by rw [mixedSoFar_frame, if_neg (Nat.not_lt_zero g)]

/-- After the last voice of a frame the first of the next one is next. -/
theorem Progress.nextFrame {s t : State} {f : Nat} (h : Progress s f s.vc t) : Progress s (f + 1) 0 t where
  sameButMix := h.sameButMix
  phase u := (h.phase u).trans (phaseSoFar_nextFrame s f u)
  outL g := (h.outL g).trans (mixedSoFar_nextFrame s f g _)
  outR g := (h.outR g).trans (mixedSoFar_nextFrame s f g _)

section
variable {s t : State} {f v : Nat} (h : Progress s f v t) (hv : v < s.vc)
include h hv

theorem Progress.read_phase : t.read .phase v = phaseAt s v f := (h.phase v).trans (phaseSoFar_next s f v hv)

/-- The block's test of a phase is the one of the formula. -/
theorem Progress.inDomain_eq : inDomain t.n (t.read .phase v) = inDomain s.n (phaseAt s v f) := by
  rw [h.read_phase hv, h.sameButMix.proj State.n]

/-- One sample and its contribution bring a block to the next voice. -/
theorem Progress.nextVoice :
    Progress s f (v + 1) (mixInto (t.write .phase v (advance t.n (t.read .phase v) (t.read .pinc v))) f
      (fmul (sampleAt t (t.read .phase v)) t.level)) := by
  have hn : t.n = s.n := h.sameButMix.proj State.n
  have hadvance : advance t.n (t.read .phase v) (t.read .pinc v) = phaseAt s v (f + 1) := by
    rw [hn, h.read_phase hv, h.sameButMix.read_pinc, phaseAt]
  have hsample : fmul (sampleAt t (t.read .phase v)) t.level = fmul (sampleAt s (phaseAt s v f)) s.level := by
    rw [h.read_phase hv, sampleAt_congr hn h.sameButMix.read_table, h.sameButMix.proj State.level]
  have hout : ∀ sp g, sp ≠ Space.phase → (t.write .phase v (phaseAt s v (f + 1))).read sp g = t.read sp g :=
    fun sp g hsp => State.read_write_other _ _ _ _ _ _ fun e => hsp (Prod.mk.inj e).1
  rw [hadvance, hsample]
  refine ⟨h.sameButMix.trans ((SameButMix.write_phase t v _).trans (SameButMix.mixInto _ f _)), fun u => ?_, fun g => ?_,
    fun g => ?_⟩
  · rw [read_mixInto, if_neg (by simp), phaseSoFar_nextVoice]
    split
    next hu => rw [hu, State.read_write_same]
    next hu => rw [State.read_write_other _ _ _ _ _ _ fun e => hu (Prod.mk.inj e).2, h.phase]
  · simp only [read_mixInto, true_or, true_and, mixedSoFar_nextVoice, hout, ne_eq, reduceCtorEq, not_false_eq_true, h.outL]
  · simp only [read_mixInto, or_true, true_and, mixedSoFar_nextVoice, hout, ne_eq, reduceCtorEq, not_false_eq_true, h.outR]

end

/-! ### A block that completes, and one that stops (R135, R139) -/

section
variable {s : State}

theorem Progress.renderVoices_done {f v count : Nat} {t : State} (h : Progress s f v t) (hvc : v + count ≤ s.vc)
    (hd : ∀ u, u < v + count → inDomain s.n (phaseAt s u f) = true) :
    ∃ t', renderVoices f count v t = .done t' ∧ Progress s f (v + count) t' := by
  induction count generalizing v t with
  | zero => exact ⟨t, rfl, h⟩
  | succ count ih =>
    rw [renderVoices, nextSample_eq, h.inDomain_eq (by omega), if_pos (hd v (by omega))]
    rw [show v + (count + 1) = v + 1 + count by omega] at hvc hd ⊢
    exact ih (h.nextVoice (by omega)) hvc hd

theorem Progress.renderVoices_stopped {f v w count : Nat} {t : State} (h : Progress s f v t) (hvc : v + count ≤ s.vc)
    (hle : v ≤ w) (hlt : w < v + count) (hd : ∀ u, u < w → inDomain s.n (phaseAt s u f) = true)
    (hbad : inDomain s.n (phaseAt s w f) = false) :
    ∃ t', renderVoices f count v t = .stopped t' f w ∧ Progress s f w t' := by
  induction count generalizing v t with
  | zero => omega
  | succ count ih =>
    rw [renderVoices, nextSample_eq, h.inDomain_eq (by omega)]
    obtain rfl | hne := eq_or_ne v w
    · exact ⟨t, by rw [hbad]; rfl, h⟩
    · rw [if_pos (hd v (by omega))]
      exact ih (h.nextVoice (by omega)) (by omega) (by omega) (by omega)

theorem Progress.renderFrames_done {f count : Nat} {t : State} (h : Progress s f 0 t) (hd : BlockInDomain s (f + count)) :
    ∃ t', renderFrames count f t = .done t' ∧ Progress s (f + count) 0 t' := by
  induction count generalizing f t with
  | zero => exact ⟨t, rfl, h⟩
  | succ count ih =>
    obtain ⟨t', hdone, ht'⟩ := h.renderVoices_done (Nat.zero_add _).le fun u hu => hd f (by omega) u (by omega)
    rw [Nat.zero_add] at ht'
    rw [renderFrames, h.sameButMix.proj State.vc, hdone]
    rw [show f + (count + 1) = f + 1 + count by omega] at hd ⊢
    exact ih ht'.nextFrame hd

theorem Progress.renderFrames_stopped {f g v count : Nat} {t : State} (h : Progress s f 0 t) (hle : f ≤ g)
    (hlt : g < f + count) (hv : v < s.vc) (hd : BlockInDomain s g)
    (hdv : ∀ u, u < v → inDomain s.n (phaseAt s u g) = true) (hbad : inDomain s.n (phaseAt s v g) = false) :
    ∃ t', renderFrames count f t = .stopped t' g v ∧ Progress s g v t' := by
  induction count generalizing f t with
  | zero => omega
  | succ count ih =>
    rw [renderFrames, h.sameButMix.proj State.vc]
    obtain rfl | hne := eq_or_ne f g
    · obtain ⟨t', hstop, ht'⟩ := h.renderVoices_stopped (Nat.zero_add _).le (Nat.zero_le v) (by omega) hdv hbad
      exact ⟨t', by rw [hstop], ht'⟩
    · obtain ⟨t', hdone, ht'⟩ := h.renderVoices_done (Nat.zero_add _).le fun u hu => hd f (by omega) u (by omega)
      rw [Nat.zero_add] at ht'
      rw [hdone]
      exact ih ht'.nextFrame (by omega) (by omega)

end

/-- Settles O32: the block comes to frame k and its voice 0. -/
theorem renderMixesTheBlock : Obligations.RenderMixesTheBlock := by
  intro s k hr hk hd
  obtain ⟨t, hdone, ht⟩ := (Progress.start s).renderFrames_done (count := k) (by rwa [Nat.zero_add])
  rw [Nat.zero_add] at ht
  have hm := ht.sameButMix
  exact ⟨t.complete, exec_render_done hr hk hdone, rfl,
    fun v => (ht.phase v).trans (phaseSoFar_frame s k v),
    fun f => (ht.outL f).trans (mixedSoFar_frame s k f _),
    fun f => (ht.outR f).trans (mixedSoFar_frame s k f _),
    fun i => ⟨hm.read_table i, hm.read_pinc i⟩, hm.proj State.n, hm.proj State.vc, hm.proj State.level,
    hm.proj State.ready, hm.proj State.sample, hm.proj State.draws, hm.sameStatusAndHost⟩

theorem exec_render_stopped {s t : State} {k f v : Nat} (hr : s.ready = true) (hk : k ≤ s.caps.maxF)
    (h : renderBlock s k = .stopped t f v) : exec (.render k) s = .next (t.raise .phase (infoPhase f v)) := by
  simp [exec, execRender, hr, not_lt.2 hk, h]

/-- Settles O33: the block comes to frame f and voice v, and fault entry leaves what it has made. -/
theorem renderStopsAtTheFirstBadPhase : Obligations.RenderStopsAtTheFirstBadPhase := by
  intro s k f v hr hk hf hv hd hdv hbad
  obtain ⟨t, hstop, ht⟩ := (Progress.start s).renderFrames_stopped (Nat.zero_le f) (by rwa [Nat.zero_add]) hv hd hdv hbad
  have hm := ht.sameButMix
  exact ⟨t.raise .phase (infoPhase f v), exec_render_stopped hr hk hstop, rfl, rfl, rfl, rfl, ht.phase, ht.outL, ht.outR,
    fun i => ⟨hm.read_table i, hm.read_pinc i⟩, hm.proj State.n, hm.proj State.vc, hm.proj State.level,
    hm.proj State.ready, hm.proj State.sample, hm.proj State.regs, hm.proj State.draws, hm.proj State.caps,
    hm.proj State.pending, hm.proj State.answers⟩

/-! ### RENDERs after an INIT (R133, R114) -/

/-- A core in which a RENDER of any legal length completes. -/
structure RenderReady (s : State) : Prop where
  ready : s.ready = true
  fault : s.fault = false
  voices : VoicesInRange s

theorem RenderReady.render {s : State} (h : RenderReady s) {k : Nat} (hk : k ≤ s.caps.maxF) :
    ∃ t, exec (.render k) s = .next t ∧ RenderReady t ∧ t.caps = s.caps := by
  obtain ⟨t, hdone, ht⟩ := h.voices.renderFrames (count := k) (f := 0)
  have hm := renderBlock_sameButMix s k
  rw [renderBlock, hdone] at hm
  exact ⟨t.complete, exec_render_done h.ready hk hdone,
    ⟨(hm.proj State.ready).trans h.ready, (hm.proj State.fault).trans h.fault, ht.complete⟩, hm.proj State.caps⟩

/-- A run of RENDERs of legal lengths, each from the state the last one left. -/
theorem RenderReady.foldl {F : Host.Outcome State Fault Refusal → Nat → Host.Outcome State Fault Refusal}
    (hF : ∀ x k, F (.next x) k = exec (.render k) x) {s : State} (h : RenderReady s) {ks : List Nat}
    (hks : ∀ k ∈ ks, k ≤ s.caps.maxF) : ∃ t, ks.foldl F (.next s) = .next t ∧ t.fault = false := by
  induction ks generalizing s with
  | nil => exact ⟨s, rfl, h.fault⟩
  | cons k ks ih =>
    rw [List.forall_mem_cons] at hks
    obtain ⟨t, hexec, ht, hcaps⟩ := h.render hks.1
    rw [List.foldl_cons, hF, hexec]
    exact ih ht (by rw [hcaps]; exact hks.2)

theorem inRange_zero {n : Nat} (hn : n ≤ 16384) : InRange n 0x00000000 := by
  have h0f : isFinite 0x00000000 = true := isFinite_zero false
  have h0v : scaled 0x00000000 = 0 := scaled_zero false
  rw [inRange_iff hn, h0v]
  exact ⟨h0f, le_rfl, by positivity⟩

/-- Settles O40: phases of 0 and increments of notes are in range, and every RENDER keeps them there. -/
theorem rendersAfterInitNeverFault : Obligations.RendersAfterInitNeverFault := by
  intro s ks hcaps hfault hfin hge hN1 hN2 hV1 hV2 hks
  obtain ⟨t, hexec, hn, -, hready, -, -, hphase, hpinc, -, -, -, -, hsame⟩ := initBuildsTableAndVoices s hN1 hN2 hV1 hV2
  obtain ⟨htfault, -, -, -, htcaps, -, -⟩ := hsame
  have hmax : s.caps.maxN ≤ 16384 := by
    simp only [Caps.legal, Bool.and_eq_true, decide_eq_true_eq] at hcaps
    omega
  have htn : t.n ≤ 16384 := by omega
  have hvoices : VoicesInRange t := by
    refine ⟨htn, fun v hv => ?_⟩
    obtain ⟨x, hx, hinc⟩ := hpinc v hv
    obtain ⟨-, -, hrange⟩ := freshIncrementsAreInRange t.n x s.operands.sampleRate (by omega) htn hx hfin hge
    rw [hphase v, if_pos hv, hinc]
    exact ⟨inRange_zero htn, hrange⟩
  exact ⟨t, hexec, RenderReady.foldl (fun _ _ => rfl) ⟨hready, htfault.trans hfault, hvoices⟩ (by rwa [htcaps])⟩

end Sys2Proof.Machine
end

section
/-! PROOFS. Bus access (spec/44_bus_access.md): which transactions a busy (O10) and a faulted core (O11) refuse, what the
three windows read as and store (O18 to O20), the acceptance of a command (O22, O60), the step that runs it (O6), and that
it ends (O8). -/

namespace Sys2Proof.Machine

/-! ### An accepted command is run, and ends (R151, R153) -/

/-- Settles O6: the engine's turn, its word being legal. -/
theorem stepRunsTheDecodedCommand : Obligations.StepRunsTheDecodedCommand :=
  fun _ _ _ _ _ hn he hd => (step_of_engineNext hn).trans (engineTurn_ok he hd)

/-- After its turn the engine is idle: it was before, or its command has completed or faulted. -/
theorem idle_of_engineTurn {s t : State} (h : engineTurn s = .next t) : t.eng = .idle := by
  cases he : s.eng with
  | idle =>
    rw [engineTurn_idle he] at h
    cases h
    exact he
  | run w ops =>
    cases hd : decode w with
    | error e =>
      rw [engineTurn_illegal he hd] at h
      cases h
      exact State.raise_eng s _ _
    | ok i =>
      rw [engineTurn_ok he hd] at h
      obtain ⟨c, info, rfl⟩ | hr := exec_raise_or_runs h
      · exact State.raise_eng s c info
      · exact hr.idle

theorem run_one_idle {s : State} {rest : List Event} (h : EngineNext s rest) :
    ∃ t, core.run 1 s = .next t ∧ t.eng = .idle := by
  obtain ⟨t, ht⟩ := engineTurn_answers { s with pending := rest }
  exact ⟨t, run_succ ((step_of_engineNext h).trans ht) 0, idle_of_engineTurn ht⟩

/-- Settles O8, by induction on the pending events: a transaction leaves a busy core as it is, and the engine's first turn
ends the command. -/
theorem acceptedCommandsTerminate : Obligations.AcceptedCommandsTerminate := by
  intro s w ops he
  induction hp : s.pending generalizing s with
  | nil => exact ⟨1, by simp, run_one_idle (.inl ⟨hp, rfl⟩)⟩
  | cons e rest ih =>
    cases e with
    | engine => exact ⟨1, by simp, run_one_idle (.inr hp)⟩
    | bus x =>
      have hb : s.busy = true := by rw [State.busy, he, Engine.running]
      have hrun : (hostTurn s x rest).eng = .run w ops := by rw [hostTurn_eng, transact_busy hb, he]
      obtain ⟨k, hk, t, ht, hidle⟩ := ih (hostTurn s x rest) hrun rfl
      exact ⟨k + 1, Nat.succ_le_succ hk, t, (run_succ (step_bus hp) k).trans ht, hidle⟩

/-! ### STATUS is read in every state (R150, R160) -/

theorem busRead_status (s : State) : busRead s 0x00004 = .okWord s.status := by
  rw [busRead_eq, show (0x00004 != 0x00004) = false from rfl, Bool.and_false]
  rfl

theorem busRead_busy {s : State} (hb : s.busy = true) {addr : Nat} (h : addr ≠ 0x00004) : busRead s addr = .err := by
  rw [busRead_eq, hb, bne_iff_ne.2 h]
  exact ite_self _

/-! ### A busy or faulted core refuses every write (R150, R165) -/

theorem busWrite_refused {s : State} (h : s.busy = true ∨ s.fault = true) (addr : Nat) (w : Word) :
    busWrite s addr w = (s, .err) := by
  obtain he | ⟨-, -, -, hb, hf, -⟩ := busWrite_cases s addr w
  · exact he
  · rw [hb, hf] at h
    simp at h

/-- Settles O10: a busy core refuses the writes, and of the reads it answers that of STATUS. -/
theorem busyRefusesAllButStatusReads : Obligations.BusyRefusesAllButStatusReads :=
  fun s hb => ⟨fun bits addr w => transact_write_err (busWrite_refused (.inl hb) addr w) bits,
    fun bits _ h => transact_read_err (busRead_busy hb h) bits,
    congrArg (Prod.mk s) (busRead_status s), (status_getLsbD s 0).trans hb⟩

/-- Only STATUS shows whether the core has faulted. -/
theorem answerAt_setFault (s : State) (b : Bool) {p : Place} (h : p ≠ .status) :
    answerAt { s with fault := b } p = answerAt s p := by
  cases p with
  | status => exact absurd rfl h
  | window sp i => cases sp <;> rfl
  | _ => rfl

theorem busRead_setFault (s : State) (b : Bool) {addr : Nat} (h : addr ≠ 0x00004) :
    busRead { s with fault := b } addr = busRead s addr := by
  rw [busRead_eq, busRead_eq, answerAt_setFault s b fun hp => h (place_register hp rfl)]
  rfl

theorem transact_faulted {s : State} (hf : s.fault = true) (x : Txn) : (transact s x).1 = s := by
  obtain h | ⟨-, -, -, -, hsafe, -⟩ := transact_cases s x
  · exact h
  · rw [hf] at hsafe; cases hsafe

/-- No step of a faulted core whose engine is idle reaches more than the host's share. -/
theorem sameCore_of_step_faulted {s t : State} (hf : s.fault = true) (he : s.eng = .idle) (h : step s = .next t) :
    SameCore s t := by
  obtain ⟨x, rest, -, rfl⟩ | ⟨rest, -, ht⟩ := step_cases h
  · rw [hostTurn_eq_withHost, transact_faulted hf]
    rfl
  · rw [engineTurn_idle (s := { s with pending := rest }) he] at ht
    cases ht
    rfl

/-- Settles O11: the writes are refused, the reads do not depend on FAULT, and an idle engine has nothing to run. -/
theorem faultedCoreRefusesWrites : Obligations.FaultedCoreRefusesWrites :=
  fun s hf => ⟨fun bits addr w => transact_write_err (busWrite_refused (.inr hf) addr w) bits,
    fun _ h => (busRead_setFault s false h).symm, busRead_status s, (status_getLsbD s 2).trans hf,
    fun he _ => sameCore_of_step_faulted hf he⟩

/-! ### The windows (R161, R162, R163) -/

/-- How many elements the addresses of a window have room for (spec/20_memory.md R44). -/
def windowLength : Space → Nat
  | .table => 16384
  | .phase => 8192
  | .pinc => 8192
  | .outL => 16384
  | .outR => 16384

/-- The address map gives each element of a window its address. -/
theorem place_windowAddr {sp : Space} {i : Nat} (h : i < windowLength sp) :
    place (windowAddr sp i) = .window sp i := by
  have hlow : 0x10000 ≤ windowAddr sp i := by cases sp <;> (rw [windowAddr]; omega)
  unfold place
  iterate 12 rw [if_neg (by omega)]
  cases sp <;> rw [windowLength] at h <;> rw [windowAddr]
  case table =>
    rw [if_pos (by omega)]
    exact congrArg (Place.window .table) (by omega)
  case phase =>
    rw [if_neg (by omega), if_pos (by omega), if_pos (by omega)]
    exact congrArg (Place.window .phase) (by omega)
  case pinc =>
    rw [if_neg (by omega), if_pos (by omega), if_neg (by omega)]
    exact congrArg (Place.window .pinc) (by omega)
  case outL =>
    iterate 3 rw [if_neg (by omega)]
    rw [if_pos (by omega)]
    exact congrArg (Place.window .outL) (by omega)
  case outR =>
    iterate 4 rw [if_neg (by omega)]
    rw [if_pos (by omega)]
    exact congrArg (Place.window .outR) (by omega)

theorem addrOk_windowAddr {sp : Space} {i : Nat} (h : i < windowLength sp) : addrOk (windowAddr sp i) = true := by
  rw [addrOk_eq_true]
  cases sp <;> (rw [windowLength] at h; rw [windowAddr]; omega)

theorem busRead_windowAddr {s : State} {sp : Space} {i : Nat} (h : i < windowLength sp) (hb : s.busy = false) :
    busRead s (windowAddr sp i) = if s.visible sp i then .okWord (s.read sp i) else .err := by
  rw [busRead_of_idle hb (addrOk_windowAddr h), place_windowAddr h, answerAt]

theorem busWrite_windowAddr {s : State} {sp : Space} {i : Nat} (h : i < windowLength sp) (hs : hostWrites sp = true)
    (hb : s.busy = false) (hf : s.fault = false) (w : Word) :
    busWrite s (windowAddr sp i) w = if s.visible sp i then (s.write sp i w, .ok) else (s, .err) := by
  rw [busWrite, addrOk_windowAddr h, hb, hf, place_windowAddr h]
  simp [hs]

section
variable (s : State) (i : Nat)

theorem visible_table : s.visible .table i = true ↔ s.ready = true ∧ i < s.n := by simp [State.visible]
theorem visible_phase : s.visible .phase i = true ↔ s.ready = true ∧ i < s.vc := by simp [State.visible]
theorem visible_pinc : s.visible .pinc i = true ↔ s.ready = true ∧ i < s.vc := by simp [State.visible]
theorem visible_outL : s.visible .outL i = true ↔ i < s.caps.maxF := by simp [State.visible]
theorem visible_outR : s.visible .outR i = true ↔ i < s.caps.maxF := by simp [State.visible]

end

/-- Settles O18: the elements a read finds, and a window no write can store in. -/
theorem tableWindowReadsTheTable : Obligations.TableWindowReadsTheTable := by
  intro s i w hi
  have hlen : i < windowLength .table := Nat.lt_succ_of_le hi
  refine ⟨fun hb => (busRead_windowAddr hlen hb).trans (if_congr (visible_table s i) rfl rfl),
    busWrite_err fun _ t hst => ?_⟩
  have hst : Stored s w (.window .table i) t := place_windowAddr hlen ▸ hst
  cases hst with
  | window hs _ => cases hs

/-- Settles O19: the two words of a voice, each by the rule of its window. -/
theorem voiceWindowReadsAndWritesVoices : Obligations.VoiceWindowReadsAndWritesVoices := by
  intro s v w hv hb
  have hphase : v < windowLength .phase := Nat.lt_succ_of_le hv
  have hpinc : v < windowLength .pinc := Nat.lt_succ_of_le hv
  exact ⟨(busRead_windowAddr hphase hb).trans (if_congr (visible_phase s v) rfl rfl),
    (busRead_windowAddr hpinc hb).trans (if_congr (visible_pinc s v) rfl rfl), fun hf =>
    ⟨(busWrite_windowAddr hphase rfl hb hf w).trans (if_congr (visible_phase s v) rfl rfl),
      (busWrite_windowAddr hpinc rfl hb hf w).trans (if_congr (visible_pinc s v) rfl rfl)⟩⟩

/-- Settles O20: the two words of a frame, each by the rule of its window. -/
theorem outWindowReadsAndWritesFrames : Obligations.OutWindowReadsAndWritesFrames := by
  intro s f w hf hb
  have hleft : f < windowLength .outL := Nat.lt_succ_of_le hf
  have hright : f < windowLength .outR := Nat.lt_succ_of_le hf
  exact ⟨(busRead_windowAddr hleft hb).trans (if_congr (visible_outL s f) rfl rfl),
    (busRead_windowAddr hright hb).trans (if_congr (visible_outR s f) rfl rfl), fun hsafe =>
    ⟨(busWrite_windowAddr hleft rfl hb hsafe w).trans (if_congr (visible_outL s f) rfl rfl),
      (busWrite_windowAddr hright rfl hb hsafe w).trans (if_congr (visible_outR s f) rfl rfl)⟩⟩

/-! ### The acceptance of a command (R151, R152) -/

theorem busWrite_cmd {s : State} (he : s.eng = .idle) (hf : s.fault = false) (w : Word) :
    busWrite s 0x00000 w = (s.accept w, .ok) := by
  rw [busWrite, busy_eq_false.2 he, hf]
  rfl

theorem transact_cmd {s : State} (he : s.eng = .idle) (hf : s.fault = false) (w : Word) :
    transact s (.write 32 0x00000 w) = (s.accept w, .ok) := by
  rw [transact, if_pos rfl, busWrite_cmd he hf]

/-- The host's turn when it is known what the transaction comes to. -/
theorem step_bus_answered {s t : State} {x : Txn} {r : Answer} {rest : List Event} (hp : s.pending = .bus x :: rest)
    (h : transact s x = (t, r)) : step s = .next (t.withHost rest (r :: s.answers)) := by
  rw [step_bus hp, hostTurn_eq_withHost, h]

/-- Acceptance sets BUSY and leaves the rest of STATUS as it was. -/
theorem status_accept (s : State) (w : Word) : (s.accept w).status = s.status ||| 0x00000001 := by
  refine BitVec.eq_of_getLsbD_eq fun j hj => ?_
  rw [BitVec.getLsbD_or, status_getLsbD, status_getLsbD]
  obtain rfl | h0 := eq_or_ne j 0
  · simp [State.busy, Engine.running]
  · simp [h0]

/-- Settles O22: acceptance by an idle core without a fault, and the refusals of every other. -/
theorem commandAcceptance : Obligations.CommandAcceptance :=
  fun s w => ⟨fun he hf => ⟨busWrite_cmd he hf w,
      (busRead_status (s.accept w)).trans (congrArg Answer.okWord (status_accept s w))⟩,
    fun h => busWrite_refused h 0x00000 w⟩

/-- Settles O60: the host's turn accepts the word placed, and the engine's turn after it runs the command. -/
theorem placedWordsAreAcceptedWrites : Obligations.PlacedWordsAreAcceptedWrites := by
  intro s w he hf
  rw [withFetchWord_eq]
  have haccept := transact_cmd (s := { s with pending := .bus (.write 32 0x00000 w) :: .engine :: s.pending }) he hf w
  exact ⟨(step_bus_answered rfl haccept :),
    fun _ hd => (step_of_engineNext (.inr rfl)).trans (engineTurn_ok rfl hd)⟩

end Sys2Proof.Machine
end

section
/-! PROOFS. Faults (spec/60_exceptions.md): a fault is never left (O12) and shows at the end of a run (O13), a refused
transaction has no effect (O14), and the checks of the commands in their order (O37). -/

namespace Sys2Proof.Machine

/-! ### Runs and their steps -/

theorem run_succ_next {k : Nat} {s t : State} (h : core.run (k + 1) s = .next t) :
    ∃ u, step s = .next u ∧ core.run k u = .next t := by
  obtain ⟨-, -, hnext⟩ := stepsAnswerOneTransactionAndNeverStop
  obtain ⟨u, hu⟩ := hnext s
  exact ⟨u, hu, (run_succ hu k).symm.trans h⟩

/-- The steps after those that end in `u` are the steps from `u`. -/
theorem run_add {j : Nat} {s u : State} (h : core.run j s = .next u) (i : Nat) : core.run (j + i) s = core.run i u := by
  induction j generalizing s with
  | zero =>
    cases h
    rw [Nat.zero_add]
  | succ j ih =>
    obtain ⟨v, hv, hj⟩ := run_succ_next h
    rw [Nat.succ_add, run_succ hv, ih hj]

/-- What every step keeps, a run keeps. -/
theorem run_keeps {P : State → Prop} (hstep : ∀ s t, P s → step s = .next t → P t) {k : Nat} {s t : State}
    (hs : P s) (h : core.run k s = .next t) : P t := by
  induction k generalizing s with
  | zero => cases h; exact hs
  | succ k ih =>
    obtain ⟨u, hu, hk⟩ := run_succ_next h
    exact ih (hstep s u hs hu) hk

/-! ### There is no return from a fault (R187, R188) -/

theorem SameCore.refl (s : State) : SameCore s s := rfl

theorem SameCore.trans {s t u : State} (h1 : SameCore s t) (h2 : SameCore t u) : SameCore s u := by
  unfold SameCore at *
  rw [h2, h1]

theorem SameCore.proj {α : Type} {s t : State} (h : SameCore s t) (g : State → α) :
    g t = g { s with pending := t.pending, answers := t.answers } := congrArg g h

theorem sameCore_of_run_faulted {k : Nat} {s t : State} (hf : s.fault = true) (he : s.eng = .idle)
    (h : core.run k s = .next t) : SameCore s t := by
  refine run_keeps (P := SameCore s) (fun u v hu hstep => ?_) (SameCore.refl s) h
  have hfault : u.fault = true := (hu.proj State.fault).trans hf
  have hidle : u.eng = .idle := (hu.proj State.eng).trans he
  exact hu.trans (sameCore_of_step_faulted hfault hidle hstep)

/-- Settles O12: no step reaches more than the host's share, so that the core is still faulted and idle at the next. -/
theorem faultIsNeverLeft : Obligations.FaultIsNeverLeft := by
  intro k s t hf he h
  have hsame := sameCore_of_run_faulted hf he h
  exact ⟨(hsame.proj State.fault).trans hf, hsame.proj State.code, hsame.proj State.faultInfo, hsame⟩

theorem safe_iff {s : State} : s.safe = true ↔ s.fault = false := by simp [State.safe]

theorem fault_of_step {s t : State} (hf : s.fault = true) (h : step s = .next t) : t.fault = true := by
  obtain ⟨u, p, a, hu, rfl⟩ := step_effect h
  exact hu.fault_kept hf

/-- A fault in the first state of a run is there in its last, so that without one there it was not in the first. -/
theorem safe_of_run {k : Nat} {s t : State} (h : core.run k s = .next t) (ht : t.safe = true) : s.safe = true := by
  rw [safe_iff] at ht ⊢
  by_contra hs
  have hf : t.fault = true := run_keeps (P := (·.fault = true)) (fun _ _ => fault_of_step) (by simpa using hs) h
  rw [ht] at hf
  cases hf

/-- Settles O13: each state the run passes through is the first of the run that is left. -/
theorem finalStateTellsWhetherARunFaulted : Obligations.FinalStateTellsWhetherARunFaulted := by
  intro k s t _ h ht j hj u hu
  obtain ⟨i, rfl⟩ := Nat.exists_eq_add_of_le hj
  exact safe_of_run ((run_add hu i).symm.trans h) ht

/-! ### A refused transaction has no effect (R40, R190) -/

theorem transact_refused {s : State} {x : Txn} (h : (transact s x).2 = .err) : (transact s x).1 = s := by
  obtain hsame | ⟨-, -, -, -, -, hok, -⟩ := transact_cases s x
  · exact hsame
  · rw [hok] at h; cases h

/-- Settles O14: the answer to a refused transaction is all that its step leaves. -/
theorem refusedTransactionsChangeNothing : Obligations.RefusedTransactionsChangeNothing := by
  refine ⟨fun _ _ => transact_refused, fun s t x rest hp herr ht => ?_⟩
  rw [step_bus hp, hostTurn_eq_withHost, transact_refused herr] at ht
  cases ht
  rfl

/-! ### The checks of the commands (R180 to R182) -/

theorem badTableSize_eq_true {s : State} {N : Nat} : badTableSize s N = true ↔ N < 2 ∨ s.caps.maxN < N := by
  simp [badTableSize]

theorem badVoiceCount_eq_true {s : State} {w : Word} :
    badVoiceCount s w.toNat = true ↔ w = 0 ∨ s.caps.maxV < w.toNat := by
  simp [badVoiceCount, BitVec.toNat_eq]

section
variable {s : State}

theorem exec_init_badTableSize (hN : badTableSize s s.operands.tableSize.toNat = true) :
    exec .init s = .next (s.raise .tableSize s.operands.tableSize) := by
  rw [exec, execInit, if_pos hN]

theorem exec_init_badVoiceCount (hN : badTableSize s s.operands.tableSize.toNat = false)
    (hV : badVoiceCount s s.operands.voiceCount.toNat = true) :
    exec .init s = .next (s.raise .voiceCount s.operands.voiceCount) := by
  rw [exec, execInit, hN, if_neg Bool.false_ne_true, if_pos hV]

/-- Every command but INIT needs READY. -/
theorem exec_notReady (hr : s.ready = false) {i : Instr} (hi : i ≠ .init) :
    exec i s = .next (s.raise .notReady (infoCommand i)) := by
  cases i with
  | init => exact absurd rfl hi
  | prepare => rw [exec, execPrepare, hr, Bool.not_false, if_pos rfl]
  | setfreq v => rw [exec, execSetfreq, hr, Bool.not_false, if_pos rfl]
  | next v => rw [exec, execNext, hr, Bool.not_false, if_pos rfl]
  | render k => rw [exec, execRender, hr, Bool.not_false, if_pos rfl]

theorem exec_prepare_badVoiceCount (hr : s.ready = true) (hV : badVoiceCount s s.operands.voiceCount.toNat = true) :
    exec .prepare s = .next (s.raise .voiceCount s.operands.voiceCount) := by
  simp [exec, execPrepare, hr, hV]

theorem exec_setfreq_badVoice (hr : s.ready = true) {v : Nat} (hv : s.vc ≤ v) :
    exec (.setfreq v) s = .next (s.raise .voiceSel (infoImm v)) := by
  simp [exec, execSetfreq, hr, hv]

theorem exec_next_badVoice (hr : s.ready = true) {v : Nat} (hv : s.vc ≤ v) :
    exec (.next v) s = .next (s.raise .voiceSel (infoImm v)) := by
  simp [exec, execNext, hr, hv]

theorem exec_render_tooManyFrames (hr : s.ready = true) {k : Nat} (hk : s.caps.maxF < k) :
    exec (.render k) s = .next (s.raise .frames (infoImm k)) := by
  simp [exec, execRender, hr, hk]

end

/-- Settles O37: each command's first failing check decides, the checks before it having passed,
and the fault it enters is `Faulted` by definition. -/
theorem checksInOrderOfPriority : Obligations.ChecksInOrderOfPriority := fun _ =>
  ⟨fun hN => exec_init_badTableSize (badTableSize_eq_true.2 hN),
    fun hN1 hN2 hV => exec_init_badVoiceCount (badTableSize_eq_false.2 ⟨hN1, hN2⟩) (badVoiceCount_eq_true.2 hV),
    fun hr => ⟨exec_notReady hr nofun, fun _ =>
      ⟨exec_notReady hr nofun, exec_notReady hr nofun, exec_notReady hr nofun⟩⟩,
    fun hr hV => exec_prepare_badVoiceCount hr (badVoiceCount_eq_true.2 hV),
    fun hr _ hv => ⟨exec_setfreq_badVoice hr hv, exec_next_badVoice hr hv⟩,
    fun hr _ hv hd => exec_next_not_inDomain hr hv hd,
    fun hr _ hk => exec_render_tooManyFrames hr hk⟩

end Sys2Proof.Machine
end

section
/-! PROOFS. Reset and hazards (spec/70_reset_and_hazards.md): frames may be split into blocks in any way (O35), by the formulas
of a block read from a state that goes on where another one stopped; and an INIT whose sample rate nobody has written, after
which the second frame faults (O38). -/

namespace Sys2Proof.Machine

/-! ### A block that goes on where another one stopped (R223) -/

/-- `GoesOn s j u`: the voices of `u` are those of `s` after `j` frames, with the same table and level. The output buffer may
hold anything. -/
structure GoesOn (s : State) (j : Nat) (u : State) : Prop where
  n : u.n = s.n
  vc : u.vc = s.vc
  level : u.level = s.level
  table : ∀ i, u.read .table i = s.read .table i
  pinc : ∀ v, u.read .pinc v = s.read .pinc v
  phase : ∀ v, v < s.vc → u.read .phase v = phaseAt s v j

section
variable {s u : State} {j : Nat} (h : GoesOn s j u)
include h

theorem GoesOn.phaseAt_eq {v : Nat} (hv : v < s.vc) (f : Nat) : phaseAt u v f = phaseAt s v (j + f) := by
  induction f with
  | zero => exact h.phase v hv
  | succ f ih => rw [phaseAt, ih, h.n, h.pinc, ← Nat.add_assoc, phaseAt]

theorem GoesOn.mixedWord_eq (f : Nat) (w : Word) {count : Nat} (hc : count ≤ s.vc) :
    mixedWord u f w count = mixedWord s (j + f) w count := by
  induction count with
  | zero => rfl
  | succ count ih =>
    rw [mixedWord, mixedWord, ih (by omega), h.phaseAt_eq hc, sampleAt_congr h.n h.table, h.level]

theorem GoesOn.blockInDomain {k : Nat} (hd : BlockInDomain s (j + k)) : BlockInDomain u k := by
  intro f hf v hv
  rw [h.vc] at hv
  rw [h.n, h.phaseAt_eq hv]
  exact hd (j + f) (by omega) v hv

end

/-- A RENDER in a core that goes on after `j` frames makes of its own frame `f` what frame `j + f` is made of. -/
theorem GoesOn.render {s u : State} {j k : Nat} (h : GoesOn s j u) (hr : u.ready = true) (hk : k ≤ u.caps.maxF)
    (hd : BlockInDomain s (j + k)) :
    ∃ t, exec (.render k) u = .next t ∧
      (∀ v, t.read .phase v = if v < s.vc then phaseAt s v (j + k) else u.read .phase v) ∧
      ∀ f, f < k → t.read .outL f = mixedWord s (j + f) (u.read .outL f) s.vc ∧
        t.read .outR f = mixedWord s (j + f) (u.read .outR f) s.vc := by
  obtain ⟨t, hexec, -, hphase, hL, hR, -⟩ := renderMixesTheBlock u k hr hk (h.blockInDomain hd)
  refine ⟨t, hexec, fun v => ?_, fun f hf => ?_⟩
  · rw [hphase, h.vc]
    exact ite_congr rfl (fun hv => h.phaseAt_eq hv k) fun _ => rfl
  · rw [hL, hR, if_pos hf, if_pos hf, h.vc, h.mixedWord_eq f _ le_rfl, h.mixedWord_eq f _ le_rfl]
    exact ⟨rfl, rfl⟩

/-- Settles O35: after RENDER j the core goes on after j frames, whatever the host has made of the output buffer. -/
theorem blocksMayBeSplit : Obligations.BlocksMayBeSplit := by
  intro s j k hr hjk hd
  obtain ⟨t1, hexec1, -, hphase1, hL1, hR1, hsame1, hn1, hvc1, hlevel1, hready1, -, -, -, -, -, -, hcaps1, -⟩ :=
    renderMixesTheBlock s j hr (by omega) fun f hf => hd f (by omega)
  obtain ⟨t, hexec, -, hphase, hL, hR, -⟩ := renderMixesTheBlock s (j + k) hr hjk hd
  refine ⟨t1, t, hexec1, hexec, fun f hf => ?_, fun u hu hout => ?_⟩
  · have hf' : f < j + k := by omega
    rw [hL1, hR1, hL, hR, if_pos hf, if_pos hf, if_pos hf', if_pos hf']
    exact ⟨rfl, rfl⟩
  · have hphaseu (v : Nat) : u.read .phase v = if v < s.vc then phaseAt s v j else s.read .phase v :=
      (congrArg (State.read · .phase v) hu).trans (hphase1 v)
    have hgo : GoesOn s j u :=
      { n := (congrArg State.n hu).trans hn1
        vc := (congrArg State.vc hu).trans hvc1
        level := (congrArg State.level hu).trans hlevel1
        table := fun i => (congrArg (State.read · .table i) hu).trans (hsame1 i).1
        pinc := fun v => (congrArg (State.read · .pinc v) hu).trans (hsame1 v).2
        phase := fun v hv => (hphaseu v).trans (if_pos hv) }
    have hcapsu : u.caps = s.caps := (congrArg State.caps hu).trans hcaps1
    obtain ⟨t2, hexec2, hphase2, hmix2⟩ :=
      hgo.render (((congrArg State.ready hu).trans hready1).trans hr) (by rw [hcapsu]; omega) hd
    refine ⟨t2, hexec2, fun v => ?_, fun f hf => ?_⟩
    · rw [hphase2, hphase, hphaseu]
      exact ite_congr rfl (fun _ => rfl) fun hv => if_neg hv
    · obtain ⟨hL2, hR2⟩ := hmix2 f hf
      have hjf : j + f < j + k := by omega
      rw [hL2, hR2, hL, hR, if_pos hjf, if_pos hjf, (hout f hf).1, (hout f hf).2]
      exact ⟨rfl, rfl⟩

/-! ### A sample rate of +0 (R213) -/

/-- The product of a note's frequency and a table size is finite and above 0: each factor is from 1 to 2^14. -/
theorem IsNote.fmul_tune_i2f_pos {n : Nat} {x : Word} (hx : IsNote x) (hn1 : 1 ≤ n) (hn : n ≤ 16384) :
    isFinite (fmul (tune x) (i2f n)) = true ∧ 0 < scaled (fmul (tune x) (i2f n)) := by
  obtain ⟨htlo, hthi⟩ := hx.magnitude_tune_bounds
  have ht0 : 0 < scaled (tune x) := lt_of_lt_of_le (by decide +kernel) hx.scaled_tune_bounds.1
  have hnv : scaled (i2f n) = n * 2 ^ 149 := scaled_i2f (by omega)
  have hnmag : magnitude (i2f n) = n * 2 ^ 149 := by rw [← natAbs_scaled, hnv]; omega
  obtain ⟨hf, hlo, -⟩ := fmul_between hx.isFinite_tune (isFinite_i2f (k := n) (by omega)) ht0 (by omega)
    (lo := 1 * 2 ^ 149) (hi := 1 * 2 ^ 177) ⟨1, 149, by omega, by omega, rfl⟩ ⟨1, 177, by omega, by omega, rfl⟩
    (Nat.mul_le_mul (by omega) (by omega))
    (calc magnitude (tune x) * magnitude (i2f n) ≤ 2 ^ 163 * 2 ^ 163 := Nat.mul_le_mul (by omega) (by omega)
      _ = _ := by norm_num)
  exact ⟨hf, by omega⟩

/-- A finite number above 0, divided by +0 (R85, R115). -/
theorem IsNote.increment_rate_zero {n : Nat} {x : Word} (hx : IsNote x) (hn1 : 1 ≤ n) (hn : n ≤ 16384) :
    increment n (tune x) 0x00000000 = 0x7F800000 := by
  obtain ⟨hf, hpos⟩ := hx.fmul_tune_i2f_pos hn1 hn
  have hrate : scaled 0x00000000 = 0 := scaled_zero false
  rw [increment, fdiv_by_zero hf hpos.ne' hrate, signBit_of_scaled_pos hpos]
  decide

/-- No finite size brings a phase down from +∞. -/
theorem advance_posInfinity {n : Nat} (hn : n ≤ 16384) {p : Word} (hp : isFinite p = true) :
    advance n p 0x7F800000 = 0x7F800000 := by
  have hinf : isInf 0x7F800000 = true := by decide
  have hnf : isFinite (i2f n) = true := isFinite_i2f (by omega)
  have hneg : isFinite (i2f n ^^^ 0x80000000) = true := (isFinite_neg _).trans hnf
  have hsum : fadd p 0x7F800000 = 0x7F800000 := fadd_infinity_right hinf hp
  obtain ⟨-, -, -, hcmp, -⟩ := comparisonsCompareValues (i2f n) 0
  rw [advance_of_fgt (by rw [hsum]; exact (hcmp hnf).1), hsum, fsub_of_not_isNaN _ (isNaN_of_isFinite hnf)]
  exact fadd_infinity_left hinf (isNaN_of_isFinite hneg) fun h => by rw [isInf_of_isFinite hneg] at h; cases h

theorem inDomain_of_not_isFinite {p : Word} (h : isFinite p = false) (n : Nat) : inDomain n p = false := by
  rw [inDomain, h, Bool.false_and, Bool.false_and]

/-- Settles O38: the first frame finds phases of 0, and the second the +∞ the first one left. -/
theorem forgottenSampleRateFaultsInFrameOne : Obligations.ForgottenSampleRateFaultsInFrameOne := by
  intro s hrate hcaps hF hN1 hN2 hV1 hV2
  obtain ⟨t, hexec, hn, hvc, hready, -, -, hphase, hpinc, -, -, -, -, hsame⟩ := initBuildsTableAndVoices s hN1 hN2 hV1 hV2
  obtain ⟨hfault, -, -, -, htcaps, -, -⟩ := hsame
  have hmax : s.caps.maxN ≤ 16384 := by
    simp only [Caps.legal, Bool.and_eq_true, decide_eq_true_eq] at hcaps
    omega
  have htn : t.n ≤ 16384 := by omega
  have hvc0 : 0 < t.vc := by omega
  have hinc (v : Nat) (hv : v < t.vc) : t.read .pinc v = 0x7F800000 := by
    obtain ⟨x, hx, hx'⟩ := hpinc v hv
    rw [hx', hrate]
    exact hx.increment_rate_zero (by omega) htn
  have hframe0 : BlockInDomain t 1 := by
    intro f hf v hv
    obtain rfl := Nat.lt_one_iff.1 hf
    rw [phaseAt, hphase, if_pos hv]
    exact (inRange_zero htn).inDomain htn
  have hframe1 : phaseAt t 0 1 = 0x7F800000 := by
    rw [phaseAt, phaseAt, hphase, if_pos hvc0, hinc 0 hvc0]
    exact advance_posInfinity htn (isFinite_zero false)
  obtain ⟨u, hrender, hufault, hcode, hinfo, -⟩ := renderStopsAtTheFirstBadPhase t 2 1 0 hready (by rwa [htcaps])
    (by omega) hvc0 hframe0 (fun _ h => absurd h (Nat.not_lt_zero _))
    (by rw [hframe1]; exact inDomain_of_not_isFinite (by decide) _)
  exact ⟨t, u, hexec, hinc, hfault, hrender, hufault, hcode, hinfo.trans (by decide)⟩

end Sys2Proof.Machine
end
